-- ==== Sys2Proof/Word.lean ====
section
/-! DEFINITION. The machine's value types (spec 00_scope.md R9, R12; 20_memory.md R50): bytes, 7-bit bus addresses, and the
widths of the fields of the host port. Every value is unsigned (R9). -/

namespace Sys2Proof

/-- A byte (R9). -/
abbrev Byte := BitVec 8

/-- A value of the one address space, the 7-bit device addresses 0 to 127 (R50). -/
abbrev Addr := BitVec 7

/-- A 16-bit parameter or result (R10). -/
abbrev Half := BitVec 16

/-- A 32-bit parameter or result, and a count of milliseconds (R10, R12). -/
abbrev Word := BitVec 32

/-- The 64-bit response field `VAL` (R20). -/
abbrev Val := BitVec 64

end Sys2Proof
end

