-- ==== Sys2Proof/Config.lean ====
section
/-! DEFINITION. The constants the source fixes (spec 00_scope.md R6), the catalog of commands the parameters are indexed by
(44_command_catalog.md R190, R191), the configuration record `Cfg` of the parameters the source leaves open (R7), the bus
events (20_memory.md R71), and the free values: opaque constants without a body, for what the environment answers (R65) and
for an uninterpreted response check (R91). -/

namespace Sys2Proof

/-- The seven class R commands: the ones that decode an output value (R191). -/
inductive RCmd where
  | readMeasurement | readVersion | getSampleRate | getStatus | getSlaveAddress | getAmpThreshold | getDistanceLimits
  deriving DecidableEq, Repr

/-- The ten class W commands: the ones that return a plain status (R191). -/
inductive WCmd where
  | softReset | setSampleRate | trigger | setEnable | setSlaveAddress | restoreDefaults | saveSettings | setAmpThreshold
  | setDistanceLimits | timestampSync
  deriving DecidableEq, Repr

/-- The 17 catalog commands (R190). -/
inductive Cmd where
  | r (c : RCmd)
  | w (c : WCmd)
  deriving DecidableEq, Repr

/-- The 17 catalog commands in the order of their index k (R190). -/
def Cmd.all : List Cmd :=
  [.r .readMeasurement, .r .readVersion, .w .softReset, .r .getSampleRate, .w .setSampleRate, .w .trigger, .w .setEnable,
   .r .getStatus, .w .setSlaveAddress, .r .getSlaveAddress, .w .restoreDefaults, .w .saveSettings, .r .getAmpThreshold,
   .w .setAmpThreshold, .r .getDistanceLimits, .w .setDistanceLimits, .w .timestampSync]

/-- The number of parameter bytes of a class W command (R85); a class R command has none. -/
def WCmd.paramLen : WCmd → Nat
  | .softReset => 0
  | .setSampleRate => 2
  | .trigger => 0
  | .setEnable => 1
  | .setSlaveAddress => 1
  | .restoreDefaults => 0
  | .saveSettings => 0
  | .setAmpThreshold => 2
  | .setDistanceLimits => 4
  | .timestampSync => 4

/-- `LEN[c]`, the length of the whole request frame: 3 plus the parameter bytes (R7, R85). -/
def Cmd.len : Cmd → Nat
  | .r _ => 3
  | .w c => 3 + c.paramLen

/-- The payload bytes of a class R command's response (R90). -/
def RCmd.payloadLen : RCmd → Nat
  | .readMeasurement => 8
  | .readVersion => 3
  | .getSampleRate => 2
  | .getStatus => 1
  | .getSlaveAddress => 1
  | .getAmpThreshold => 2
  | .getDistanceLimits => 4

/-- The status of a call on the bus-write or the bus-read port: one bit (R56, R58). -/
inductive BusStatus where
  | ok | err
  deriving DecidableEq, Repr, Inhabited

/-- One bus event with its arguments and the environment's answer (R71). -/
inductive BusEvent where
  | reset
  | write (a : Addr) (s : List Byte) (st : BusStatus)
  | delay (t : Word)
  | read (a : Addr) (n : Nat) (st : BusStatus) (r : List Byte)
  deriving DecidableEq, Repr

/-- Byte 0 of every request frame (R6). -/
def Config.marker : Byte := 0x5A

/-- The capacity of the Device Directory and of the Exclusion List (R6). -/
def Config.listCap : Nat := 127

/-- FREE VALUE (log entry 2). The status the environment gives a `BusWrite` to address `a` of bytes `s` when no answer of its
stands in the state: any status, chosen on the whole history of bus events (R65). The number tells environments apart. -/
opaque Config.freeWriteAnswer : Nat → List BusEvent → Addr → List Byte → BusStatus

/-- FREE VALUE (log entry 2). The status and the bytes the environment gives a `BusRead` from address `a` of `n` bytes when no
answer of its stands in the state (R65). -/
opaque Config.freeReadAnswer : Nat → List BusEvent → Addr → Nat → BusStatus × List Byte

/-- FREE VALUE (log entry 6). An uninterpreted content check of a full-length response, one for each number (R91: "leaves
`RESP_VALID` uninterpreted"). -/
opaque Config.freeRespValid : Nat → RCmd → List Byte → Bool

/-- How a configuration checks the content of a full-length response (R91, `RESP_VALID`): plain data that names a predicate
(log entry 6). -/
inductive RespCheck where
  | acceptAll                              -- the default: no content check is made
  | require (bytes : List (Nat × Byte))    -- the bytes at these indices must have these values
  | free (k : Nat)                         -- the uninterpreted check number k
  deriving DecidableEq, Repr

/-- The content check a `RespCheck` names, on a response that has its full length. -/
def RespCheck.accepts (k : RespCheck) (c : RCmd) (r : List Byte) : Bool :=
  match k with
  | .acceptAll => true
  | .require bs => bs.all fun b => r[b.1]? == some b.2
  | .free n => Config.freeRespValid n c r

/-- One value for each catalog command, in the order of the catalog index k (R190). -/
structure PerCmd (α : Type) where
  readMeasurement : α
  readVersion : α
  softReset : α
  getSampleRate : α
  setSampleRate : α
  trigger : α
  setEnable : α
  getStatus : α
  setSlaveAddress : α
  getSlaveAddress : α
  restoreDefaults : α
  saveSettings : α
  getAmpThreshold : α
  setAmpThreshold : α
  getDistanceLimits : α
  setDistanceLimits : α
  timestampSync : α
  deriving DecidableEq, Repr

/-- The value a `PerCmd` holds for a command. -/
def PerCmd.get {α : Type} (t : PerCmd α) : Cmd → α
  | .r .readMeasurement => t.readMeasurement
  | .r .readVersion => t.readVersion
  | .w .softReset => t.softReset
  | .r .getSampleRate => t.getSampleRate
  | .w .setSampleRate => t.setSampleRate
  | .w .trigger => t.trigger
  | .w .setEnable => t.setEnable
  | .r .getStatus => t.getStatus
  | .w .setSlaveAddress => t.setSlaveAddress
  | .r .getSlaveAddress => t.getSlaveAddress
  | .w .restoreDefaults => t.restoreDefaults
  | .w .saveSettings => t.saveSettings
  | .r .getAmpThreshold => t.getAmpThreshold
  | .w .setAmpThreshold => t.setAmpThreshold
  | .r .getDistanceLimits => t.getDistanceLimits
  | .w .setDistanceLimits => t.setDistanceLimits
  | .w .timestampSync => t.timestampSync

/-- One value for each class R command (R7: `RESP_LEN` and `DELAY_MS` are indexed by class R commands only). -/
structure PerRead (α : Type) where
  readMeasurement : α
  readVersion : α
  getSampleRate : α
  getStatus : α
  getSlaveAddress : α
  getAmpThreshold : α
  getDistanceLimits : α
  deriving DecidableEq, Repr

/-- The value a `PerRead` holds for a command. -/
def PerRead.get {α : Type} (t : PerRead α) : RCmd → α
  | .readMeasurement => t.readMeasurement
  | .readVersion => t.readVersion
  | .getSampleRate => t.getSampleRate
  | .getStatus => t.getStatus
  | .getSlaveAddress => t.getSlaveAddress
  | .getAmpThreshold => t.getAmpThreshold
  | .getDistanceLimits => t.getDistanceLimits

/-- The configuration record of R7: the parameters the source leaves open. -/
structure Cfg where
  cmdId : PerCmd Byte          -- CMD_ID[c]
  respLen : PerRead Byte       -- RESP_LEN[c], c of class R
  delayMs : PerRead Word       -- DELAY_MS[c], c of class R
  probeByte : Byte             -- PROBE_BYTE
  respCheck : RespCheck        -- RESP_VALID(c, r), beside its length condition
  allocLo : Addr               -- ALLOC_LO
  deriving DecidableEq, Repr

/-- The default column of R7: `CMD_ID[c]` is the catalog index, `RESP_LEN[c]` is 2 plus the payload bytes, `DELAY_MS[c]` is 10,
`PROBE_BYTE` is 0x00, every full-length response is valid, `ALLOC_LO` is 1. They are the spec's placeholders, not facts about
any sensor, and no claim may rest on one it does not name. -/
def Cfg.default : Cfg where
  cmdId := {
    readMeasurement := 0x00, readVersion := 0x01, softReset := 0x02, getSampleRate := 0x03, setSampleRate := 0x04,
    trigger := 0x05, setEnable := 0x06, getStatus := 0x07, setSlaveAddress := 0x08, getSlaveAddress := 0x09,
    restoreDefaults := 0x0A, saveSettings := 0x0B, getAmpThreshold := 0x0C, setAmpThreshold := 0x0D,
    getDistanceLimits := 0x0E, setDistanceLimits := 0x0F, timestampSync := 0x10 }
  respLen := {
    readMeasurement := 10, readVersion := 5, getSampleRate := 4, getStatus := 3, getSlaveAddress := 3, getAmpThreshold := 4,
    getDistanceLimits := 6 }
  delayMs := {
    readMeasurement := 10, readVersion := 10, getSampleRate := 10, getStatus := 10, getSlaveAddress := 10,
    getAmpThreshold := 10, getDistanceLimits := 10 }
  probeByte := 0x00
  respCheck := .acceptAll
  allocLo := 1

/-- `RESP_LEN[c]` as the number of bytes a `BusRead` asks for. -/
def Cfg.rlen (g : Cfg) (c : RCmd) : Nat := (g.respLen.get c).toNat

/-- `RESP_VALID(c, r)`: it implies the full length (R7), and the configuration's content check holds (R91). -/
def Cfg.respValid (g : Cfg) (c : RCmd) (r : List Byte) : Bool :=
  decide (r.length = g.rlen c) && g.respCheck.accepts c r

/-- The pair (`CMD_ID[c]`, `LEN[c]`) by which a frame's receiver tells commands apart (R7). -/
def Cfg.idPair (g : Cfg) (c : Cmd) : Byte × Nat := (g.cmdId.get c, c.len)

/-- The constraints of R7 on a configuration: the (identifier, length) pairs of two commands differ, a response is long enough
for its payload, a delay is at most 10, and the allocator's search starts at 1 or above. -/
structure Cfg.Ok (g : Cfg) : Prop where
  pairsDiffer : (Cmd.all.map g.idPair).Nodup
  respLenEnough : ∀ c : RCmd, 2 + c.payloadLen ≤ g.rlen c
  delayInRange : ∀ c : RCmd, (g.delayMs.get c).toNat ≤ 10
  allocLoInRange : 1 ≤ g.allocLo.toNat

end Sys2Proof
end

