-- ==== Sys2Proof/Syntax.lean ====
section
/-! DEFINITION. The operations: one constructor of `Instr` for each row of spec/opcode_table.json. The 23 HOST rows are the
operations a host requests (30_encoding.md R81), with the operands R82 gives each; the 17 FRAME rows and the PROBE row are the
bus-side words of 30_encoding.md R85 and R88, with the parameters a frame carries. Also the request message (10_state.md R20)
and the two kinds of encoded word. -/

namespace Sys2Proof

inductive Instr where
  -- HOST rows: management operations
  | init (caps : BitVec 4)
  | setExclusions (count : Byte) (list : List Addr)
  | scan
  | allocate (d : Addr)
  | getDirectory
  | getExclusions
  -- HOST rows: the 17 catalog commands, in the order of their index k
  | readMeasurement (addr : Addr)
  | readVersion (addr : Addr)
  | softReset (addr : Addr)
  | getSampleRate (addr : Addr)
  | setSampleRate (addr : Addr) (rate : Half)
  | trigger (addr : Addr)
  | setEnable (addr : Addr) (en : BitVec 1)
  | getStatus (addr : Addr)
  | setSlaveAddress (addr : Addr) (new : Addr)
  | getSlaveAddress (addr : Addr)
  | restoreDefaults (addr : Addr)
  | saveSettings (addr : Addr)
  | getAmpThreshold (addr : Addr)
  | setAmpThreshold (addr : Addr) (thr : Half)
  | getDistanceLimits (addr : Addr)
  | setDistanceLimits (addr : Addr) (min : Half) (max : Half)
  | timestampSync (addr : Addr) (ts : Word)
  -- FRAME rows: the request frames, in the same order
  | frameReadMeasurement
  | frameReadVersion
  | frameSoftReset
  | frameGetSampleRate
  | frameSetSampleRate (rate : Half)
  | frameTrigger
  | frameSetEnable (en : BitVec 1)
  | frameGetStatus
  | frameSetSlaveAddress (new : Addr)
  | frameGetSlaveAddress
  | frameRestoreDefaults
  | frameSaveSettings
  | frameGetAmpThreshold
  | frameSetAmpThreshold (thr : Half)
  | frameGetDistanceLimits
  | frameSetDistanceLimits (min : Half) (max : Half)
  | frameTimestampSync (ts : Word)
  -- PROBE row
  | probe
  deriving DecidableEq, Repr

/-- The request message of the host port, field by field (R20). `list` holds `LIST[0 .. 126]`; one that is shorter stands for
itself followed by zeros (log entry 7). -/
structure Request where
  op : BitVec 6
  addr : Addr
  arg : Word
  caps : BitVec 4
  count : Byte
  list : List Addr
  deriving DecidableEq, Repr

/-- An encoded operation: a request message on the host side, or the bytes of one `BusWrite` on the bus side (30_encoding.md,
head: "TXC has two encodings"). -/
inductive Encoded where
  | request (r : Request)
  | bus (bytes : List Byte)
  deriving DecidableEq, Repr

end Sys2Proof
end

