-- ==== Sys2Proof/WellFormed.lean ====
section
/-! DEFINITION. Well-formed operations: the ones some request message or some frame TXC writes encodes. An operand that is a
bit field has every value of its width; what is checked here is what the field widths do not say. -/

namespace Sys2Proof

/-- `SET_EXCLUSIONS` carries the `COUNT` entries of `LIST` it reads, of which the message has 127 (R20, R133). -/
def listFits (count : Byte) (list : List Addr) : Bool :=
  list.length == min count.toNat Config.listCap

/-- An operation that an encoding stands for. Operand values that the spec refuses with `BAD_ARG` (R96) are well-formed: they
are requests the host can make, and the refusal is their effect. -/
def Instr.wellFormed : Instr → Bool
  | .setExclusions count list => listFits count list
  | .init _ | .scan | .allocate _ | .getDirectory | .getExclusions => true
  | .readMeasurement _ | .readVersion _ | .softReset _ | .getSampleRate _ | .setSampleRate _ _ | .trigger _ | .setEnable _ _
  | .getStatus _ | .setSlaveAddress _ _ | .getSlaveAddress _ | .restoreDefaults _ | .saveSettings _ | .getAmpThreshold _
  | .setAmpThreshold _ _ | .getDistanceLimits _ | .setDistanceLimits _ _ _ | .timestampSync _ _ => true
  | .frameReadMeasurement | .frameReadVersion | .frameSoftReset | .frameGetSampleRate | .frameSetSampleRate _ | .frameTrigger
  | .frameSetEnable _ | .frameGetStatus | .frameSetSlaveAddress _ | .frameGetSlaveAddress | .frameRestoreDefaults
  | .frameSaveSettings | .frameGetAmpThreshold | .frameSetAmpThreshold _ | .frameGetDistanceLimits
  | .frameSetDistanceLimits _ _ | .frameTimestampSync _ | .probe => true

/-- A request message whose `LIST` has no more than its 127 entries (R20). -/
def Request.wellFormed (r : Request) : Bool := decide (r.list.length ≤ Config.listCap)

end Sys2Proof
end

