-- ==== Sys2Proof/Decode.lean ====
section
/-! DEFINITION. The byte-order helpers (spec 00_scope.md R10), the request frame (30_encoding.md R84, R85), the decoder, total
on every request message and on every byte sequence and rejecting by name, and after it the encoder, written from the same
tables (R81, R82, R85, R88). Also the reading of an opcode-table word as an encoded operation. -/

namespace Sys2Proof

/-! Byte order (R10, R86). -/

/-- `le16(v)`: the low byte first. -/
def le16 (v : Half) : List Byte := [v.extractLsb' 0 8, v.extractLsb' 8 8]

/-- `le32(v)`: the low byte first. -/
def le32 (v : Word) : List Byte := [v.extractLsb' 0 8, v.extractLsb' 8 8, v.extractLsb' 16 8, v.extractLsb' 24 8]

/-- The 16-bit value whose low byte is `b0` (R86). -/
def join16 (b0 b1 : Byte) : Half := b1 ++ b0

/-- The 32-bit value whose bytes are, from the low one up, `b0` to `b3` (R86). -/
def join32 (b0 b1 b2 b3 : Byte) : Word := b3 ++ b2 ++ b1 ++ b0

/-- `u8at(s, i)`. An index past the end reads 0; no rule reads one (R90, R91). -/
def u8at (s : List Byte) (i : Nat) : Byte := s.getD i 0

/-- `u16le(s, i)` (R10). -/
def u16le (s : List Byte) (i : Nat) : Half := join16 (u8at s i) (u8at s (i + 1))

/-- `u32le(s, i)` (R10). -/
def u32le (s : List Byte) (i : Nat) : Word := join32 (u8at s i) (u8at s (i + 1)) (u8at s (i + 2)) (u8at s (i + 3))

/-- `zext_8` of a 7-bit address (R10). -/
def addrByte (a : Addr) : Byte := a.setWidth 8

/-- `zext_8` of the 1-bit operand of `SET_ENABLE` (R206). -/
def enableByte (en : BitVec 1) : Byte := en.setWidth 8

/-! The frame and the probe. -/

/-- `Frame(c, params) = [0x5A, 3 + len(params), CMD_ID[c]] ++ params` (R84). -/
def frame (g : Cfg) (c : Cmd) (params : List Byte) : List Byte :=
  [Config.marker, BitVec.ofNat 8 (3 + params.length), g.cmdId.get c] ++ params

/-- The probe: exactly one byte (R88). -/
def probeBytes (g : Cfg) : List Byte := [g.probeByte]

/-! Decoding. -/

/-- Why an encoded word stands for no operation. -/
inductive DecodeError where
  | reservedOp (op : BitVec 6)        -- an `OP` value that selects no operation (R95)
  | empty                             -- no byte at all
  | notProbeByte (b : Byte)           -- one byte that is not the probe byte (R88)
  | badMarker (b : Byte)              -- byte 0 is not the marker (R84)
  | badLength (n : Nat)               -- byte 1 is missing or is not the length of the frame (R84)
  | unknownCommand (id : Byte)        -- no command has this identifier and this length (R85, R97)
  | badParameter (ps : List Byte)     -- parameter bytes the command's frame never carries (R85, R97)
  deriving DecidableEq, Repr

/-- `LIST[0 .. n-1]` of a request message (R20, R82): the message has 127 entries. -/
def Request.entries (r : Request) (n : Nat) : List Addr :=
  (r.list ++ List.replicate Config.listCap 0).take (min n Config.listCap)

/-- `ARG[15:0]`, the first 16-bit parameter (R20). -/
def Request.arg0 (r : Request) : Half := r.arg.extractLsb' 0 16

/-- `ARG[31:16]`, the second 16-bit parameter (R20). -/
def Request.arg1 (r : Request) : Half := r.arg.extractLsb' 16 16

/-- `ARG[6:0]`: an 8-bit parameter of which an address uses seven bits, `ARG[7]` being ignored (R82). -/
def Request.argAddr (r : Request) : Addr := r.arg.extractLsb' 0 7

/-- `ARG[0]`, a 1-bit parameter (R20). -/
def Request.argBit (r : Request) : BitVec 1 := r.arg.extractLsb' 0 1

/-- The operation a request message asks for: `OP` alone selects it (R80, R81), and it reads the fields R82 gives it. Every
other `OP` value is reserved (R95). -/
def decodeRequest (r : Request) : Except DecodeError Instr :=
  match r.op.toNat with
  | 0x00 => .ok (.init r.caps)
  | 0x01 => .ok (.setExclusions r.count (r.entries r.count.toNat))
  | 0x02 => .ok .scan
  | 0x03 => .ok (.allocate r.addr)
  | 0x04 => .ok .getDirectory
  | 0x05 => .ok .getExclusions
  | 0x10 => .ok (.readMeasurement r.addr)
  | 0x11 => .ok (.readVersion r.addr)
  | 0x12 => .ok (.softReset r.addr)
  | 0x13 => .ok (.getSampleRate r.addr)
  | 0x14 => .ok (.setSampleRate r.addr r.arg0)
  | 0x15 => .ok (.trigger r.addr)
  | 0x16 => .ok (.setEnable r.addr r.argBit)
  | 0x17 => .ok (.getStatus r.addr)
  | 0x18 => .ok (.setSlaveAddress r.addr r.argAddr)
  | 0x19 => .ok (.getSlaveAddress r.addr)
  | 0x1A => .ok (.restoreDefaults r.addr)
  | 0x1B => .ok (.saveSettings r.addr)
  | 0x1C => .ok (.getAmpThreshold r.addr)
  | 0x1D => .ok (.setAmpThreshold r.addr r.arg0)
  | 0x1E => .ok (.getDistanceLimits r.addr)
  | 0x1F => .ok (.setDistanceLimits r.addr r.arg0 r.arg1)
  | 0x20 => .ok (.timestampSync r.addr r.arg)
  | _ => .error (.reservedOp r.op)

/-- The command whose identifier is byte 2 and whose length is byte 1 of a frame (R84; R7 makes the pair distinguish
commands). -/
def findCmd (g : Cfg) (id : Byte) (len : Nat) : Option Cmd := Cmd.all.find? fun c => g.idPair c == (id, len)

/-- The frame of a class R command, which has no parameter bytes (R85). -/
def decodeReadParams (c : RCmd) (ps : List Byte) : Except DecodeError Instr :=
  match ps with
  | [] =>
    match c with
    | .readMeasurement => .ok .frameReadMeasurement
    | .readVersion => .ok .frameReadVersion
    | .getSampleRate => .ok .frameGetSampleRate
    | .getStatus => .ok .frameGetStatus
    | .getSlaveAddress => .ok .frameGetSlaveAddress
    | .getAmpThreshold => .ok .frameGetAmpThreshold
    | .getDistanceLimits => .ok .frameGetDistanceLimits
  | _ => .error (.badParameter ps)

/-- A frame without parameter bytes. -/
def noParam (i : Instr) (ps : List Byte) : Except DecodeError Instr :=
  match ps with
  | [] => .ok i
  | _ => .error (.badParameter ps)

/-- A frame with one 16-bit parameter. -/
def halfParam (f : Half → Instr) (ps : List Byte) : Except DecodeError Instr :=
  match ps with
  | [b0, b1] => .ok (f (join16 b0 b1))
  | _ => .error (.badParameter ps)

/-- A frame with one 8-bit parameter, which is the zero-extension of a value of `n` bits (R206, R208). -/
def byteParam {n : Nat} (f : BitVec n → Instr) (ps : List Byte) : Except DecodeError Instr :=
  match ps with
  | [b] => if (b.setWidth n).setWidth 8 = b then .ok (f (b.setWidth n)) else .error (.badParameter ps)
  | _ => .error (.badParameter ps)

/-- A frame with four parameter bytes. -/
def fourParams (f : Byte → Byte → Byte → Byte → Instr) (ps : List Byte) : Except DecodeError Instr :=
  match ps with
  | [b0, b1, b2, b3] => .ok (f b0 b1 b2 b3)
  | _ => .error (.badParameter ps)

/-- The frame of a class W command whose parameter bytes are `ps` (R85). -/
def decodeWriteParams (c : WCmd) (ps : List Byte) : Except DecodeError Instr :=
  match c with
  | .softReset => noParam .frameSoftReset ps
  | .setSampleRate => halfParam .frameSetSampleRate ps
  | .trigger => noParam .frameTrigger ps
  | .setEnable => byteParam .frameSetEnable ps
  | .setSlaveAddress => byteParam .frameSetSlaveAddress ps
  | .restoreDefaults => noParam .frameRestoreDefaults ps
  | .saveSettings => noParam .frameSaveSettings ps
  | .setAmpThreshold => halfParam .frameSetAmpThreshold ps
  | .setDistanceLimits => fourParams (fun b0 b1 b2 b3 => .frameSetDistanceLimits (join16 b0 b1) (join16 b2 b3)) ps
  | .timestampSync => fourParams (fun b0 b1 b2 b3 => .frameTimestampSync (join32 b0 b1 b2 b3)) ps

/-- The frame of a command whose parameter bytes are `ps` (R85). -/
def decodeParams (c : Cmd) (ps : List Byte) : Except DecodeError Instr :=
  match c with
  | .r c => decodeReadParams c ps
  | .w c => decodeWriteParams c ps

/-- What the bytes of one `BusWrite` are: the probe if there is one byte (R88), else a request frame (R84, R85). -/
def decodeBus (g : Cfg) (bytes : List Byte) : Except DecodeError Instr :=
  match bytes with
  | [] => .error .empty
  | [b] => if b = g.probeByte then .ok .probe else .error (.notProbeByte b)
  | [_, l] => .error (.badLength l.toNat)
  | m :: l :: id :: ps =>
    if m ≠ Config.marker then .error (.badMarker m)
    else if l.toNat ≠ 3 + ps.length then .error (.badLength l.toNat)
    else
      match findCmd g id l.toNat with
      | none => .error (.unknownCommand id)
      | some c => decodeParams c ps

/-- The decoder on both kinds of encoded word. -/
def decode (g : Cfg) (e : Encoded) : Except DecodeError Instr :=
  match e with
  | .request r => decodeRequest r
  | .bus bytes => decodeBus g bytes

/-! Encoding. -/

/-- A request message with every field zero. -/
def Request.zero : Request := { op := 0, addr := 0, arg := 0, caps := 0, count := 0, list := [] }

/-- The request of an operation that reads `ADDR` only, or no field (R82). -/
def Request.plain (op : BitVec 6) (addr : Addr) : Request := { Request.zero with op := op, addr := addr }

/-- The request of an operation that reads `ADDR` and `ARG` (R82). -/
def Request.withArg (op : BitVec 6) (addr : Addr) (arg : Word) : Request := { Request.plain op addr with arg := arg }

/-- The encoded word of an operation: the request message of a host operation (fields it ignores are zero), the bytes of a
frame or of the probe (R81, R82, R85, R88). -/
def encode (g : Cfg) (i : Instr) : Encoded :=
  match i with
  | .init caps => .request { Request.zero with op := 0x00, caps := caps }
  | .setExclusions count list => .request { Request.zero with op := 0x01, count := count, list := list }
  | .scan => .request (.plain 0x02 0)
  | .allocate d => .request (.plain 0x03 d)
  | .getDirectory => .request (.plain 0x04 0)
  | .getExclusions => .request (.plain 0x05 0)
  | .readMeasurement addr => .request (.plain 0x10 addr)
  | .readVersion addr => .request (.plain 0x11 addr)
  | .softReset addr => .request (.plain 0x12 addr)
  | .getSampleRate addr => .request (.plain 0x13 addr)
  | .setSampleRate addr rate => .request (.withArg 0x14 addr (rate.setWidth 32))
  | .trigger addr => .request (.plain 0x15 addr)
  | .setEnable addr en => .request (.withArg 0x16 addr (en.setWidth 32))
  | .getStatus addr => .request (.plain 0x17 addr)
  | .setSlaveAddress addr new => .request (.withArg 0x18 addr (new.setWidth 32))
  | .getSlaveAddress addr => .request (.plain 0x19 addr)
  | .restoreDefaults addr => .request (.plain 0x1A addr)
  | .saveSettings addr => .request (.plain 0x1B addr)
  | .getAmpThreshold addr => .request (.plain 0x1C addr)
  | .setAmpThreshold addr thr => .request (.withArg 0x1D addr (thr.setWidth 32))
  | .getDistanceLimits addr => .request (.plain 0x1E addr)
  | .setDistanceLimits addr min max => .request (.withArg 0x1F addr (max ++ min))
  | .timestampSync addr ts => .request (.withArg 0x20 addr ts)
  | .frameReadMeasurement => .bus (frame g (.r .readMeasurement) [])
  | .frameReadVersion => .bus (frame g (.r .readVersion) [])
  | .frameSoftReset => .bus (frame g (.w .softReset) [])
  | .frameGetSampleRate => .bus (frame g (.r .getSampleRate) [])
  | .frameSetSampleRate rate => .bus (frame g (.w .setSampleRate) (le16 rate))
  | .frameTrigger => .bus (frame g (.w .trigger) [])
  | .frameSetEnable en => .bus (frame g (.w .setEnable) [enableByte en])
  | .frameGetStatus => .bus (frame g (.r .getStatus) [])
  | .frameSetSlaveAddress new => .bus (frame g (.w .setSlaveAddress) [addrByte new])
  | .frameGetSlaveAddress => .bus (frame g (.r .getSlaveAddress) [])
  | .frameRestoreDefaults => .bus (frame g (.w .restoreDefaults) [])
  | .frameSaveSettings => .bus (frame g (.w .saveSettings) [])
  | .frameGetAmpThreshold => .bus (frame g (.r .getAmpThreshold) [])
  | .frameSetAmpThreshold thr => .bus (frame g (.w .setAmpThreshold) (le16 thr))
  | .frameGetDistanceLimits => .bus (frame g (.r .getDistanceLimits) [])
  | .frameSetDistanceLimits min max => .bus (frame g (.w .setDistanceLimits) (le16 min ++ le16 max))
  | .frameTimestampSync ts => .bus (frame g (.w .timestampSync) (le32 ts))
  | .probe => .bus (probeBytes g)

/-! Words of the opcode table (R93). -/

/-- A request message read from its bits, the fields of R20 one after the other in the order of its table, `OP` in bits 5 to 0
(log entry 7: the spec gives the fields and their widths, not their places). -/
def Request.ofBits (w : Nat) : Request where
  op := BitVec.ofNat 6 w
  addr := BitVec.ofNat 7 (w >>> 6)
  arg := BitVec.ofNat 32 (w >>> 13)
  caps := BitVec.ofNat 4 (w >>> 45)
  count := BitVec.ofNat 8 (w >>> 49)
  list := (List.range Config.listCap).map fun i => BitVec.ofNat 7 (w >>> (57 + 7 * i))

/-- The bytes of a frame's table word: byte 0 stands in the word's top eight bits (R93), and the parameter bytes the word does
not give are zeros, up to the length byte 1 says and no further than the longest frame (R85). -/
def frameBytesOfWord (nbits w : Nat) : List Byte :=
  let given := (List.range (nbits / 8)).map fun i => BitVec.ofNat 8 (w >>> (nbits - 8 * (i + 1)))
  given ++ List.replicate (min (given.getD 1 0).toNat 7 - given.length) 0

/-- A table word of 24 bits or more is a frame (R93); a shorter one is the low bits of a request message. -/
def isFrameWord (nbits : Nat) : Bool := decide (24 ≤ nbits)

/-- The encoded operation a table word stands for. A word of at most 8 bits is read as `OP` on the host side: the table's row
PROBE, one byte on the bus side, shares that word with INIT (log entry 8). -/
def encodedOfWord (nbits w : Nat) : Encoded :=
  if isFrameWord nbits then .bus (frameBytesOfWord nbits w) else .request (.ofBits w)

/-- The instruction the decoder reads from a table word, with the default configuration the table is written with (R93). -/
def decodeTableWord (nbits w : Nat) : Option Instr :=
  match decode Cfg.default (encodedOfWord nbits w) with
  | .ok i => some i
  | .error _ => none

end Sys2Proof
end

