-- ==== Sys2Proof/Machine/State.lean ====
section
/-! DEFINITION. The machine's state, as plain data: the host port (spec 10_state.md R20), the architectural state (R22 to R30),
the transient state of an operation (R32 to R34) and of the sequencer (R40, R41), the configuration (00_scope.md R7), what the
environment is going to answer on the four bus-side ports (20_memory.md R55 to R59, R65) and the trace (R71). Also the closed
types of the reasons a step can stop, and the state after reset (70_reset_and_hazards.md R271). -/

namespace Sys2Proof.Machine

/-- The values of `STATUS` (60_exceptions.md R240). -/
inductive Status where
  | ok | fail | notReady | badArg
  deriving DecidableEq, Repr

/-- The response message (R20). `snap` is the list `SNAP[0 .. SNAP_N - 1]`; the entries above `SNAP_N` are unspecified and
are not held (log entry 14). -/
structure Response where
  status : Status
  val : Val
  snap : List Addr
  deriving DecidableEq, Repr

/-- The phases of the sequencer `SEQ` (R40). -/
inductive Phase where
  | idle      -- no operation in progress; a request can be accepted
  | tWrite    -- a BusWrite is outstanding, its bytes in TXBUF
  | tDelay    -- a Delay is outstanding
  | tRead     -- a BusRead is outstanding
  | sReset    -- a BusReset is outstanding
  | sNext     -- the scan body looks for its next candidate
  | sDone     -- the scan body replaces the directory
  | aSearch   -- the allocator searches a free address
  deriving DecidableEq, Repr

/-- The operation whose bus events are in progress: what the phases of R40 have to know to find the phase they leave to (log
entry 11). `allocate true` is an `ALLOCATE` that has come to its reassignment write (R170 step 5). -/
inductive Job where
  | none
  | write (c : WCmd)
  | read (c : RCmd)
  | scan
  | allocate (reassigned : Bool)
  deriving DecidableEq, Repr

/-- What the environment does with one call on a bus-side port (R55, R65, R66): it completes with an answer, it is not complete
yet, or it never completes. -/
inductive Completion (α : Type) where
  | done (a : α)
  | notYet
  | never
  deriving DecidableEq, Repr

/-- The environment's behaviour to come, one queue for each of the four bus-side ports (R55 to R59). When a queue is empty, the
port's calls complete with the free values of `Config` (log entries 2 and 3); `seed` tells environments apart there. -/
structure Environment where
  writes : List (Completion BusStatus)
  reads : List (Completion (BusStatus × List Byte))
  resets : List (Completion Unit)
  delays : List (Completion Unit)
  seed : Nat
  deriving DecidableEq, Repr

/-- The state of TXC, of its host port and of what stands on its bus-side ports. -/
structure State where
  cfg : Cfg                    -- the configuration (R7); no step writes it
  host : List Request          -- the requests the host presents, the next one first (R20, R42)
  resp : Option Response       -- the response message, while it is valid (R20)
  init : Bool                  -- INIT (R22)
  dir : List Addr              -- DIR[0 .. DIR_N - 1] (R23)
  exc : List Addr              -- EXC[0 .. EXC_N - 1] (R27)
  seq : Phase                  -- SEQ (R40)
  cand : BitVec 8              -- CAND (R41)
  new : List Addr              -- NEW[0 .. NEW_N - 1] (R32)
  txbuf : List Byte            -- TXBUF (R33)
  rxbuf : List Byte            -- RXBUF (R34)
  job : Job                    -- the operation in progress (log entry 11)
  addr : Addr                  -- ADDR as sampled when the request was accepted (R20)
  env : Environment            -- what the environment is going to answer (R65)
  trace : List BusEvent        -- the bus events of the operation last accepted, in order (R71)
  past : List BusEvent         -- the bus events of the operations before it, in order (log entry 16)
  deriving DecidableEq, Repr

/-- `DIR_N` (R23), in the 7 bits R30 gives it. -/
def State.dirN (s : State) : BitVec 7 := BitVec.ofNat 7 s.dir.length

/-- `EXC_N` (R27). -/
def State.excN (s : State) : BitVec 7 := BitVec.ofNat 7 s.exc.length

/-- `NEW_N` (R32). -/
def State.newN (s : State) : BitVec 7 := BitVec.ofNat 7 s.new.length

/-- `SNAP_N`, in the 8 bits R20 gives it. -/
def Response.snapN (r : Response) : BitVec 8 := BitVec.ofNat 8 r.snap.length

/-- Every bus event since reset: what the environment may base an answer on (R65). -/
def State.history (s : State) : List BusEvent := s.past ++ s.trace

/-- The reasons the machine stops. Both are raised by `step` only, in states that no run reaches (`State.Inv` rules them out):
the spec gives a failed operation a status and never a stop (R13). Both are safe: the model stops where the spec says nothing. -/
inductive Fault where
  /-- `step` in phase T_WRITE with a TXBUF that holds neither the probe nor a frame (R97 says that TXC writes no other bytes).
  Safe: no state a run reaches is one. -/
  | txbufIsNoFrame
  /-- `step` in phase T_DELAY or T_READ with no class R command in progress (R40 gives those phases to a transaction only).
  Safe: no state a run reaches is one. -/
  | noTransaction
  deriving DecidableEq, Repr

/-- The reasons an instruction has no meaning in this model. -/
inductive Refusal where
  /-- Raised by `exec` for an instruction that has no meaning yet; no arm raises it. Safe. -/
  | notModelled (mnemonic : String)
  deriving DecidableEq, Repr

/-- An environment that answers every call with the free values. -/
def Environment.free : Environment := { writes := [], reads := [], resets := [], delays := [], seed := 0 }

/-- The machine right after reset (R271): `INIT` is 0, both lists are empty, `SEQ` is `IDLE`, no bus event has happened (R272), no
request is presented. No response is valid: R271 leaves the response unspecified (log entry 23). The transients, which R271 leaves
unspecified too, hold the values of log entry 10. -/
def State.reset : State where
  cfg := Cfg.default
  host := []
  resp := Option.none
  init := false
  dir := []
  exc := []
  seq := .idle
  cand := 1
  new := []
  txbuf := []
  rxbuf := []
  job := .none
  addr := 0
  env := .free
  trace := []
  past := []

end Sys2Proof.Machine
end

