-- ==== Sys2Proof/Machine/Flags.lean ====
section
/-! DEFINITION. The one flag of TXC, `INIT` (spec 10_state.md R22, 41_init_directory_exclusion.md R130), and the status outcomes
(60_exceptions.md R240, R241). TXC has no condition codes (R22). -/

namespace Sys2Proof.Machine

/-- The code of a status (R240). -/
def Status.code : Status → BitVec 2
  | .ok => 0
  | .fail => 1
  | .notReady => 2
  | .badArg => 3

/-- `CAPS` with all four ports attached (R130). -/
def allCaps : BitVec 4 := 0b1111

/-- `INIT` after the operation `INIT(caps)`: only a complete `CAPS` sets it and nothing clears it (R22, R130, R131). -/
def initAfter (old : Bool) (caps : BitVec 4) : Bool := if caps = allCaps then true else old

/-- The status of a write phase from the answer of its one `BusWrite` (R113, R241 (a)). -/
def writeStatus : BusStatus → Status
  | .ok => .ok
  | .err => .fail

end Sys2Proof.Machine
end

