-- ==== Sys2Proof/Machine/Operands.lean ====
section
/-! DEFINITION. Operands and results: membership (spec 00_scope.md R14), the candidate addresses (42_scanner.md R151,
43_allocator.md R172), and `Decode_c`, the output value of a class R command from its response (30_encoding.md R83, R90;
44_command_catalog.md R200 to R214). -/

namespace Sys2Proof.Machine

/-- `member(a, L)` (R14). -/
def member (a : Addr) (l : List Addr) : Bool := l.contains a

/-- The value of `CAND` as a bus address. `CAND` is 1 to 127 wherever this is used (R41). -/
def State.candAddr (s : State) : Addr := s.cand.setWidth 7

/-- How many candidates are left from the value of `CAND` on: the loop ends at 128 (R41). -/
def State.candLeft (s : State) : Nat := 128 - s.cand.toNat

/-- The candidates `lo, lo + 1, ..., 127`, ascending (R172). -/
def candidates (lo : Addr) : List Addr := (List.range' lo.toNat (128 - lo.toNat)).map (BitVec.ofNat 7)

/-- `VAL` of a measurement: distance in bits 15 to 0, amplitude in 31 to 16, timestamp in 63 to 32 (R83, R200). -/
def measurementVal (distance amplitude : Half) (timestamp : Word) : Val := timestamp ++ amplitude ++ distance

/-- `VAL` of a version: major in bits 7 to 0, minor in 15 to 8, revision in 23 to 16, the rest 0 (R83, R201). -/
def versionVal (major minor revision : Byte) : Val := (revision ++ minor ++ major).setWidth 64

/-- `VAL` of a pair of distance limits: min in bits 15 to 0, max in 31 to 16, the rest 0 (R83, R214). -/
def limitsVal (min max : Half) : Val := (max ++ min).setWidth 64

/-- `Decode_c(r)` as the field `VAL`: it reads the payload from index 2 on, and nothing else of the response (R90, R194). -/
def decodeResponse (c : RCmd) (r : List Byte) : Val :=
  match c with
  | .readMeasurement => measurementVal (u16le r 2) (u16le r 4) (u32le r 6)
  | .readVersion => versionVal (u8at r 2) (u8at r 3) (u8at r 4)
  | .getSampleRate => (u16le r 2).setWidth 64
  | .getStatus => (u8at r 2).setWidth 64
  | .getSlaveAddress => (u8at r 2).setWidth 64
  | .getAmpThreshold => (u16le r 2).setWidth 64
  | .getDistanceLimits => limitsVal (u16le r 2) (u16le r 4)

end Sys2Proof.Machine
end

