-- ==== Sys2Proof/Machine/Ops.lean ====
section
/-! DEFINITION. The shared operations: the four bus-side ports (spec 20_memory.md R55 to R59), the transaction primitive in its
two forms (40_transaction.md R110 to R117), and the two ends of an operation: accepting a request (10_state.md R42) and
completing with a response (00_scope.md R13, 60_exceptions.md R253 to R255: what TXC has in the place of taking an exception and
returning from it). -/

namespace Sys2Proof.Machine

/-- The result of a piece of an operation: it is done, with a value, or it waits for a call that is outstanding on a bus-side
port, and the state tells in `SEQ` which one (R40, R55). -/
inductive Run (α : Type) where
  | done (a : α) (s : State)
  | waiting (s : State)
  deriving DecidableEq, Repr

/-- Go on with what follows, unless a call is outstanding. -/
def Run.bind {α β : Type} (x : Run α) (f : α → State → Run β) : Run β :=
  match x with
  | .done a s => f a s
  | .waiting s => .waiting s

/-- The state an operation leaves: that of its last part if all is done, else the state in which it waits. -/
def Run.finish {α : Type} (x : Run α) (f : α → State → State) : State :=
  match x with
  | .done a s => f a s
  | .waiting s => s

/-! The bus-side ports. -/

/-- What the environment does with the next call on a port: its answer if it completes the call, `free` where no answer stands
in the queue, and the queue afterwards. A call that never completes stays outstanding for ever (R66). -/
def takeAnswer {α : Type} (free : α) : List (Completion α) → Option α × List (Completion α)
  | [] => (some free, [])
  | .done a :: rest => (some a, rest)
  | .notYet :: rest => (none, rest)
  | .never :: rest => (none, .never :: rest)

/-- One more bus event in the trace (R71). -/
def State.record (s : State) (e : BusEvent) : State := { s with trace := s.trace ++ [e] }

/-- What the environment does with a `BusWrite` to `a` of `bytes` (R56, R65). -/
def State.writeTurn (s : State) (a : Addr) (bytes : List Byte) : Option BusStatus × List (Completion BusStatus) :=
  takeAnswer (Config.freeWriteAnswer s.env.seed s.history a bytes) s.env.writes

/-- What the environment does with a `BusRead` from `a` of `n` bytes (R58, R65). -/
def State.readTurn (s : State) (a : Addr) (n : Nat) :
    Option (BusStatus × List Byte) × List (Completion (BusStatus × List Byte)) :=
  takeAnswer (Config.freeReadAnswer s.env.seed s.history a n) s.env.reads

/-- The environment's queues after a turn on the bus-write port. -/
def State.setWrites (s : State) (q : List (Completion BusStatus)) : State := { s with env := { s.env with writes := q } }

/-- The environment's queues after a turn on the bus-read port. -/
def State.setReads (s : State) (q : List (Completion (BusStatus × List Byte))) : State :=
  { s with env := { s.env with reads := q } }

/-- The environment's queues after a turn on the bus-reset port. -/
def State.setResets (s : State) (q : List (Completion Unit)) : State := { s with env := { s.env with resets := q } }

/-- The environment's queues after a turn on the delay port. -/
def State.setDelays (s : State) (q : List (Completion Unit)) : State := { s with env := { s.env with delays := q } }

/-- `BusWrite(a, s) -> st` (R56). -/
def busWrite (a : Addr) (bytes : List Byte) (s : State) : Run BusStatus :=
  let s' := s.setWrites (s.writeTurn a bytes).2
  match (s.writeTurn a bytes).1 with
  | some st => .done st (s'.record (.write a bytes st))
  | none => .waiting s'

/-- `BusRead(a, n) -> (st, r)`, with len(r) at most n (R58; an answer of more bytes is cut to n, log entry 4). -/
def busRead (a : Addr) (n : Nat) (s : State) : Run (BusStatus × List Byte) :=
  let s' := s.setReads (s.readTurn a n).2
  match (s.readTurn a n).1 with
  | some ans => .done (ans.1, ans.2.take n) (s'.record (.read a n ans.1 (ans.2.take n)))
  | none => .waiting s'

/-- `BusReset() -> ()` (R57). -/
def busReset (s : State) : Run Unit :=
  let s' := s.setResets (takeAnswer () s.env.resets).2
  match (takeAnswer () s.env.resets).1 with
  | some _ => .done () (s'.record .reset)
  | none => .waiting s'

/-- `Delay(t) -> ()`: an event of the trace and nothing else (R59). -/
def busDelay (t : Word) (s : State) : Run Unit :=
  let s' := s.setDelays (takeAnswer () s.env.delays).2
  match (takeAnswer () s.env.delays).1 with
  | some _ => .done () (s'.record (.delay t))
  | none => .waiting s'

/-! The ends of an operation. -/

/-- The operation ends and reports (R13): the response becomes valid (R20), `VAL` and the snapshot being empty on every status
but `OK` (R83, R195), and `SEQ` returns to `IDLE` (R255). The transients and the latched target keep the values the operation left
in them, where R32 to R34 give them no meaning: the model's choice (log entry 25). -/
def State.complete (s : State) (st : Status) (val : Val) (snap : List Addr) : State :=
  { s with
    resp := some (if st = .ok then { status := st, val := val, snap := snap } else { status := st, val := 0, snap := [] })
    seq := .idle
    job := .none }

/-- An end with neither an output value nor a list (R83). -/
def State.completePlain (s : State) (st : Status) : State := s.complete st 0 []

/-- A request leaves the host port and an operation begins (R42): the response stops being valid (R20), and the trace is that of
the new operation (R71). -/
def State.accept (s : State) (rest : List Request) : State :=
  { s with host := rest, resp := none, past := s.past ++ s.trace, trace := [] }

/-- The target address as sampled when the request is accepted (R20). -/
def State.target (s : State) (addr : Addr) : State := { s with addr := addr }

/-- A request with a reserved `OP`: refused, whatever `INIT` is (R95, R252 (1)). -/
def refuseReserved (s : State) : State := s.completePlain .badArg

/-! The transaction primitive. -/

/-- The sequencer goes to a phase (R40). -/
def State.enter (s : State) (p : Phase) : State := { s with seq := p }

/-- The operation whose bus events are in progress from here on. -/
def State.withJob (s : State) (j : Job) : State := { s with job := j }

/-- The bytes a `BusRead` returned go to RXBUF (R34). -/
def State.received (s : State) (r : List Byte) : State := { s with rxbuf := r }

/-- Phase T_WRITE: the bytes go to TXBUF and the one `BusWrite` is issued (R33, R40). -/
def State.enterWrite (s : State) (req : List Byte) : State := { s with txbuf := req, seq := .tWrite }

/-- `WritePhase(a, req)` (R113). -/
def writePhase (a : Addr) (req : List Byte) (s : State) : Run Status :=
  if s.init = false then .done .notReady s
  else (busWrite a req (s.enterWrite req)).bind fun st s => .done (writeStatus st) s

/-- The result of `Transact` (R110). -/
inductive Transacted where
  | ok (r : List Byte)
  | fail
  | notReady
  deriving DecidableEq, Repr

/-- Phase T_READ of a transaction: steps (5) to (7) of R111, the bytes going to RXBUF (R34). -/
def readPhase (a : Addr) (rlen : Nat) (s : State) : Run Transacted :=
  (busRead a rlen (s.enter .tRead)).bind fun ans s =>
    if ans.1 = .ok ∧ ans.2.length = rlen then .done (.ok ans.2) (s.received ans.2) else .done .fail (s.received ans.2)

/-- Phase T_DELAY of a transaction and what follows it: steps (4) to (7) of R111. -/
def delayPhase (a : Addr) (rlen : Nat) (dly : Word) (s : State) : Run Transacted :=
  (busDelay dly (s.enter .tDelay)).bind fun _ s => readPhase a rlen s

/-- `Transact(a, req, rlen, dly)` (R111). -/
def transact (a : Addr) (req : List Byte) (rlen : Nat) (dly : Word) (s : State) : Run Transacted :=
  (writePhase a req s).bind fun st s =>
    match st with
    | .ok => delayPhase a rlen dly s
    | .notReady => .done .notReady s
    | _ => .done .fail s

end Sys2Proof.Machine
end

