-- ==== Sys2Proof/Machine/Management.lean ====
section
/-! DEFINITION. The operations without a bus event: `INIT`, `SET_EXCLUSIONS`, `GET_DIRECTORY`, `GET_EXCLUSIONS` (spec
41_init_directory_exclusion.md R130 to R137). -/

namespace Sys2Proof.Machine

/-- `INIT(caps)` (R130, R131): the only operation that does not test `INIT`; its status is always `OK`. -/
def execInit (caps : BitVec 4) (s : State) : Host.Outcome State Fault Refusal :=
  .next (({ s with init := initAfter s.init caps }).completePlain .ok)

/-- `SET_EXCLUSIONS` (R133, R134): the `COUNT` entries replace the list whole, stored as given. -/
def execSetExclusions (count : Byte) (list : List Addr) (s : State) : Host.Outcome State Fault Refusal :=
  .next (
    if s.init = false then s.completePlain .notReady
    else if Config.listCap < count.toNat then s.completePlain .badArg
    else ({ s with exc := list.take count.toNat }).completePlain .ok)

/-- `GET_DIRECTORY()` (R135): a snapshot of `DIR`. -/
def execGetDirectory (s : State) : Host.Outcome State Fault Refusal :=
  .next (if s.init = false then s.completePlain .notReady else s.complete .ok 0 s.dir)

/-- `GET_EXCLUSIONS()` (R136): a snapshot of `EXC`, in stored order. -/
def execGetExclusions (s : State) : Host.Outcome State Fault Refusal :=
  .next (if s.init = false then s.completePlain .notReady else s.complete .ok 0 s.exc)

end Sys2Proof.Machine
end

