-- ==== Sys2Proof/Machine/Scanner.lean ====
section
/-! DEFINITION. The bus scanner with reset recovery: the pieces of `ScanBody`, one for each phase of the sequencer it goes
through (spec 42_scanner.md R150 to R155; 10_state.md R26, R32, R40, R41). The host operation `SCAN` and the bus word `PROBE`
stand in Machine/Allocator.lean, after what may follow a scan body. -/

namespace Sys2Proof.Machine

/-- Phase S_RESET: a `BusReset`, at the head of a scan body or after a failed probe; phase S_NEXT follows (R40, R151 (1), (7)). -/
def resetPhase (s : State) : Run Unit :=
  (busReset (s.enter .sReset)).bind fun _ s => .done () (s.enter .sNext)

/-- The candidate at `CAND` has been dealt with (R41). -/
def State.nextCand (s : State) : State := { s with cand := s.cand + 1 }

/-- Step (6) of R151: the address that answered is appended to `NEW`. -/
def State.found (s : State) : State := { s with new := s.new ++ [s.candAddr], seq := .sNext }

/-- The probe of the candidate at `CAND` and what follows its answer: steps (5) to (7) of R151. -/
def probeCandidate (s : State) : Run Unit :=
  (writePhase s.candAddr (probeBytes s.cfg) s).bind fun st s =>
    if st = .ok then .done () s.found.nextCand else resetPhase s.nextCand

/-- Phase S_NEXT and the loop (3) to (7) of R151 over the `n` candidates that are left: an excluded address is skipped without a
bus event. Phase S_DONE follows. -/
def scanLoop : Nat → State → Run Unit
  | 0, s => .done () (s.enter .sDone)
  | n + 1, s =>
    if member s.candAddr s.exc then scanLoop n (s.nextCand.enter .sNext)
    else (probeCandidate s).bind fun _ s => scanLoop n s

/-- Phase S_DONE: step (8) of R151, one replacement of the whole directory (R26). -/
def State.replaceDir (s : State) : State := { s with dir := s.new }

/-- A scan body from phase S_NEXT on. -/
def scanRest (s : State) : Run Unit := (scanLoop s.candLeft s).bind fun _ s => .done () s.replaceDir

/-- `NEW` empty and `CAND` at 1: steps (2) and (3) of R151, done before the `BusReset` of step (1) is issued, which nothing can
observe (log entry 12). -/
def State.startScan (s : State) : State := { s with new := [], cand := 1 }

/-- `ScanBody()` (R151). -/
def scanBody (s : State) : Run Unit := (resetPhase s.startScan).bind fun _ s => scanRest s

/-- The end of an operation that returns the directory (R83, R150, R170). -/
def respondDirectory (s : State) : State := s.complete .ok 0 s.dir

end Sys2Proof.Machine
end

