-- ==== Sys2Proof/Machine/Allocator.lean ====
section
/-! DEFINITION. The address conflict detector and allocator (spec 43_allocator.md R170 to R176), the host operations `ALLOCATE`
and `SCAN` (42_scanner.md R150), and the bus word `PROBE` (30_encoding.md R88). -/

namespace Sys2Proof.Machine

/-- `FreeAddress(d)` with d in `ADDR`: the lowest candidate from `ALLOC_LO` on that is not in the directory, not excluded and
not d (R172). -/
def freeAddress (s : State) : Option Addr :=
  (candidates s.cfg.allocLo).find? fun a => !member a s.dir && !member a s.exc && !(a == s.addr)

/-- The frame that moves a device to the address `a` (R173, R208). -/
def reassignFrame (g : Cfg) (a : Addr) : List Byte := frame g (.w .setSlaveAddress) [addrByte a]

/-- Steps (5) to (7) of R170: the reassignment write, whose result changes nothing of what follows (R173), the second scan body
and the response. -/
def reassign (a : Addr) (s : State) : State :=
  ((writePhase s.addr (reassignFrame s.cfg a) (s.withJob (.allocate true))).bind fun _ s => scanBody s).finish
    fun _ s => respondDirectory s

/-- `CAND` where the allocator's search ends (R41). -/
def State.searched (s : State) (c : BitVec 8) : State := { s with cand := c }

/-- Phase A_SEARCH: steps (3) to (7) of R170. `CAND` ends at the address found, or at 128 (R41). -/
def searchPhase (s : State) : State :=
  match freeAddress s with
  | none => respondDirectory ((s.enter .aSearch).searched 128)
  | some a => reassign a ((s.enter .aSearch).searched (a.setWidth 8))

/-- What a scan body is followed by: the conflict test (2) of R170 after the first scan body of an `ALLOCATE` (R171), else the
response. -/
def afterScan (s : State) : State :=
  match s.job with
  | .allocate false => if member s.addr s.dir then searchPhase s else respondDirectory s
  | _ => respondDirectory s

/-- `SCAN()` (R150). -/
def execScan (s : State) : Host.Outcome State Fault Refusal :=
  .next (
    if s.init = false then s.completePlain .notReady
    else (scanBody (s.withJob .scan)).finish fun _ s => afterScan s)

/-- `ALLOCATE(d)` (R170). -/
def execAllocate (d : Addr) (s : State) : Host.Outcome State Fault Refusal :=
  .next (
    if s.init = false then s.completePlain .notReady
    else (scanBody ((s.target d).withJob (.allocate false))).finish fun _ s => afterScan s)

/-- The probe as the word in TXBUF: the probe of the candidate at `CAND` (R88), the rest of its scan body (R151) and what
follows that. The `INIT` test is that of `WritePhase` (R113, R116). -/
def execProbe (s : State) : Host.Outcome State Fault Refusal :=
  .next (
    if s.init = false then s.completePlain .notReady
    else ((probeCandidate s).bind fun _ s => scanRest s).finish fun _ s => afterScan s)

end Sys2Proof.Machine
end

