-- ==== Sys2Proof/Machine/Catalog.lean ====
section
/-! DEFINITION. The command catalog, framer and parser (spec 44_command_catalog.md): the two builders `ExecW` and `ExecR` (R192,
R194, R197) and the 17 host operations as data over them (R200 to R216). -/

namespace Sys2Proof.Machine

/-- `ExecW(c, addr, params)` from the `INIT` test on, the target standing in `ADDR` (R192). `legal` is the command's own argument
test (R96 (b)). -/
def writeCommand (c : WCmd) (params : List Byte) (legal : Bool) (s : State) : State :=
  if s.init = false then s.completePlain .notReady
  else if legal = false then s.completePlain .badArg
  else (writePhase s.addr (frame s.cfg (.w c) params) (s.withJob (.write c))).finish fun st s => s.completePlain st

/-- The end of a class R command: the content check, then the decode (R194, R91); no partial decode (R195). -/
def finishRead (c : RCmd) (x : Transacted) (s : State) : State :=
  match x with
  | .notReady => s.completePlain .notReady
  | .fail => s.completePlain .fail
  | .ok r => if s.cfg.respValid c r then s.complete .ok (decodeResponse c r) [] else s.completePlain .fail

/-- `ExecR(c, addr)` from the `INIT` test on, the target standing in `ADDR` (R194, R193 (b)). -/
def readCommand (c : RCmd) (s : State) : State :=
  if s.init = false then s.completePlain .notReady
  else if s.addr = 0 then s.completePlain .badArg
  else
    (transact s.addr (frame s.cfg (.r c) []) (s.cfg.rlen c) (s.cfg.delayMs.get c) (s.withJob (.read c))).finish
      fun x s => finishRead c x s

/-- The argument test of `SET_SLAVE_ADDRESS`: an address is in 1 to 127 (R96 (b), R208). -/
def newAddressLegal (new : Addr) : Bool := !(new == 0)

/-- `READ_MEASUREMENT(addr)` (R200). -/
def execReadMeasurement (addr : Addr) (s : State) : Host.Outcome State Fault Refusal :=
  .next (readCommand .readMeasurement (s.target addr))

/-- `READ_VERSION(addr)` (R201). -/
def execReadVersion (addr : Addr) (s : State) : Host.Outcome State Fault Refusal :=
  .next (readCommand .readVersion (s.target addr))

/-- `SOFT_RESET(addr)` (R202). -/
def execSoftReset (addr : Addr) (s : State) : Host.Outcome State Fault Refusal :=
  .next (writeCommand .softReset [] true (s.target addr))

/-- `GET_SAMPLE_RATE(addr)` (R203). -/
def execGetSampleRate (addr : Addr) (s : State) : Host.Outcome State Fault Refusal :=
  .next (readCommand .getSampleRate (s.target addr))

/-- `SET_SAMPLE_RATE(addr, rate)` (R204). -/
def execSetSampleRate (addr : Addr) (rate : Half) (s : State) : Host.Outcome State Fault Refusal :=
  .next (writeCommand .setSampleRate (le16 rate) true (s.target addr))

/-- `TRIGGER(addr)` (R205). -/
def execTrigger (addr : Addr) (s : State) : Host.Outcome State Fault Refusal :=
  .next (writeCommand .trigger [] true (s.target addr))

/-- `SET_ENABLE(addr, en)` (R206). -/
def execSetEnable (addr : Addr) (en : BitVec 1) (s : State) : Host.Outcome State Fault Refusal :=
  .next (writeCommand .setEnable [enableByte en] true (s.target addr))

/-- `GET_STATUS(addr)` (R207). -/
def execGetStatus (addr : Addr) (s : State) : Host.Outcome State Fault Refusal :=
  .next (readCommand .getStatus (s.target addr))

/-- `SET_SLAVE_ADDRESS(addr, new)` (R208). -/
def execSetSlaveAddress (addr : Addr) (new : Addr) (s : State) : Host.Outcome State Fault Refusal :=
  .next (writeCommand .setSlaveAddress [addrByte new] (newAddressLegal new) (s.target addr))

/-- `GET_SLAVE_ADDRESS(addr)` (R209). -/
def execGetSlaveAddress (addr : Addr) (s : State) : Host.Outcome State Fault Refusal :=
  .next (readCommand .getSlaveAddress (s.target addr))

/-- `RESTORE_DEFAULTS(addr)` (R210). -/
def execRestoreDefaults (addr : Addr) (s : State) : Host.Outcome State Fault Refusal :=
  .next (writeCommand .restoreDefaults [] true (s.target addr))

/-- `SAVE_SETTINGS(addr)` (R211). -/
def execSaveSettings (addr : Addr) (s : State) : Host.Outcome State Fault Refusal :=
  .next (writeCommand .saveSettings [] true (s.target addr))

/-- `GET_AMP_THRESHOLD(addr)` (R212). -/
def execGetAmpThreshold (addr : Addr) (s : State) : Host.Outcome State Fault Refusal :=
  .next (readCommand .getAmpThreshold (s.target addr))

/-- `SET_AMP_THRESHOLD(addr, thr)` (R213). -/
def execSetAmpThreshold (addr : Addr) (thr : Half) (s : State) : Host.Outcome State Fault Refusal :=
  .next (writeCommand .setAmpThreshold (le16 thr) true (s.target addr))

/-- `GET_DISTANCE_LIMITS(addr)` (R214). -/
def execGetDistanceLimits (addr : Addr) (s : State) : Host.Outcome State Fault Refusal :=
  .next (readCommand .getDistanceLimits (s.target addr))

/-- `SET_DISTANCE_LIMITS(addr, min, max)` (R215). -/
def execSetDistanceLimits (addr : Addr) (min : Half) (max : Half) (s : State) : Host.Outcome State Fault Refusal :=
  .next (writeCommand .setDistanceLimits (le16 min ++ le16 max) true (s.target addr))

/-- `TIMESTAMP_SYNC(addr, ts)` (R216). -/
def execTimestampSync (addr : Addr) (ts : Word) (s : State) : Host.Outcome State Fault Refusal :=
  .next (writeCommand .timestampSync (le32 ts) true (s.target addr))

end Sys2Proof.Machine
end

