-- ==== Sys2Proof/Machine/Frames.lean ====
section
/-! DEFINITION. The request frames as bus-side words (spec 30_encoding.md R84, R85, R93; the FRAME rows of the opcode table): what
TXC does with a frame in TXBUF, in phase T_WRITE, the target standing in `ADDR` (10_state.md R33, R40). It is the bus side of the
command the frame belongs to, from the tests of the primitive on (40_transaction.md R113, R116); in a run these tests have been
passed before a frame comes into TXBUF. -/

namespace Sys2Proof.Machine

/-- The frame of `READ_MEASUREMENT` (R200). -/
def execFrameReadMeasurement (s : State) : Host.Outcome State Fault Refusal :=
  .next (readCommand .readMeasurement s)

/-- The frame of `READ_VERSION` (R201). -/
def execFrameReadVersion (s : State) : Host.Outcome State Fault Refusal :=
  .next (readCommand .readVersion s)

/-- The frame of `SOFT_RESET` (R202). -/
def execFrameSoftReset (s : State) : Host.Outcome State Fault Refusal :=
  .next (writeCommand .softReset [] true s)

/-- The frame of `GET_SAMPLE_RATE` (R203). -/
def execFrameGetSampleRate (s : State) : Host.Outcome State Fault Refusal :=
  .next (readCommand .getSampleRate s)

/-- The frame of `SET_SAMPLE_RATE` (R204). -/
def execFrameSetSampleRate (rate : Half) (s : State) : Host.Outcome State Fault Refusal :=
  .next (writeCommand .setSampleRate (le16 rate) true s)

/-- The frame of `TRIGGER` (R205). -/
def execFrameTrigger (s : State) : Host.Outcome State Fault Refusal :=
  .next (writeCommand .trigger [] true s)

/-- The frame of `SET_ENABLE` (R206). -/
def execFrameSetEnable (en : BitVec 1) (s : State) : Host.Outcome State Fault Refusal :=
  .next (writeCommand .setEnable [enableByte en] true s)

/-- The frame of `GET_STATUS` (R207). -/
def execFrameGetStatus (s : State) : Host.Outcome State Fault Refusal :=
  .next (readCommand .getStatus s)

/-- The frame of `SET_SLAVE_ADDRESS` (R208): that of the host operation, or, inside an `ALLOCATE`, its reassignment write, after which the
bus is scanned again (R173). -/
def execFrameSetSlaveAddress (new : Addr) (s : State) : Host.Outcome State Fault Refusal :=
  match s.job with
  | .allocate _ => .next (if s.init = false then s.completePlain .notReady else reassign new s)
  | _ => .next (writeCommand .setSlaveAddress [addrByte new] (newAddressLegal new) s)

/-- The frame of `GET_SLAVE_ADDRESS` (R209). -/
def execFrameGetSlaveAddress (s : State) : Host.Outcome State Fault Refusal :=
  .next (readCommand .getSlaveAddress s)

/-- The frame of `RESTORE_DEFAULTS` (R210). -/
def execFrameRestoreDefaults (s : State) : Host.Outcome State Fault Refusal :=
  .next (writeCommand .restoreDefaults [] true s)

/-- The frame of `SAVE_SETTINGS` (R211). -/
def execFrameSaveSettings (s : State) : Host.Outcome State Fault Refusal :=
  .next (writeCommand .saveSettings [] true s)

/-- The frame of `GET_AMP_THRESHOLD` (R212). -/
def execFrameGetAmpThreshold (s : State) : Host.Outcome State Fault Refusal :=
  .next (readCommand .getAmpThreshold s)

/-- The frame of `SET_AMP_THRESHOLD` (R213). -/
def execFrameSetAmpThreshold (thr : Half) (s : State) : Host.Outcome State Fault Refusal :=
  .next (writeCommand .setAmpThreshold (le16 thr) true s)

/-- The frame of `GET_DISTANCE_LIMITS` (R214). -/
def execFrameGetDistanceLimits (s : State) : Host.Outcome State Fault Refusal :=
  .next (readCommand .getDistanceLimits s)

/-- The frame of `SET_DISTANCE_LIMITS` (R215). -/
def execFrameSetDistanceLimits (min : Half) (max : Half) (s : State) : Host.Outcome State Fault Refusal :=
  .next (writeCommand .setDistanceLimits (le16 min ++ le16 max) true s)

/-- The frame of `TIMESTAMP_SYNC` (R216). -/
def execFrameTimestampSync (ts : Word) (s : State) : Host.Outcome State Fault Refusal :=
  .next (writeCommand .timestampSync (le32 ts) true s)

end Sys2Proof.Machine
end

