-- ==== Sys2Proof/Machine/Dispatch.lean ====
section
/-! DEFINITION. One arm for each constructor of `Instr`. -/

namespace Sys2Proof.Machine

def exec (i : Instr) (s : State) : Host.Outcome State Fault Refusal :=
  match i with
  -- management operations
  | .init caps => Sys2Proof.Machine.execInit caps s
  | .setExclusions count list => Sys2Proof.Machine.execSetExclusions count list s
  | .scan => Sys2Proof.Machine.execScan s
  | .allocate d => Sys2Proof.Machine.execAllocate d s
  | .getDirectory => Sys2Proof.Machine.execGetDirectory s
  | .getExclusions => Sys2Proof.Machine.execGetExclusions s
  -- catalog commands
  | .readMeasurement addr => Sys2Proof.Machine.execReadMeasurement addr s
  | .readVersion addr => Sys2Proof.Machine.execReadVersion addr s
  | .softReset addr => Sys2Proof.Machine.execSoftReset addr s
  | .getSampleRate addr => Sys2Proof.Machine.execGetSampleRate addr s
  | .setSampleRate addr rate => Sys2Proof.Machine.execSetSampleRate addr rate s
  | .trigger addr => Sys2Proof.Machine.execTrigger addr s
  | .setEnable addr en => Sys2Proof.Machine.execSetEnable addr en s
  | .getStatus addr => Sys2Proof.Machine.execGetStatus addr s
  | .setSlaveAddress addr new => Sys2Proof.Machine.execSetSlaveAddress addr new s
  | .getSlaveAddress addr => Sys2Proof.Machine.execGetSlaveAddress addr s
  | .restoreDefaults addr => Sys2Proof.Machine.execRestoreDefaults addr s
  | .saveSettings addr => Sys2Proof.Machine.execSaveSettings addr s
  | .getAmpThreshold addr => Sys2Proof.Machine.execGetAmpThreshold addr s
  | .setAmpThreshold addr thr => Sys2Proof.Machine.execSetAmpThreshold addr thr s
  | .getDistanceLimits addr => Sys2Proof.Machine.execGetDistanceLimits addr s
  | .setDistanceLimits addr min max => Sys2Proof.Machine.execSetDistanceLimits addr min max s
  | .timestampSync addr ts => Sys2Proof.Machine.execTimestampSync addr ts s
  -- frames
  | .frameReadMeasurement => Sys2Proof.Machine.execFrameReadMeasurement s
  | .frameReadVersion => Sys2Proof.Machine.execFrameReadVersion s
  | .frameSoftReset => Sys2Proof.Machine.execFrameSoftReset s
  | .frameGetSampleRate => Sys2Proof.Machine.execFrameGetSampleRate s
  | .frameSetSampleRate rate => Sys2Proof.Machine.execFrameSetSampleRate rate s
  | .frameTrigger => Sys2Proof.Machine.execFrameTrigger s
  | .frameSetEnable en => Sys2Proof.Machine.execFrameSetEnable en s
  | .frameGetStatus => Sys2Proof.Machine.execFrameGetStatus s
  | .frameSetSlaveAddress new => Sys2Proof.Machine.execFrameSetSlaveAddress new s
  | .frameGetSlaveAddress => Sys2Proof.Machine.execFrameGetSlaveAddress s
  | .frameRestoreDefaults => Sys2Proof.Machine.execFrameRestoreDefaults s
  | .frameSaveSettings => Sys2Proof.Machine.execFrameSaveSettings s
  | .frameGetAmpThreshold => Sys2Proof.Machine.execFrameGetAmpThreshold s
  | .frameSetAmpThreshold thr => Sys2Proof.Machine.execFrameSetAmpThreshold thr s
  | .frameGetDistanceLimits => Sys2Proof.Machine.execFrameGetDistanceLimits s
  | .frameSetDistanceLimits min max => Sys2Proof.Machine.execFrameSetDistanceLimits min max s
  | .frameTimestampSync ts => Sys2Proof.Machine.execFrameTimestampSync ts s
  -- the probe
  | .probe => Sys2Proof.Machine.execProbe s

end Sys2Proof.Machine
end

