-- ==== Sys2Proof/Machine/Sequencer.lean ====
section
/-! DEFINITION. What one step does in each phase of the sequencer (spec 10_state.md R40): in `IDLE` it accepts the request the
host presents and runs the operation (R42, R80); in every other phase it takes up the call that is outstanding and goes on from
there. In phase T_WRITE that is to run the word in TXBUF. -/

namespace Sys2Proof.Machine

/-- Phase `IDLE`: with no request presented TXC waits (R273); a reserved `OP` is refused (R95); any other request is the operation
it encodes. -/
def idleStep (s : State) : Host.Outcome State Fault Refusal :=
  match s.host with
  | [] => .next s
  | r :: rest =>
    match decodeRequest r with
    | .ok i => exec i (s.accept rest)
    | .error _ => .next (refuseReserved (s.accept rest))

/-- Phase T_WRITE: the bytes in TXBUF are the probe or a frame (R97). -/
def writeStep (s : State) : Host.Outcome State Fault Refusal :=
  match decodeBus s.cfg s.txbuf with
  | .ok i => exec i s
  | .error _ => .fault .txbufIsNoFrame

/-- Phase T_DELAY: the rest of a transaction from its delay on (R111 (4)). -/
def delayStep (s : State) : Host.Outcome State Fault Refusal :=
  match s.job with
  | .read c => .next ((delayPhase s.addr (s.cfg.rlen c) (s.cfg.delayMs.get c) s).finish fun x s => finishRead c x s)
  | _ => .fault .noTransaction

/-- Phase T_READ: the rest of a transaction from its read on (R111 (5)). -/
def readStep (s : State) : Host.Outcome State Fault Refusal :=
  match s.job with
  | .read c => .next ((readPhase s.addr (s.cfg.rlen c) s).finish fun x s => finishRead c x s)
  | _ => .fault .noTransaction

/-- Phase S_RESET: the rest of a scan body from a bus reset on (R151 (1), (7)), and what follows the scan body. -/
def resetStep (s : State) : Host.Outcome State Fault Refusal :=
  .next (((resetPhase s).bind fun _ s => scanRest s).finish fun _ s => afterScan s)

/-- Phase S_NEXT: the rest of a scan body from its next candidate on, and what follows the scan body. -/
def nextStep (s : State) : Host.Outcome State Fault Refusal :=
  .next ((scanRest s).finish fun _ s => afterScan s)

/-- Phase S_DONE: the replacement of the directory (R26), and what follows the scan body. -/
def doneStep (s : State) : Host.Outcome State Fault Refusal := .next (afterScan s.replaceDir)

/-- Phase A_SEARCH: the allocator's search and what follows it (R170 (3) to (7)). -/
def searchStep (s : State) : Host.Outcome State Fault Refusal := .next (searchPhase s)

/-- A state in which the next step runs the given encoded word: a request is presented in phase `IDLE`, the bytes of a bus word
stand in TXBUF in phase T_WRITE. -/
def State.withEncoded (s : State) (e : Encoded) : State :=
  match e with
  | .request r => { s with seq := .idle, host := r :: s.host }
  | .bus bytes => { s with seq := .tWrite, txbuf := bytes }

/-- The encoded word a table word stands for where `step` fetches next: as `encodedOfWord` says, but that in phase T_WRITE, where
the fetch is from TXBUF, a word of one byte is the byte of a probe (log entry 8). -/
def State.fetchedWord (s : State) (nbits w : Nat) : Encoded :=
  if s.seq = .tWrite ∧ nbits = 8 then .bus [BitVec.ofNat 8 w] else encodedOfWord nbits w

end Sys2Proof.Machine
end

