-- ==== Sys2Proof/Machine/Step.lean ====
section
/-! DEFINITION. The step function, by the phase of the sequencer (spec 10_state.md R40), and the state in which the next step
runs a given word of the opcode table. -/

namespace Sys2Proof.Machine

/-- One step. -/
def step (s : State) : Host.Outcome State Fault Refusal :=
  match s.seq with
  | .idle => idleStep s
  | .tWrite => writeStep s
  | .tDelay => delayStep s
  | .tRead => readStep s
  | .sReset => resetStep s
  | .sNext => nextStep s
  | .sDone => doneStep s
  | .aSearch => searchStep s

/-- `s` with the instruction of a table word standing where the next step fetches. -/
def State.withFetchWord (s : State) (nbits w : Nat) : State := s.withEncoded (s.fetchedWord nbits w)

end Sys2Proof.Machine
end

