-- ==== Sys2Proof/Safety.lean ====
section
/-! DEFINITION. What a safe run is, in the terms the claims use: the invariant of the states a run goes through (spec 10_state.md
R24, R41, R42; 30_encoding.md R97), the environments that complete every call (20_memory.md R66), what a scan comes to
(42_scanner.md R151), and the runs of an operation that waits for its environment (10_state.md R35). -/

namespace Sys2Proof.Machine

/-- Strictly ascending (R24 (c)). -/
def Ascending (l : List Addr) : Prop := l.Pairwise fun a b => a.toNat < b.toNat

/-- A directory as R24 (a) to (c) has it: strictly ascending, hence without duplicates, and in 1 to 127. -/
structure DirectoryOk (l : List Addr) : Prop where
  ascending : Ascending l
  inRange : ∀ a ∈ l, a ≠ 0

/-- A response as R20 and R83 have it. -/
structure Response.Ok (r : Response) : Prop where
  emptyUnlessOk : r.status ≠ .ok → r.val = 0 ∧ r.snap = []
  snapFits : r.snap.length ≤ Config.listCap

/-- A scan body is in progress: `CAND` is in its range, and `NEW` is the directory being built from the candidates below it (R32,
R41, R151). -/
structure State.ScanInProgress (s : State) : Prop where
  job : s.job = .scan ∨ s.job = .allocate false ∨ s.job = .allocate true
  candLo : 1 ≤ s.cand.toNat
  candHi : s.cand.toNat ≤ 128
  newOk : DirectoryOk s.new
  newBelow : ∀ a ∈ s.new, a.toNat < s.cand.toNat
  newAllowed : ∀ a ∈ s.new, a ∉ s.exc

/-- The bus word in TXBUF is one the operation in progress writes (R97): a probe of the candidate at `CAND` in a scan body, a frame
of the command in progress, or the reassignment write of an `ALLOCATE`. -/
def State.Writes (s : State) : Instr → Prop
  | .probe => s.ScanInProgress ∧ s.cand.toNat ≤ 127 ∧ s.candAddr ∉ s.exc
  | .frameReadMeasurement => s.job = .read .readMeasurement ∧ s.addr ≠ 0
  | .frameReadVersion => s.job = .read .readVersion ∧ s.addr ≠ 0
  | .frameSoftReset => s.job = .write .softReset
  | .frameGetSampleRate => s.job = .read .getSampleRate ∧ s.addr ≠ 0
  | .frameSetSampleRate _ => s.job = .write .setSampleRate
  | .frameTrigger => s.job = .write .trigger
  | .frameSetEnable _ => s.job = .write .setEnable
  | .frameGetStatus => s.job = .read .getStatus ∧ s.addr ≠ 0
  | .frameSetSlaveAddress new => s.job = .allocate true ∨ (s.job = .write .setSlaveAddress ∧ new ≠ 0)
  | .frameGetSlaveAddress => s.job = .read .getSlaveAddress ∧ s.addr ≠ 0
  | .frameRestoreDefaults => s.job = .write .restoreDefaults
  | .frameSaveSettings => s.job = .write .saveSettings
  | .frameGetAmpThreshold => s.job = .read .getAmpThreshold ∧ s.addr ≠ 0
  | .frameSetAmpThreshold _ => s.job = .write .setAmpThreshold
  | .frameGetDistanceLimits => s.job = .read .getDistanceLimits ∧ s.addr ≠ 0
  | .frameSetDistanceLimits _ _ => s.job = .write .setDistanceLimits
  | .frameTimestampSync _ => s.job = .write .timestampSync
  | .init _ | .setExclusions _ _ | .scan | .allocate _ | .getDirectory | .getExclusions | .readMeasurement _ | .readVersion _
  | .softReset _ | .getSampleRate _ | .setSampleRate _ _ | .trigger _ | .setEnable _ _ | .getStatus _ | .setSlaveAddress _ _
  | .getSlaveAddress _ | .restoreDefaults _ | .saveSettings _ | .getAmpThreshold _ | .setAmpThreshold _ _
  | .getDistanceLimits _ | .setDistanceLimits _ _ _ | .timestampSync _ _ => False

/-- What holds in each phase of the sequencer (R40). -/
def State.PhaseOk (s : State) : Prop :=
  match s.seq with
  | .idle => True
  | .tWrite => ∃ i, encode s.cfg i = .bus s.txbuf ∧ s.Writes i
  | .tDelay | .tRead => ∃ c, s.job = .read c
  | .sReset | .sNext => s.ScanInProgress
  | .sDone => s.ScanInProgress ∧ s.cand.toNat = 128
  | .aSearch => s.job = .allocate false

/-- The invariant of a run: the configuration meets the constraints of R7; the directory is as R24 (a) to (c) says and the
exclusion list within its capacity (R27); without `INIT` the directory is empty and no operation is in progress (R24 (e), R251);
a response is valid in `IDLE` only (R20, R42) and has its form; and the phase's own condition holds. -/
structure State.Inv (s : State) : Prop where
  cfgOk : s.cfg.Ok
  dirOk : DirectoryOk s.dir
  excFits : s.exc.length ≤ Config.listCap
  uninit : s.init = false → s.dir = [] ∧ s.seq = .idle
  respIdle : ∀ r, s.resp = some r → s.seq = .idle
  respOk : ∀ r, s.resp = some r → r.Ok
  phaseOk : s.PhaseOk

/-- The environment completes every call it is given in the queues (R66: the fairness premise). -/
structure Environment.Completes (e : Environment) : Prop where
  writes : ∀ c ∈ e.writes, ∃ st, c = .done st
  reads : ∀ c ∈ e.reads, ∃ st, c = .done st
  resets : ∀ c ∈ e.resets, c = .done ()
  delays : ∀ c ∈ e.delays, c = .done ()

/-- The call outstanding in the phase of the sequencer never completes (R66, R289). -/
def State.HangsForEver (s : State) : Prop :=
  match s.seq with
  | .tWrite => s.env.writes.head? = some .never
  | .tDelay => s.env.delays.head? = some .never
  | .tRead => s.env.reads.head? = some .never
  | .sReset => s.env.resets.head? = some .never
  | .idle | .sNext | .sDone | .aSearch => False

/-- The addresses a scan body probes: 1 to 127, ascending, less the excluded ones (R151). -/
def probed (exc : List Addr) : List Addr := (candidates 1).filter fun a => !member a exc

/-- The directory a scan body builds when the environment answers the probe of `a` with `f a` (R151). -/
def scanDirectory (exc : List Addr) (f : Addr → BusStatus) : List Addr := (probed exc).filter fun a => f a == .ok

/-- The bus events of the probe of `a` answered with `st` (R151 (5), (7)). -/
def probeEvents (probeByte : Byte) (a : Addr) (st : BusStatus) : List BusEvent :=
  match st with
  | .ok => [.write a [probeByte] .ok]
  | .err => [.write a [probeByte] .err, .reset]

/-- The bus events of a scan body when the environment answers the probe of `a` with `f a` (R151). -/
def scanEvents (probeByte : Byte) (exc : List Addr) (f : Addr → BusStatus) : List BusEvent :=
  .reset :: (probed exc).flatMap fun a => probeEvents probeByte a (f a)

/-- Take up an operation that waits, step after step, until it is done: at most `n` steps. -/
def goOn : Nat → State → State
  | 0, s => s
  | n + 1, s =>
    if s.seq = .idle then s
    else
      match step s with
      | .next t => goOn n t
      | .fault _ => s
      | .refused _ => s

/-- An environment's queues without the calls that are not complete yet: the same answers, at once. -/
def withoutStalls (e : Environment) : Environment :=
  { e with
    writes := e.writes.filter fun c => c != .notYet
    reads := e.reads.filter fun c => c != .notYet
    resets := e.resets.filter fun c => c != .notYet
    delays := e.delays.filter fun c => c != .notYet }

/-- The state with the same answers at once. -/
def prompt (s : State) : State := { s with env := withoutStalls s.env }

/-- Every call of the environment's queues completes in the end (R66: the fairness premise). -/
structure EventuallyCompletes (e : Environment) : Prop where
  writes : .never ∉ e.writes
  reads : .never ∉ e.reads
  resets : .never ∉ e.resets
  delays : .never ∉ e.delays

end Sys2Proof.Machine
end

