-- ==== Sys2Proof/Certificates/Slice0/Obligations.lean ====
section
/-! DEFINITION. The statements about the machine, for the provers. They come from the numbered rules of the spec. Helper
definitions restate the spec's tables in their own words (frame bytes written out, output values as sums), so that a statement
does not lean on the definition it is about. -/

namespace Sys2Proof.Claims

open Sys2Proof.Machine

/-- Byte `k` of a value: the bits from `8 * k` on. -/
def byteOf {w : Nat} (v : BitVec w) (k : Nat) : Byte := v.extractLsb' (8 * k) 8

/-- The target and the request frame of a class W host operation, byte for byte (R84, R85, R202 to R216). -/
def hostFrame (g : Cfg) : Instr → Option (Addr × List Byte)
  | .softReset a => some (a, [0x5A, 3, g.cmdId.softReset])
  | .setSampleRate a rate => some (a, [0x5A, 5, g.cmdId.setSampleRate, byteOf rate 0, byteOf rate 1])
  | .trigger a => some (a, [0x5A, 3, g.cmdId.trigger])
  | .setEnable a en => some (a, [0x5A, 4, g.cmdId.setEnable, if en = 1 then 0x01 else 0x00])
  | .setSlaveAddress a new => some (a, [0x5A, 4, g.cmdId.setSlaveAddress, BitVec.ofNat 8 new.toNat])
  | .restoreDefaults a => some (a, [0x5A, 3, g.cmdId.restoreDefaults])
  | .saveSettings a => some (a, [0x5A, 3, g.cmdId.saveSettings])
  | .setAmpThreshold a thr => some (a, [0x5A, 5, g.cmdId.setAmpThreshold, byteOf thr 0, byteOf thr 1])
  | .setDistanceLimits a min max =>
    some (a, [0x5A, 7, g.cmdId.setDistanceLimits, byteOf min 0, byteOf min 1, byteOf max 0, byteOf max 1])
  | .timestampSync a ts =>
    some (a, [0x5A, 7, g.cmdId.timestampSync, byteOf ts 0, byteOf ts 1, byteOf ts 2, byteOf ts 3])
  | .init _ | .setExclusions _ _ | .scan | .allocate _ | .getDirectory | .getExclusions | .readMeasurement _
  | .readVersion _ | .getSampleRate _ | .getStatus _ | .getSlaveAddress _ | .getAmpThreshold _ | .getDistanceLimits _
  | .frameReadMeasurement | .frameReadVersion | .frameSoftReset | .frameGetSampleRate | .frameSetSampleRate _
  | .frameTrigger | .frameSetEnable _ | .frameGetStatus | .frameSetSlaveAddress _ | .frameGetSlaveAddress
  | .frameRestoreDefaults | .frameSaveSettings | .frameGetAmpThreshold | .frameSetAmpThreshold _
  | .frameGetDistanceLimits | .frameSetDistanceLimits _ _ | .frameTimestampSync _ | .probe => none

/-- The bytes of a class W frame as a bus-side word, byte for byte (R84, R85). -/
def busFrame (g : Cfg) : Instr → Option (List Byte)
  | .frameSoftReset => some [0x5A, 3, g.cmdId.softReset]
  | .frameSetSampleRate rate => some [0x5A, 5, g.cmdId.setSampleRate, byteOf rate 0, byteOf rate 1]
  | .frameTrigger => some [0x5A, 3, g.cmdId.trigger]
  | .frameSetEnable en => some [0x5A, 4, g.cmdId.setEnable, if en = 1 then 0x01 else 0x00]
  | .frameSetSlaveAddress new => some [0x5A, 4, g.cmdId.setSlaveAddress, BitVec.ofNat 8 new.toNat]
  | .frameRestoreDefaults => some [0x5A, 3, g.cmdId.restoreDefaults]
  | .frameSaveSettings => some [0x5A, 3, g.cmdId.saveSettings]
  | .frameSetAmpThreshold thr => some [0x5A, 5, g.cmdId.setAmpThreshold, byteOf thr 0, byteOf thr 1]
  | .frameSetDistanceLimits min max =>
    some [0x5A, 7, g.cmdId.setDistanceLimits, byteOf min 0, byteOf min 1, byteOf max 0, byteOf max 1]
  | .frameTimestampSync ts => some [0x5A, 7, g.cmdId.timestampSync, byteOf ts 0, byteOf ts 1, byteOf ts 2, byteOf ts 3]
  | .init _ | .setExclusions _ _ | .scan | .allocate _ | .getDirectory | .getExclusions | .readMeasurement _
  | .readVersion _ | .softReset _ | .getSampleRate _ | .setSampleRate _ _ | .trigger _ | .setEnable _ _ | .getStatus _
  | .setSlaveAddress _ _ | .getSlaveAddress _ | .restoreDefaults _ | .saveSettings _ | .getAmpThreshold _
  | .setAmpThreshold _ _ | .getDistanceLimits _ | .setDistanceLimits _ _ _ | .timestampSync _ _ | .frameReadMeasurement
  | .frameReadVersion | .frameGetSampleRate | .frameGetStatus | .frameGetSlaveAddress | .frameGetAmpThreshold
  | .frameGetDistanceLimits | .probe => none

/-- The command and the target of a class R host operation (R191, R200 to R214). -/
def hostRead : Instr → Option (RCmd × Addr)
  | .readMeasurement a => some (.readMeasurement, a)
  | .readVersion a => some (.readVersion, a)
  | .getSampleRate a => some (.getSampleRate, a)
  | .getStatus a => some (.getStatus, a)
  | .getSlaveAddress a => some (.getSlaveAddress, a)
  | .getAmpThreshold a => some (.getAmpThreshold, a)
  | .getDistanceLimits a => some (.getDistanceLimits, a)
  | .init _ | .setExclusions _ _ | .scan | .allocate _ | .getDirectory | .getExclusions | .softReset _
  | .setSampleRate _ _ | .trigger _ | .setEnable _ _ | .setSlaveAddress _ _ | .restoreDefaults _ | .saveSettings _
  | .setAmpThreshold _ _ | .setDistanceLimits _ _ _ | .timestampSync _ _ | .frameReadMeasurement | .frameReadVersion
  | .frameSoftReset | .frameGetSampleRate | .frameSetSampleRate _ | .frameTrigger | .frameSetEnable _ | .frameGetStatus
  | .frameSetSlaveAddress _ | .frameGetSlaveAddress | .frameRestoreDefaults | .frameSaveSettings
  | .frameGetAmpThreshold | .frameSetAmpThreshold _ | .frameGetDistanceLimits | .frameSetDistanceLimits _ _
  | .frameTimestampSync _ | .probe => none

/-- The command of a class R frame as a bus-side word (R85). -/
def busCommand : Instr → Option RCmd
  | .frameReadMeasurement => some .readMeasurement
  | .frameReadVersion => some .readVersion
  | .frameGetSampleRate => some .getSampleRate
  | .frameGetStatus => some .getStatus
  | .frameGetSlaveAddress => some .getSlaveAddress
  | .frameGetAmpThreshold => some .getAmpThreshold
  | .frameGetDistanceLimits => some .getDistanceLimits
  | .init _ | .setExclusions _ _ | .scan | .allocate _ | .getDirectory | .getExclusions | .readMeasurement _
  | .readVersion _ | .softReset _ | .getSampleRate _ | .setSampleRate _ _ | .trigger _ | .setEnable _ _ | .getStatus _
  | .setSlaveAddress _ _ | .getSlaveAddress _ | .restoreDefaults _ | .saveSettings _ | .getAmpThreshold _
  | .setAmpThreshold _ _ | .getDistanceLimits _ | .setDistanceLimits _ _ _ | .timestampSync _ _ | .frameSoftReset
  | .frameSetSampleRate _ | .frameTrigger | .frameSetEnable _ | .frameSetSlaveAddress _ | .frameRestoreDefaults
  | .frameSaveSettings | .frameSetAmpThreshold _ | .frameSetDistanceLimits _ _ | .frameTimestampSync _ | .probe => none

/-- The frame of a class R command: three bytes (R85). -/
def readFrame (g : Cfg) (c : RCmd) : List Byte := [0x5A, 3, g.cmdId.get (.r c)]

/-- `VAL` of a class R command as a sum over the bytes of the response (R10, R83, R90, R200 to R214). -/
def readVal (c : RCmd) (r : List Byte) : Nat :=
  let b := fun i => (r.getD i 0).toNat
  match c with
  | .readMeasurement =>
    (b 2 + 256 * b 3) + 65536 * (b 4 + 256 * b 5) + 4294967296 * (b 6 + 256 * b 7 + 65536 * b 8 + 16777216 * b 9)
  | .readVersion => b 2 + 256 * b 3 + 65536 * b 4
  | .getSampleRate => b 2 + 256 * b 3
  | .getStatus => b 2
  | .getSlaveAddress => b 2
  | .getAmpThreshold => b 2 + 256 * b 3
  | .getDistanceLimits => (b 2 + 256 * b 3) + 65536 * (b 4 + 256 * b 5)

/-- The argument test of R96 (b): the new address of `SET_SLAVE_ADDRESS` is not 0. -/
def newAddressGiven : Instr → Prop
  | .setSlaveAddress _ new => new ≠ 0
  | .frameSetSlaveAddress new => new ≠ 0
  | .init _ | .setExclusions _ _ | .scan | .allocate _ | .getDirectory | .getExclusions | .readMeasurement _
  | .readVersion _ | .softReset _ | .getSampleRate _ | .setSampleRate _ _ | .trigger _ | .setEnable _ _ | .getStatus _
  | .getSlaveAddress _ | .restoreDefaults _ | .saveSettings _ | .getAmpThreshold _ | .setAmpThreshold _ _
  | .getDistanceLimits _ | .setDistanceLimits _ _ _ | .timestampSync _ _ | .frameReadMeasurement | .frameReadVersion
  | .frameSoftReset | .frameGetSampleRate | .frameSetSampleRate _ | .frameTrigger | .frameSetEnable _ | .frameGetStatus
  | .frameGetSlaveAddress | .frameRestoreDefaults | .frameSaveSettings | .frameGetAmpThreshold
  | .frameSetAmpThreshold _ | .frameGetDistanceLimits | .frameSetDistanceLimits _ _ | .frameTimestampSync _ | .probe => True

/-- What the environment does with a `BusRead` from `a` of `n` bytes once the events `evs` have followed the history (R65). -/
def readTurnAfter (s : State) (evs : List BusEvent) (a : Addr) (n : Nat) :
    Option (BusStatus × List Byte) × List (Completion (BusStatus × List Byte)) :=
  takeAnswer (Config.freeReadAnswer s.env.seed (s.history ++ evs) a n) s.env.reads

/-- The operations that are neither `SCAN` nor `ALLOCATE` nor a part of one of these: the operations without a bus event, and the
catalog commands, as host operations and as frames. A `SET_SLAVE_ADDRESS` frame is one unless an `ALLOCATE` writes it. -/
def outsideScans (j : Job) : Instr → Prop
  | .scan | .allocate _ | .probe => False
  | .frameSetSlaveAddress _ => j ≠ .allocate false ∧ j ≠ .allocate true
  | .init _ | .setExclusions _ _ | .getDirectory | .getExclusions | .readMeasurement _ | .readVersion _ | .softReset _
  | .getSampleRate _ | .setSampleRate _ _ | .trigger _ | .setEnable _ _ | .getStatus _ | .setSlaveAddress _ _
  | .getSlaveAddress _ | .restoreDefaults _ | .saveSettings _ | .getAmpThreshold _ | .setAmpThreshold _ _
  | .getDistanceLimits _ | .setDistanceLimits _ _ _ | .timestampSync _ _ | .frameReadMeasurement | .frameReadVersion
  | .frameSoftReset | .frameGetSampleRate | .frameSetSampleRate _ | .frameTrigger | .frameSetEnable _ | .frameGetStatus
  | .frameGetSlaveAddress | .frameRestoreDefaults | .frameSaveSettings | .frameGetAmpThreshold
  | .frameSetAmpThreshold _ | .frameGetDistanceLimits | .frameSetDistanceLimits _ _ | .frameTimestampSync _ => True

/-- A catalog command, as a host operation or as a frame outside an `ALLOCATE`. -/
def isCommand (s : State) (i : Instr) : Prop :=
  (∃ a b, hostFrame s.cfg i = some (a, b)) ∨ (∃ c a, hostRead i = some (c, a)) ∨ (∃ c, busCommand i = some c) ∨
    ((∃ b, busFrame s.cfg i = some b) ∧ outsideScans s.job i)

/-- The architectural state (R30), the configuration, the requests presented and the earlier trace are as before. -/
structure SameArchitecture (s t : State) : Prop where
  cfg : t.cfg = s.cfg
  host : t.host = s.host
  init : t.init = s.init
  dir : t.dir = s.dir
  exc : t.exc = s.exc
  past : t.past = s.past

/-- The bus events of `t` are those of `s` followed by `evs`. -/
def added (s t : State) (evs : List BusEvent) : Prop := t.trace = s.trace ++ evs

/-- The lowest address from `lo` on that is neither in `dir` nor in `exc` nor `d` (R172). -/
def LowestFree (lo : Addr) (dir exc : List Addr) (d a : Addr) : Prop :=
  lo.toNat ≤ a.toNat ∧ a ∉ dir ∧ a ∉ exc ∧ a ≠ d ∧
    ∀ b : Addr, lo.toNat ≤ b.toNat → b.toNat < a.toNat → b ∈ dir ∨ b ∈ exc ∨ b = d

/-- Every address from `lo` on is in `dir`, in `exc`, or `d` (R176 (c)). -/
def NoneFree (lo : Addr) (dir exc : List Addr) (d : Addr) : Prop :=
  ∀ b : Addr, lo.toNat ≤ b.toNat → b ∈ dir ∨ b ∈ exc ∨ b = d

/-- A response with status `OK`, no output value and a list. -/
def listResponse (l : List Addr) : Response := { status := .ok, val := 0, snap := l }

/-- A response with neither an output value nor a list. -/
def plainResponse (st : Status) : Response := { status := st, val := 0, snap := [] }

/-- A state in which an operation that is done has left a response: everything else is as before but the bus-side queues, the
trace, the transients, and the directory. -/
structure DoneWith (s t : State) (r : Response) : Prop where
  cfg : t.cfg = s.cfg
  host : t.host = s.host
  init : t.init = s.init
  exc : t.exc = s.exc
  past : t.past = s.past
  rxbuf : t.rxbuf = s.rxbuf
  idle : t.seq = .idle
  resp : t.resp = some r

/-- The bytes a bus event writes, if it is a `BusWrite`. -/
def writeLength : BusEvent → Option Nat
  | .write _ b _ => some b.length
  | _ => none

/-- A `BusRead`. -/
def isRead : BusEvent → Bool
  | .read _ _ _ _ => true
  | .reset | .write _ _ _ | .delay _ => false

/-- A `BusWrite` answered `ERR`. -/
def failedWrite : BusEvent → Bool
  | .write _ _ .err => true
  | .write _ _ .ok | .reset | .delay _ | .read _ _ _ _ => false

/-- A `BusWrite` of a length other than 1. -/
def frameWrite : BusEvent → Bool
  | .write _ b _ => b.length != 1
  | .reset | .delay _ | .read _ _ _ _ => false

/-- The statuses R244 gives an operation, as the word of which operation it is allows. -/
def allowedStatus (j : Job) (i : Instr) (st : Status) : Prop :=
  match i with
  | .init _ => st = .ok
  | .setExclusions count _ => st = .ok ∨ st = .notReady ∨ (st = .badArg ∧ 127 < count.toNat)
  | .scan | .allocate _ | .getDirectory | .getExclusions | .probe => st = .ok ∨ st = .notReady
  | .softReset _ | .setSampleRate _ _ | .trigger _ | .setEnable _ _ | .restoreDefaults _ | .saveSettings _
  | .setAmpThreshold _ _ | .setDistanceLimits _ _ _ | .timestampSync _ _ => st = .ok ∨ st = .fail ∨ st = .notReady
  | .frameSoftReset | .frameSetSampleRate _ | .frameTrigger | .frameSetEnable _ | .frameRestoreDefaults | .frameSaveSettings
  | .frameSetAmpThreshold _ | .frameSetDistanceLimits _ _ | .frameTimestampSync _ => st = .ok ∨ st = .fail ∨ st = .notReady
  | .setSlaveAddress _ new => st = .ok ∨ st = .fail ∨ st = .notReady ∨ (st = .badArg ∧ new = 0)
  | .frameSetSlaveAddress new =>
    st = .ok ∨ st = .notReady ∨ (j ≠ .allocate true ∧ j ≠ .allocate false ∧ (st = .fail ∨ (st = .badArg ∧ new = 0)))
  | .readMeasurement a | .readVersion a | .getSampleRate a | .getStatus a | .getSlaveAddress a | .getAmpThreshold a
  | .getDistanceLimits a => st = .ok ∨ st = .fail ∨ st = .notReady ∨ (st = .badArg ∧ a = 0)
  | .frameReadMeasurement | .frameReadVersion | .frameGetSampleRate | .frameGetStatus | .frameGetSlaveAddress
  | .frameGetAmpThreshold | .frameGetDistanceLimits => True

end Sys2Proof.Claims

open Sys2Proof Sys2Proof.Machine Sys2Proof.Claims

/-! Encodings. -/

/-- Words written out from the tables of 30_encoding.md (R81, R85, R88) decode to what they stand for. The model's choices in it: a
table word of 8 bits is an `OP`, so that 0x00, which the table gives to INIT and to PROBE, is INIT, and the parameter bytes that
a frame's table word does not give are zeros (log entry 8); the fields that an `OP` word does not give are zeros (log entry 7). -/
def Obligations.WordsOfTheTablesDecode : Prop :=
  decodeTableWord 8 0x00 = some (.init 0) ∧ decodeTableWord 8 0x02 = some .scan ∧
  decodeTableWord 8 0x10 = some (.readMeasurement 0) ∧ decodeTableWord 8 0x20 = some (.timestampSync 0 0) ∧
  decodeTableWord 8 0x06 = none ∧ decodeTableWord 24 0x5A0300 = some .frameReadMeasurement ∧
  decodeTableWord 24 0x5A070F = some (.frameSetDistanceLimits 0 0) ∧
  decodeBus Cfg.default [0x5A, 0x05, 0x04, 0xE8, 0x03] = .ok (.frameSetSampleRate 1000) ∧
  decodeBus Cfg.default [0x5A, 0x07, 0x10, 0x78, 0x56, 0x34, 0x12] = .ok (.frameTimestampSync 0x12345678) ∧
  decodeBus Cfg.default [0x5A, 0x04, 0x08, 0x12] = .ok (.frameSetSlaveAddress 0x12) ∧
  decodeBus Cfg.default [0x00] = .ok .probe

/-- Decoding the encoded word of a well-formed operation gives it back, every operand at every value, in every configuration that
meets R7. -/
def Obligations.DecodingUndoesEncoding : Prop :=
  ∀ (g : Cfg) (i : Instr), g.Ok → i.wellFormed = true → decode g (encode g i) = .ok i

/-- Bytes that decode on the bus side are the encoded word of what they decode to: no other bytes are a frame (R97). -/
def Obligations.EveryDecodedBusWordIsTheEncodedOne : Prop :=
  ∀ (g : Cfg) (bytes : List Byte) (i : Instr), decodeBus g bytes = .ok i → encode g i = .bus bytes

/-- R84: the frame of every command is the marker, the length of the whole frame, the identifier, and the parameter bytes. -/
def Obligations.FramesAreMarkerLengthIdentifierParameters : Prop :=
  ∀ (g : Cfg) (i : Instr),
    (∀ b, busFrame g i = some b → encode g i = .bus b ∧ b.length = (b.getD 1 0).toNat) ∧
    (∀ c, busCommand i = some c → encode g i = .bus (readFrame g c))

/-- The operation code selects the operation, and the operation takes its operands from the fields R82 lists. The model's choice in
it: a `LIST` with fewer than its 127 entries stands for itself followed by zeros (log entry 7). -/
def Obligations.OperandsComeFromTheirRequestFields : Prop :=
  ∀ r : Request,
    (r.op = 0x00 → decodeRequest r = .ok (.init r.caps)) ∧
    (r.op = 0x01 → ∃ l : List Addr, decodeRequest r = .ok (.setExclusions r.count l) ∧ l.length = min r.count.toNat 127 ∧
      ∀ k, k < l.length → l[k]? = some (r.list.getD k 0)) ∧
    (r.op = 0x02 → decodeRequest r = .ok .scan) ∧
    (r.op = 0x03 → decodeRequest r = .ok (.allocate r.addr)) ∧
    (r.op = 0x04 → decodeRequest r = .ok .getDirectory) ∧
    (r.op = 0x05 → decodeRequest r = .ok .getExclusions) ∧
    (r.op = 0x10 → decodeRequest r = .ok (.readMeasurement r.addr)) ∧
    (r.op = 0x11 → decodeRequest r = .ok (.readVersion r.addr)) ∧
    (r.op = 0x12 → decodeRequest r = .ok (.softReset r.addr)) ∧
    (r.op = 0x13 → decodeRequest r = .ok (.getSampleRate r.addr)) ∧
    (r.op = 0x14 → decodeRequest r = .ok (.setSampleRate r.addr (r.arg.extractLsb' 0 16))) ∧
    (r.op = 0x15 → decodeRequest r = .ok (.trigger r.addr)) ∧
    (r.op = 0x16 → decodeRequest r = .ok (.setEnable r.addr (r.arg.extractLsb' 0 1))) ∧
    (r.op = 0x17 → decodeRequest r = .ok (.getStatus r.addr)) ∧
    (r.op = 0x18 → decodeRequest r = .ok (.setSlaveAddress r.addr (r.arg.extractLsb' 0 7))) ∧
    (r.op = 0x19 → decodeRequest r = .ok (.getSlaveAddress r.addr)) ∧
    (r.op = 0x1A → decodeRequest r = .ok (.restoreDefaults r.addr)) ∧
    (r.op = 0x1B → decodeRequest r = .ok (.saveSettings r.addr)) ∧
    (r.op = 0x1C → decodeRequest r = .ok (.getAmpThreshold r.addr)) ∧
    (r.op = 0x1D → decodeRequest r = .ok (.setAmpThreshold r.addr (r.arg.extractLsb' 0 16))) ∧
    (r.op = 0x1E → decodeRequest r = .ok (.getDistanceLimits r.addr)) ∧
    (r.op = 0x1F → decodeRequest r = .ok (.setDistanceLimits r.addr (r.arg.extractLsb' 0 16) (r.arg.extractLsb' 16 16))) ∧
    (r.op = 0x20 → decodeRequest r = .ok (.timestampSync r.addr r.arg))

/-- R10, R86, R220: the low byte stands first, and joining undoes splitting, so that a 16-bit value read back from the bytes it was
sent as is that value. -/
def Obligations.LittleEndianJoiningUndoesSplitting : Prop :=
  (∀ (s : List Byte) (k : Nat), (u16le s k).toNat = (s.getD k 0).toNat + 256 * (s.getD (k + 1) 0).toNat) ∧
  (∀ (s : List Byte) (k : Nat), (u32le s k).toNat = (s.getD k 0).toNat + 256 * (s.getD (k + 1) 0).toNat +
    65536 * (s.getD (k + 2) 0).toNat + 16777216 * (s.getD (k + 3) 0).toNat) ∧
  (∀ (h0 h1 : Byte) (v : Half), u16le ([h0, h1] ++ le16 v) 2 = v) ∧
  (∀ (h0 h1 : Byte) (v : Word), u32le ([h0, h1] ++ le32 v) 2 = v)

/-! Steps. -/

/-- A step runs the operation that the request presented in `IDLE`, or the word in TXBUF in phase T_WRITE, decodes to. Around it,
accepting a request takes it from the host port, ends the old response's validity and begins a new trace. -/
def Obligations.StepRunsTheDecodedOperation : Prop :=
  (∀ (s : State) (r : Request) (rest : List Request) (i : Instr), s.seq = .idle → s.host = r :: rest →
    decodeRequest r = .ok i →
    step s = exec i { s with host := rest, resp := none, past := s.past ++ s.trace, trace := [] }) ∧
  (∀ (s : State) (i : Instr), s.seq = .tWrite → decodeBus s.cfg s.txbuf = .ok i → step s = exec i s)

/-- R95: a reserved operation code is refused, whether or not `INIT` is set. -/
def Obligations.ReservedCodesAreRefused : Prop :=
  ∀ (s : State) (r : Request) (rest : List Request), s.seq = .idle → s.host = r :: rest →
    (0x06 ≤ r.op.toNat ∧ r.op.toNat ≤ 0x0F) ∨ (0x21 ≤ r.op.toNat ∧ r.op.toNat ≤ 0x3F) →
    step s = .next { s with
      host := rest
      resp := some (plainResponse .badArg)
      job := .none
      past := s.past ++ s.trace
      trace := [] }

/-- R273: with no request presented TXC waits in `IDLE`, after reset and ever after. -/
def Obligations.IdleMachineWaitsForARequest : Prop :=
  (∀ s : State, s.seq = .idle → s.host = [] → step s = .next s) ∧ step State.reset = .next State.reset

/-- The state after reset: `INIT`, both lists and their counts and `SEQ` as R271 gives them, and no bus event (R272). The model's
choice in it: no response is valid, where R271 and R30 call the response unspecified (log entry 23). -/
def Obligations.ResetLeavesTheMachineUninitialised : Prop :=
  State.reset.init = false ∧ State.reset.dir = [] ∧ State.reset.dirN = 0 ∧ State.reset.exc = [] ∧ State.reset.excN = 0 ∧
    State.reset.seq = .idle ∧ State.reset.resp = none ∧ State.reset.trace = [] ∧ State.reset.past = []

/-- R42: while an operation is in progress no request is accepted. The requests presented stay presented, and the trace goes on. -/
def Obligations.BusyMachineAcceptsNoRequest : Prop :=
  ∀ (s t : State), s.seq ≠ .idle → step s = .next t →
    t.host = s.host ∧ t.past = s.past ∧ ∃ evs, added s t evs

/-- R20, R28: a response stays as it is until the next request is accepted. -/
def Obligations.ResponseStaysUntilTheNextRequest : Prop :=
  ∀ (s t : State) (r : Response), s.Inv → s.resp = some r → s.host = [] → step s = .next t → t.resp = some r

/-! The invariant. -/

/-- The invariant holds after reset. -/
def Obligations.InvariantHoldsAfterReset : Prop := State.reset.Inv

/-- R24: every step keeps the invariant, with a directory that is strictly ascending, without duplicates and in 1 to 127. -/
def Obligations.EveryStepKeepsTheInvariant : Prop :=
  ∀ (s t : State), s.Inv → step s = .next t → t.Inv

/-- R13: from a state of a run no step stops: everything is a returned status. -/
def Obligations.NoStepOfARunStops : Prop := ∀ s : State, s.Inv → ∃ t, step s = .next t

/-! What writes the architectural state. -/

/-- R22: no step clears `INIT`, and only the operation `INIT` with all four ports attached sets it. -/
def Obligations.OnlyACompleteInitSetsTheFlag : Prop :=
  ∀ (s t : State), step s = .next t →
    (s.init = true → t.init = true) ∧
    (s.init = false → t.init = true → s.seq = .idle ∧ ∃ r rest, s.host = r :: rest ∧ r.op = 0 ∧ r.caps = 15)

/-- R27: only `SET_EXCLUSIONS` writes the exclusion list. -/
def Obligations.OnlySetExclusionsWritesTheExclusionList : Prop :=
  ∀ (s t : State), step s = .next t → t.exc ≠ s.exc →
    s.seq = .idle ∧ s.init = true ∧ ∃ r rest, s.host = r :: rest ∧ r.op = 1 ∧ r.count.toNat ≤ 127

/-- R23: only a scan body writes the directory. A step that begins an operation changes the directory only if the operation is
`SCAN` or `ALLOCATE`, and a step that goes on with one only if it is one of these. -/
def Obligations.OnlyScansWriteTheDirectory : Prop :=
  (∀ (s t : State), s.seq = .idle → step s = .next t → t.dir ≠ s.dir →
    s.init = true ∧ ∃ r rest, s.host = r :: rest ∧ (r.op = 2 ∨ r.op = 3)) ∧
  (∀ (s t : State), s.Inv → s.seq ≠ .idle → step s = .next t → t.dir ≠ s.dir →
    s.job = .scan ∨ ∃ b, s.job = .allocate b)

/-- R7, R44: no step writes the configuration. -/
def Obligations.NoStepWritesTheConfiguration : Prop := ∀ (s t : State), step s = .next t → t.cfg = s.cfg

/-- R55, R251: while `INIT` is 0 no step of a run puts an event on the bus. -/
def Obligations.NoBusEventBeforeInit : Prop :=
  ∀ (s t : State), s.Inv → s.init = false → step s = .next t → t.history = s.history

/-! The operations without a bus event. -/

/-- R130: `INIT(caps)` sets the flag exactly when all four bits are set, clears it never, and always answers `OK`. -/
def Obligations.InitNeedsAllFourPorts : Prop :=
  ∀ (caps : BitVec 4) (s : State),
    exec (.init caps) s = .next { s with
      init := if caps = 0b1111 then true else s.init
      seq := .idle
      job := .none
      resp := some (plainResponse .ok) }

/-- R133: `SET_EXCLUSIONS` replaces the list whole by the `COUNT` entries, as given; without `INIT`, or with a `COUNT` above 127, it
writes nothing. -/
def Obligations.SetExclusionsReplacesTheListWhole : Prop :=
  ∀ (count : Byte) (list : List Addr) (s : State), (Instr.setExclusions count list).wellFormed = true →
    (s.init = true → count.toNat ≤ 127 → exec (.setExclusions count list) s = .next { s with
      exc := list
      seq := .idle
      job := .none
      resp := some (plainResponse .ok) }) ∧
    (s.init = true → 127 < count.toNat → exec (.setExclusions count list) s = .next { s with
      seq := .idle
      job := .none
      resp := some (plainResponse .badArg) }) ∧
    (s.init = false → exec (.setExclusions count list) s = .next { s with
      seq := .idle
      job := .none
      resp := some (plainResponse .notReady) })

/-- R135: `GET_DIRECTORY` answers a copy of the directory and writes nothing. -/
def Obligations.GetDirectoryAnswersACopy : Prop :=
  ∀ s : State, exec .getDirectory s = .next { s with
    seq := .idle
    job := .none
    resp := some (if s.init = true then listResponse s.dir else plainResponse .notReady) }

/-- R136: `GET_EXCLUSIONS` answers a copy of the exclusion list in stored order and writes nothing. -/
def Obligations.GetExclusionsAnswersACopy : Prop :=
  ∀ s : State, exec .getExclusions s = .next { s with
    seq := .idle
    job := .none
    resp := some (if s.init = true then listResponse s.exc else plainResponse .notReady) }

/-! Tests that come before an operation. -/

/-- Without `INIT` every operation other than `INIT` answers `NOT_READY`, whatever its operands are, with no state change and no bus
event (R251). The bus-side words do the same, by the test that R113 keeps in the primitive; no run comes to one of them without
`INIT`, and that they run there is the model's choice (log entry 9). -/
def Obligations.UninitialisedOperationsAnswerNotReady : Prop :=
  ∀ (i : Instr) (s : State), (∀ caps, i ≠ .init caps) → s.init = false →
    ∃ t, exec i s = .next t ∧ SameArchitecture s t ∧ t.trace = s.trace ∧ t.env = s.env ∧ t.seq = .idle ∧
      t.resp = some (plainResponse .notReady)

/-- R96: the illegal operands, each refused with `BAD_ARG` and the empty trace. -/
def Obligations.IllegalOperandsAreRefused : Prop :=
  ∀ (i : Instr) (s : State), s.init = true →
    ((∃ c, hostRead i = some (c, 0)) ∨ (∃ a, i = .setSlaveAddress a 0) ∨
      (∃ count list, i = .setExclusions count list ∧ 127 < count.toNat)) →
    ∃ t, exec i s = .next t ∧ SameArchitecture s t ∧ t.trace = s.trace ∧ t.env = s.env ∧ t.seq = .idle ∧
      t.resp = some (plainResponse .badArg)

/-- The model's choice (log entry 9): a frame as a bus-side word whose command R96 refuses is refused as the command is. No run
comes to such a frame. -/
def Obligations.FramesWithIllegalOperandsAreRefused : Prop :=
  ∀ (i : Instr) (s : State), s.init = true →
    ((∃ c, busCommand i = some c ∧ s.addr = 0) ∨ (i = .frameSetSlaveAddress 0 ∧ outsideScans s.job i)) →
    ∃ t, exec i s = .next t ∧ SameArchitecture s t ∧ t.trace = s.trace ∧ t.env = s.env ∧ t.seq = .idle ∧
      t.resp = some (plainResponse .badArg)

/-! The catalog. -/

/-- R192: the tests and the effect of a class W command. Without `INIT` it answers `NOT_READY`, with an illegal operand `BAD_ARG`,
both without a bus event. Otherwise it writes its one frame to its target and answers the status of that write. Nothing else
changes but the trace, the answers used, and transients. The model's choice in it: what TXBUF and the latched target hold afterwards
(log entries 11 and 25). -/
def Obligations.WriteCommandsSendOneFrame : Prop :=
  ∀ (i : Instr) (s : State) (a : Addr) (bytes : List Byte), hostFrame s.cfg i = some (a, bytes) →
    (s.init = false → exec i s = .next { s with
      addr := a
      seq := .idle
      job := .none
      resp := some (plainResponse .notReady) }) ∧
    (s.init = true → ¬ newAddressGiven i → exec i s = .next { s with
      addr := a
      seq := .idle
      job := .none
      resp := some (plainResponse .badArg) }) ∧
    (∀ (st : BusStatus) (q : List (Completion BusStatus)), s.init = true → newAddressGiven i →
      s.writeTurn a bytes = (some st, q) → exec i s = .next { s with
        addr := a
        txbuf := bytes
        seq := .idle
        job := .none
        env := { s.env with writes := q }
        trace := s.trace ++ [.write a bytes st]
        resp := some (plainResponse (if st = .ok then .ok else .fail)) })

/-- R194: the tests and the effect of a class R command. Without `INIT` it answers `NOT_READY`, with the target 0 `BAD_ARG`, both
without a bus event; with its write answered `ERR` it answers `FAIL`, that write being its whole trace. With the write answered
`OK` it waits its delay, reads its response, and answers `OK` with the value of the payload exactly when the read was answered
`OK` with the full length and passes the configuration's check, else `FAIL` with no value. The model's choice in it: what TXBUF,
RXBUF and the latched target hold afterwards (log entries 11 and 25). -/
def Obligations.ReadCommandsAnswerTheirPayload : Prop :=
  ∀ (i : Instr) (s : State) (c : RCmd) (a : Addr), hostRead i = some (c, a) →
    (s.init = false → exec i s = .next { s with
      addr := a
      seq := .idle
      job := .none
      resp := some (plainResponse .notReady) }) ∧
    (s.init = true → a = 0 → exec i s = .next { s with
      addr := a
      seq := .idle
      job := .none
      resp := some (plainResponse .badArg) }) ∧
    (∀ q : List (Completion BusStatus), s.init = true → a ≠ 0 → s.writeTurn a (readFrame s.cfg c) = (some .err, q) →
      exec i s = .next { s with
        addr := a
        txbuf := readFrame s.cfg c
        seq := .idle
        job := .none
        env := { s.env with writes := q }
        trace := s.trace ++ [.write a (readFrame s.cfg c) .err]
        resp := some (plainResponse .fail) }) ∧
    (∀ (st : BusStatus) (r : List Byte) (q : List (Completion BusStatus)) (q' : List (Completion Unit))
      (q'' : List (Completion (BusStatus × List Byte))), s.init = true → a ≠ 0 →
      s.writeTurn a (readFrame s.cfg c) = (some .ok, q) →
      takeAnswer () s.env.delays = (some (), q') →
      readTurnAfter s [.write a (readFrame s.cfg c) .ok, .delay (s.cfg.delayMs.get c)] a (s.cfg.rlen c) =
        (some (st, r), q'') →
      r.length ≤ s.cfg.rlen c →
      exec i s = .next { s with
        addr := a
        txbuf := readFrame s.cfg c
        rxbuf := r
        seq := .idle
        job := .none
        env := { s.env with writes := q, delays := q', reads := q'' }
        trace := s.trace ++
          [.write a (readFrame s.cfg c) .ok, .delay (s.cfg.delayMs.get c), .read a (s.cfg.rlen c) st r]
        resp := some (
          if st = .ok ∧ r.length = s.cfg.rlen c ∧ s.cfg.respCheck.accepts c r = true then
            { status := .ok, val := BitVec.ofNat 64 (readVal c r), snap := [] }
          else plainResponse .fail) })

/-- The frames of class W commands as bus-side words: the frame is written to the target in `ADDR` and the status of the write is
the answer (R192). A `SET_SLAVE_ADDRESS` frame is one of these outside an `ALLOCATE`. The model's choice in it: what TXBUF holds
afterwards (log entry 25). -/
def Obligations.WriteFramesSendThemselves : Prop :=
  ∀ (i : Instr) (s : State) (bytes : List Byte) (st : BusStatus) (q : List (Completion BusStatus)),
    busFrame s.cfg i = some bytes → outsideScans s.job i → newAddressGiven i → s.init = true →
    s.writeTurn s.addr bytes = (some st, q) →
    exec i s = .next { s with
      txbuf := bytes
      seq := .idle
      job := .none
      env := { s.env with writes := q }
      trace := s.trace ++ [.write s.addr bytes st]
      resp := some (plainResponse (if st = .ok then .ok else .fail)) }

/-- The frames of class R commands as bus-side words: the rest of the command with the target in `ADDR` (R194). With the write
answered `ERR` the answer is `FAIL`, that write being the whole trace; with the write answered `OK` the delay, the read and the
decode follow. The model's choice in it: what TXBUF and RXBUF hold afterwards (log entry 25). -/
def Obligations.ReadFramesAnswerTheirPayload : Prop :=
  ∀ (i : Instr) (s : State) (c : RCmd), busCommand i = some c → s.init = true → s.addr ≠ 0 →
    (∀ q : List (Completion BusStatus), s.writeTurn s.addr (readFrame s.cfg c) = (some .err, q) →
      exec i s = .next { s with
        txbuf := readFrame s.cfg c
        seq := .idle
        job := .none
        env := { s.env with writes := q }
        trace := s.trace ++ [.write s.addr (readFrame s.cfg c) .err]
        resp := some (plainResponse .fail) }) ∧
    (∀ (st : BusStatus) (r : List Byte) (q : List (Completion BusStatus)) (q' : List (Completion Unit))
      (q'' : List (Completion (BusStatus × List Byte))),
      s.writeTurn s.addr (readFrame s.cfg c) = (some .ok, q) →
      takeAnswer () s.env.delays = (some (), q') →
      readTurnAfter s [.write s.addr (readFrame s.cfg c) .ok, .delay (s.cfg.delayMs.get c)] s.addr (s.cfg.rlen c) =
        (some (st, r), q'') →
      r.length ≤ s.cfg.rlen c →
      exec i s = .next { s with
        txbuf := readFrame s.cfg c
        rxbuf := r
        seq := .idle
        job := .none
        env := { s.env with writes := q, delays := q', reads := q'' }
        trace := s.trace ++
          [.write s.addr (readFrame s.cfg c) .ok, .delay (s.cfg.delayMs.get c), .read s.addr (s.cfg.rlen c) st r]
        resp := some (
          if st = .ok ∧ r.length = s.cfg.rlen c ∧ s.cfg.respCheck.accepts c r = true then
            { status := .ok, val := BitVec.ofNat 64 (readVal c r), snap := [] }
          else plainResponse .fail) })

/-- R221: with `INIT` set, legal operands and a write answered `ERR`, each of the 17 commands answers `FAIL`, its trace being that
one write: no delay and no read. -/
def Obligations.FailedWriteFailsEveryCommand : Prop :=
  ∀ (i : Instr) (s : State) (a : Addr) (bytes : List Byte) (q : List (Completion BusStatus)),
    (hostFrame s.cfg i = some (a, bytes) ∧ newAddressGiven i) ∨
      (a ≠ 0 ∧ ∃ c, hostRead i = some (c, a) ∧ bytes = readFrame s.cfg c) →
    s.init = true → s.writeTurn a bytes = (some .err, q) →
    ∃ t, exec i s = .next t ∧ SameArchitecture s t ∧ added s t [.write a bytes .err] ∧ t.seq = .idle ∧
      t.resp = some (plainResponse .fail)

/-- R196: no catalog command writes architectural state, issues a reset, or retries a write or a read, whatever the environment
does. -/
def Obligations.CommandsWriteNoArchitecturalState : Prop :=
  ∀ (i : Instr) (s t : State), isCommand s i → exec i s = .next t →
    SameArchitecture s t ∧ ∃ evs, added s t evs ∧ .reset ∉ evs ∧
      (evs.filter fun e => (writeLength e).isSome).length ≤ 1 ∧ (evs.filter isRead).length ≤ 1

/-- R112, R72 (a), (b): the only traces of a class R host operation are none, a failed write alone, and write, delay, read; the only
traces of a class W one are none and the write. While a call is outstanding the trace is the part before it. -/
def Obligations.CommandTracesHaveTheirShapes : Prop :=
  (∀ (i : Instr) (s t : State) (a : Addr) (bytes : List Byte), hostFrame s.cfg i = some (a, bytes) → exec i s = .next t →
    added s t [] ∨ ∃ st, added s t [.write a bytes st]) ∧
  (∀ (i : Instr) (s t : State) (c : RCmd) (a : Addr), hostRead i = some (c, a) → exec i s = .next t →
    let w := readFrame s.cfg c
    let d := BusEvent.delay (s.cfg.delayMs.get c)
    (t.seq = .idle → added s t [] ∨ added s t [.write a w .err] ∨
      ∃ st r, r.length ≤ s.cfg.rlen c ∧ added s t [.write a w .ok, d, .read a (s.cfg.rlen c) st r]) ∧
    (t.seq ≠ .idle → added s t [] ∨ added s t [.write a w .ok] ∨ added s t [.write a w .ok, d]))

/-- R72 (e): no operation other than `SCAN` and `ALLOCATE` has a `Reset` in its trace, whatever the environment does. -/
def Obligations.NoResetOutsideScanAndAllocate : Prop :=
  ∀ (i : Instr) (s t : State), outsideScans s.job i → exec i s = .next t → ∃ evs, added s t evs ∧ .reset ∉ evs

/-! Responses. -/

/-- R83, R195: a response that is not `OK` has no output value and no list, whatever the operation and the environment. -/
def Obligations.UnsuccessfulResponsesAreEmpty : Prop :=
  ∀ (i : Instr) (s t : State) (r : Response), s.resp = none → exec i s = .next t → t.resp = some r → r.status ≠ .ok →
    r.val = 0 ∧ r.snap = []

/-- R244: which operation can answer which status. -/
def Obligations.StatusesAreThoseOfTheOperation : Prop :=
  ∀ (i : Instr) (s t : State) (r : Response), s.resp = none → exec i s = .next t → t.resp = some r →
    allowedStatus s.job i r.status ∧ (r.status = .notReady ↔ s.init = false ∧ ∀ caps, i ≠ .init caps)

/-! The scanner. -/

/-- R150, R151: without `INIT` a `SCAN` answers `NOT_READY` and does nothing else. When the environment completes every call, it
answers the list of the addresses that are not excluded and answered their probe, that list is the directory, and the trace is one
reset and then each probe, in ascending order, a failed one being followed by a reset. -/
def Obligations.ScanListsTheAddressesThatAnswer : Prop :=
  ∀ s : State,
    (s.init = false → exec .scan s = .next { s with seq := .idle, job := .none, resp := some (plainResponse .notReady) }) ∧
    (s.init = true → s.env.Completes →
      ∃ (f : Addr → BusStatus) (t : State), exec .scan s = .next t ∧
        t.dir = scanDirectory s.exc f ∧ t.trace = s.trace ++ scanEvents s.cfg.probeByte s.exc f ∧
        DoneWith s t (listResponse (scanDirectory s.exc f)) ∧ t.addr = s.addr)

/-- R65, R151: the answers of the bus-write port's queue are the answers of the probes, in ascending order of address. -/
def Obligations.ScanTakesItsAnswersInOrder : Prop :=
  ∀ (s : State) (f : Addr → BusStatus) (rest : List (Completion BusStatus)), s.init = true → s.env.Completes →
    s.env.writes = ((probed s.exc).map fun a => .done (f a)) ++ rest →
    ∃ t, exec .scan s = .next t ∧ t.dir = scanDirectory s.exc f ∧ t.env.writes = rest ∧
      t.trace = s.trace ++ scanEvents s.cfg.probeByte s.exc f ∧ t.resp = some (listResponse (scanDirectory s.exc f))

/-- R154 (f): two scans whose probes get the same answers give the same directory. -/
def Obligations.ScanningAlikeTwiceGivesOneDirectory : Prop :=
  ∀ (s : State) (f : Addr → BusStatus) (rest : List (Completion BusStatus)), s.init = true → s.env.Completes →
    s.env.writes = ((probed s.exc).map fun a => .done (f a)) ++ (((probed s.exc).map fun a => .done (f a)) ++ rest) →
    ∃ t u, exec .scan s = .next t ∧ exec .scan t = .next u ∧ u.dir = t.dir ∧ u.resp = t.resp

/-- R154 (a), (b): whatever the environment does, a scan that is done leaves a directory that is strictly ascending, in 1 to 127,
and without excluded addresses. -/
def Obligations.ScannedDirectoryIsAscendingAndAllowed : Prop :=
  ∀ (s t : State), s.init = true → exec .scan s = .next t → t.seq = .idle →
    DirectoryOk t.dir ∧ (∀ a ∈ t.dir, a ∉ s.exc) ∧ t.resp = some (listResponse t.dir)

/-- R154 (b), (d), R62: whatever the environment does, every write of a `SCAN` is the one probe byte to an address that is neither
excluded nor 0. -/
def Obligations.ScanTouchesNoExcludedAddress : Prop :=
  ∀ (s t : State), exec .scan s = .next t →
    ∃ evs, added s t evs ∧ ∀ e ∈ evs, e = .reset ∨ ∃ a st, e = .write a [s.cfg.probeByte] st ∧ a ≠ 0 ∧ a ∉ s.exc

/-- R72 (d): with E excluded addresses in 1 to 127 and F probes answered `ERR`, a `SCAN` that is done has 127 - E writes, 1 + F
resets, and nothing else in its trace. -/
def Obligations.ScanEventCounts : Prop :=
  ∀ (s t : State), s.init = true → exec .scan s = .next t → t.seq = .idle →
    ∃ evs, added s t evs ∧
      (evs.filter fun e => (writeLength e).isSome).length + ((candidates 1).filter fun a => member a s.exc).length = 127 ∧
      (evs.filter fun e => e == .reset).length =
        1 + (evs.filter failedWrite).length ∧
      (evs.filter fun e => (writeLength e).isSome || e == .reset).length = evs.length

/-- R26: wherever a scan body waits for the environment, the directory is the old one: at the first wait of a `SCAN`, and of the
first scan body of an `ALLOCATE`, and at every later wait, up to the replacement by `NEW`. A step that stays in the operation
leaves the directory as it is, but for the one with which an `ALLOCATE` goes on from its first scan body to its reassignment.
When a `SCAN`, or the second scan body of an `ALLOCATE`, is done, the directory is the list that was built; that this list still
stands in `NEW` then is the model's choice (log entry 25). -/
def Obligations.DirectoryIsReplacedAtOnce : Prop :=
  (∀ (s t : State), exec .scan s = .next t → t.seq ≠ .idle → t.dir = s.dir) ∧
  (∀ (d : Addr) (s t : State), exec (.allocate d) s = .next t → t.seq ≠ .idle → t.job = .allocate false → t.dir = s.dir) ∧
  (∀ (s t : State), s.Inv → s.seq ≠ .idle → step s = .next t → t.seq ≠ .idle →
    (s.job = .allocate false → t.job = .allocate false) → t.dir = s.dir) ∧
  (∀ (s t : State), s.init = true → exec .scan s = .next t → t.seq = .idle → t.dir = t.new) ∧
  (∀ (s t : State), s.Inv → s.seq ≠ .idle → step s = .next t → t.seq = .idle → s.job = .scan ∨ s.job = .allocate true →
    t.dir = t.new)

/-- R154 (e): the old directory has no influence on the new one, nor on the trace and the response. -/
def Obligations.OldDirectoryHasNoInfluence : Prop :=
  ∀ (s t : State) (d : List Addr), s.init = true → exec .scan s = .next t → t.seq = .idle →
    exec .scan { s with dir := d } = .next t

/-- The probe as a bus-side word, in a scan body (R88, R151): when the environment completes every call, the candidate at `CAND` is
probed first, the rest of the candidates follow in ascending order, and the answer is `OK` with the directory. Where it is not the
first scan body of an `ALLOCATE` whose default address it finds, nothing else happens. -/
def Obligations.ProbeGoesOnWithItsScan : Prop :=
  ∀ s : State, s.init = true → s.env.Completes → s.ScanInProgress → s.cand.toNat ≤ 127 → s.candAddr ∉ s.exc →
    ∃ (f : Addr → BusStatus) (t : State) (evs : List BusEvent), exec .probe s = .next t ∧
      DoneWith s t (listResponse t.dir) ∧ t.addr = s.addr ∧
      let d := s.new ++ ((candidates s.candAddr).filter fun a => !member a s.exc && f a == .ok)
      t.trace = s.trace ++ (((candidates s.candAddr).filter fun a => !member a s.exc).flatMap fun a =>
        probeEvents s.cfg.probeByte a (f a)) ++ evs ∧
      (s.job ≠ .allocate false ∨ s.addr ∉ d → t.dir = d ∧ evs = [])

/-! The allocator. -/

/-- R172: the free-address search gives the lowest address, from `ALLOC_LO` on, that is not in the directory, not excluded and not
the default address, and gives none only if there is none. -/
def Obligations.FreeAddressIsTheLowestOne : Prop :=
  ∀ s : State,
    (∀ a, freeAddress s = some a ↔ LowestFree s.cfg.allocLo s.dir s.exc s.addr a) ∧
    (freeAddress s = none ↔ NoneFree s.cfg.allocLo s.dir s.exc s.addr)

/-- R170: without `INIT` an `ALLOCATE` answers `NOT_READY` and does nothing else. When the environment completes every call, it
scans; if d is then in the directory and an address is free, it writes one frame to d that moves it to the lowest free address,
whatever that write is answered, and scans again; the answer is `OK` with the directory of the last scan. That the latched target
still holds d then is the model's choice (log entries 11 and 25). -/
def Obligations.AllocateMovesTheDefaultDevice : Prop :=
  ∀ (d : Addr) (s : State),
    (s.init = false →
      exec (.allocate d) s = .next { s with seq := .idle, job := .none, resp := some (plainResponse .notReady) }) ∧
    (s.init = true → s.env.Completes →
      ∃ (f : Addr → BusStatus) (t : State), exec (.allocate d) s = .next t ∧ DoneWith s t (listResponse t.dir) ∧
        t.addr = d ∧
        (d ∉ scanDirectory s.exc f ∨ NoneFree s.cfg.allocLo (scanDirectory s.exc f) s.exc d →
          t.dir = scanDirectory s.exc f ∧ t.trace = s.trace ++ scanEvents s.cfg.probeByte s.exc f) ∧
        (∀ a, d ∈ scanDirectory s.exc f → LowestFree s.cfg.allocLo (scanDirectory s.exc f) s.exc d a →
          ∃ (g : Addr → BusStatus) (st : BusStatus), t.dir = scanDirectory s.exc g ∧
            t.trace = s.trace ++ scanEvents s.cfg.probeByte s.exc f ++
              [.write d [0x5A, 4, s.cfg.cmdId.setSlaveAddress, BitVec.ofNat 8 a.toNat] st] ++
              scanEvents s.cfg.probeByte s.exc g))

/-- R171, C8: an `ALLOCATE` of a default address that the scan does not find does what a `SCAN` does, and leaves the same state
but for the latched target. What the transients and that target hold afterwards is the model's choice (log entries 11 and 25). -/
def Obligations.AllocateOfAnAbsentAddressIsAScan : Prop :=
  ∀ (d : Addr) (s t : State), exec .scan s = .next t → t.seq = .idle → d ∉ t.dir → s.init = true →
    exec (.allocate d) s = .next { t with addr := d }

/-- R174: whatever the environment does, an `ALLOCATE` writes at most one sequence of a length other than 1, and it writes it to the
default address. -/
def Obligations.AllocateWritesAtMostOneFrame : Prop :=
  ∀ (d : Addr) (s t : State), exec (.allocate d) s = .next t →
    ∃ evs, added s t evs ∧
      (evs.filter frameWrite).length ≤ 1 ∧
      ∀ a b st, .write a b st ∈ evs → b = [s.cfg.probeByte] ∨
        (a = d ∧ ∃ new, b = [0x5A, 4, s.cfg.cmdId.setSlaveAddress, BitVec.ofNat 8 new])

/-- R173, R176 (f): the reassignment frame as a bus-side word, in an `ALLOCATE`: it is written to the target in `ADDR`, whatever it
is answered the bus is scanned again, and the answer is `OK` with the new directory. -/
def Obligations.ReassignmentFrameIsFollowedByAScan : Prop :=
  ∀ (new : Addr) (b : Bool) (s : State), s.init = true → s.env.Completes → s.job = .allocate b →
    ∃ (f : Addr → BusStatus) (st : BusStatus) (t : State), exec (.frameSetSlaveAddress new) s = .next t ∧
      t.dir = scanDirectory s.exc f ∧
      t.trace = s.trace ++ [.write s.addr [0x5A, 4, s.cfg.cmdId.setSlaveAddress, BitVec.ofNat 8 new.toNat] st] ++
        scanEvents s.cfg.probeByte s.exc f ∧
      DoneWith s t (listResponse t.dir) ∧ t.addr = s.addr

/-- What `SCAN`, `ALLOCATE` and the probe leave unchanged, whatever the environment does: `INIT`, the exclusion list, the
configuration, the requests presented, RXBUF, and, but for `ALLOCATE`, the target address; of the bus-side ports they use the
write and the reset port only. -/
def Obligations.ScansLeaveTheRestUnchanged : Prop :=
  ∀ (i : Instr) (s t : State), (i = .scan ∨ i = .probe ∨ ∃ d, i = .allocate d) → exec i s = .next t →
    t.init = s.init ∧ t.exc = s.exc ∧ t.cfg = s.cfg ∧ t.host = s.host ∧ t.past = s.past ∧ t.rxbuf = s.rxbuf ∧
      t.env.reads = s.env.reads ∧ t.env.delays = s.env.delays ∧ t.env.seed = s.env.seed ∧
      ((∀ d, i ≠ .allocate d) → t.addr = s.addr)

/-! Calls that do not complete at once. -/

/-- R66, R289: while the outstanding call never completes, TXC stays in its phase: the step changes nothing. -/
def Obligations.CallThatNeverCompletesHoldsThePhase : Prop :=
  ∀ s : State, s.Inv → s.HangsForEver → step s = .next s

/-- R35, R67: an environment that makes calls wait changes nothing but when an operation is done. Taken up step after step, an
operation comes to the same end as with the same answers given at once. -/
def Obligations.WaitingChangesNothingButTime : Prop :=
  ∀ (i : Instr) (s : State), s.cfg.Ok → EventuallyCompletes s.env → (∀ r, encode s.cfg i ≠ .bus r) →
    ∃ (n : Nat) (t : State), exec i s = .next t ∧ (goOn n t).seq = .idle ∧ exec i (prompt s) = .next (prompt (goOn n t))
end

