-- ==== Sys2Proof/Laws/State.lean ====
section
/-! SUPPORT. The small lemmas of the state: what each named update of it does to each field. -/

namespace Sys2Proof.Machine

@[simp] theorem State.record_cfg (s : State) (e : BusEvent) : (s.record e).cfg = s.cfg := rfl
@[simp] theorem State.record_host (s : State) (e : BusEvent) : (s.record e).host = s.host := rfl
@[simp] theorem State.record_resp (s : State) (e : BusEvent) : (s.record e).resp = s.resp := rfl
@[simp] theorem State.record_init (s : State) (e : BusEvent) : (s.record e).init = s.init := rfl
@[simp] theorem State.record_dir (s : State) (e : BusEvent) : (s.record e).dir = s.dir := rfl
@[simp] theorem State.record_exc (s : State) (e : BusEvent) : (s.record e).exc = s.exc := rfl
@[simp] theorem State.record_seq (s : State) (e : BusEvent) : (s.record e).seq = s.seq := rfl
@[simp] theorem State.record_cand (s : State) (e : BusEvent) : (s.record e).cand = s.cand := rfl
@[simp] theorem State.record_new (s : State) (e : BusEvent) : (s.record e).new = s.new := rfl
@[simp] theorem State.record_txbuf (s : State) (e : BusEvent) : (s.record e).txbuf = s.txbuf := rfl
@[simp] theorem State.record_rxbuf (s : State) (e : BusEvent) : (s.record e).rxbuf = s.rxbuf := rfl
@[simp] theorem State.record_job (s : State) (e : BusEvent) : (s.record e).job = s.job := rfl
@[simp] theorem State.record_addr (s : State) (e : BusEvent) : (s.record e).addr = s.addr := rfl
@[simp] theorem State.record_env (s : State) (e : BusEvent) : (s.record e).env = s.env := rfl
@[simp] theorem State.record_trace (s : State) (e : BusEvent) : (s.record e).trace = s.trace ++ [e] := rfl
@[simp] theorem State.record_past (s : State) (e : BusEvent) : (s.record e).past = s.past := rfl

@[simp] theorem State.accept_cfg (s : State) (rest : List Request) : (s.accept rest).cfg = s.cfg := rfl
@[simp] theorem State.accept_host (s : State) (rest : List Request) : (s.accept rest).host = rest := rfl
@[simp] theorem State.accept_resp (s : State) (rest : List Request) : (s.accept rest).resp = Option.none := rfl
@[simp] theorem State.accept_init (s : State) (rest : List Request) : (s.accept rest).init = s.init := rfl
@[simp] theorem State.accept_dir (s : State) (rest : List Request) : (s.accept rest).dir = s.dir := rfl
@[simp] theorem State.accept_exc (s : State) (rest : List Request) : (s.accept rest).exc = s.exc := rfl
@[simp] theorem State.accept_seq (s : State) (rest : List Request) : (s.accept rest).seq = s.seq := rfl
@[simp] theorem State.accept_cand (s : State) (rest : List Request) : (s.accept rest).cand = s.cand := rfl
@[simp] theorem State.accept_new (s : State) (rest : List Request) : (s.accept rest).new = s.new := rfl
@[simp] theorem State.accept_txbuf (s : State) (rest : List Request) : (s.accept rest).txbuf = s.txbuf := rfl
@[simp] theorem State.accept_rxbuf (s : State) (rest : List Request) : (s.accept rest).rxbuf = s.rxbuf := rfl
@[simp] theorem State.accept_job (s : State) (rest : List Request) : (s.accept rest).job = s.job := rfl
@[simp] theorem State.accept_addr (s : State) (rest : List Request) : (s.accept rest).addr = s.addr := rfl
@[simp] theorem State.accept_env (s : State) (rest : List Request) : (s.accept rest).env = s.env := rfl
@[simp] theorem State.accept_trace (s : State) (rest : List Request) : (s.accept rest).trace = [] := rfl
@[simp] theorem State.accept_past (s : State) (rest : List Request) : (s.accept rest).past = s.past ++ s.trace := rfl

@[simp] theorem State.enterWrite_cfg (s : State) (req : List Byte) : (s.enterWrite req).cfg = s.cfg := rfl
@[simp] theorem State.enterWrite_host (s : State) (req : List Byte) : (s.enterWrite req).host = s.host := rfl
@[simp] theorem State.enterWrite_resp (s : State) (req : List Byte) : (s.enterWrite req).resp = s.resp := rfl
@[simp] theorem State.enterWrite_init (s : State) (req : List Byte) : (s.enterWrite req).init = s.init := rfl
@[simp] theorem State.enterWrite_dir (s : State) (req : List Byte) : (s.enterWrite req).dir = s.dir := rfl
@[simp] theorem State.enterWrite_exc (s : State) (req : List Byte) : (s.enterWrite req).exc = s.exc := rfl
@[simp] theorem State.enterWrite_seq (s : State) (req : List Byte) : (s.enterWrite req).seq = .tWrite := rfl
@[simp] theorem State.enterWrite_cand (s : State) (req : List Byte) : (s.enterWrite req).cand = s.cand := rfl
@[simp] theorem State.enterWrite_new (s : State) (req : List Byte) : (s.enterWrite req).new = s.new := rfl
@[simp] theorem State.enterWrite_txbuf (s : State) (req : List Byte) : (s.enterWrite req).txbuf = req := rfl
@[simp] theorem State.enterWrite_rxbuf (s : State) (req : List Byte) : (s.enterWrite req).rxbuf = s.rxbuf := rfl
@[simp] theorem State.enterWrite_job (s : State) (req : List Byte) : (s.enterWrite req).job = s.job := rfl
@[simp] theorem State.enterWrite_addr (s : State) (req : List Byte) : (s.enterWrite req).addr = s.addr := rfl
@[simp] theorem State.enterWrite_env (s : State) (req : List Byte) : (s.enterWrite req).env = s.env := rfl
@[simp] theorem State.enterWrite_trace (s : State) (req : List Byte) : (s.enterWrite req).trace = s.trace := rfl
@[simp] theorem State.enterWrite_past (s : State) (req : List Byte) : (s.enterWrite req).past = s.past := rfl

@[simp] theorem State.nextCand_cfg (s : State) : (s.nextCand).cfg = s.cfg := rfl
@[simp] theorem State.nextCand_host (s : State) : (s.nextCand).host = s.host := rfl
@[simp] theorem State.nextCand_resp (s : State) : (s.nextCand).resp = s.resp := rfl
@[simp] theorem State.nextCand_init (s : State) : (s.nextCand).init = s.init := rfl
@[simp] theorem State.nextCand_dir (s : State) : (s.nextCand).dir = s.dir := rfl
@[simp] theorem State.nextCand_exc (s : State) : (s.nextCand).exc = s.exc := rfl
@[simp] theorem State.nextCand_seq (s : State) : (s.nextCand).seq = s.seq := rfl
@[simp] theorem State.nextCand_cand (s : State) : (s.nextCand).cand = s.cand + 1 := rfl
@[simp] theorem State.nextCand_new (s : State) : (s.nextCand).new = s.new := rfl
@[simp] theorem State.nextCand_txbuf (s : State) : (s.nextCand).txbuf = s.txbuf := rfl
@[simp] theorem State.nextCand_rxbuf (s : State) : (s.nextCand).rxbuf = s.rxbuf := rfl
@[simp] theorem State.nextCand_job (s : State) : (s.nextCand).job = s.job := rfl
@[simp] theorem State.nextCand_addr (s : State) : (s.nextCand).addr = s.addr := rfl
@[simp] theorem State.nextCand_env (s : State) : (s.nextCand).env = s.env := rfl
@[simp] theorem State.nextCand_trace (s : State) : (s.nextCand).trace = s.trace := rfl
@[simp] theorem State.nextCand_past (s : State) : (s.nextCand).past = s.past := rfl

@[simp] theorem State.found_cfg (s : State) : (s.found).cfg = s.cfg := rfl
@[simp] theorem State.found_host (s : State) : (s.found).host = s.host := rfl
@[simp] theorem State.found_resp (s : State) : (s.found).resp = s.resp := rfl
@[simp] theorem State.found_init (s : State) : (s.found).init = s.init := rfl
@[simp] theorem State.found_dir (s : State) : (s.found).dir = s.dir := rfl
@[simp] theorem State.found_exc (s : State) : (s.found).exc = s.exc := rfl
@[simp] theorem State.found_seq (s : State) : (s.found).seq = .sNext := rfl
@[simp] theorem State.found_cand (s : State) : (s.found).cand = s.cand := rfl
@[simp] theorem State.found_new (s : State) : (s.found).new = s.new ++ [s.candAddr] := rfl
@[simp] theorem State.found_txbuf (s : State) : (s.found).txbuf = s.txbuf := rfl
@[simp] theorem State.found_rxbuf (s : State) : (s.found).rxbuf = s.rxbuf := rfl
@[simp] theorem State.found_job (s : State) : (s.found).job = s.job := rfl
@[simp] theorem State.found_addr (s : State) : (s.found).addr = s.addr := rfl
@[simp] theorem State.found_env (s : State) : (s.found).env = s.env := rfl
@[simp] theorem State.found_trace (s : State) : (s.found).trace = s.trace := rfl
@[simp] theorem State.found_past (s : State) : (s.found).past = s.past := rfl

@[simp] theorem State.replaceDir_cfg (s : State) : (s.replaceDir).cfg = s.cfg := rfl
@[simp] theorem State.replaceDir_host (s : State) : (s.replaceDir).host = s.host := rfl
@[simp] theorem State.replaceDir_resp (s : State) : (s.replaceDir).resp = s.resp := rfl
@[simp] theorem State.replaceDir_init (s : State) : (s.replaceDir).init = s.init := rfl
@[simp] theorem State.replaceDir_dir (s : State) : (s.replaceDir).dir = s.new := rfl
@[simp] theorem State.replaceDir_exc (s : State) : (s.replaceDir).exc = s.exc := rfl
@[simp] theorem State.replaceDir_seq (s : State) : (s.replaceDir).seq = s.seq := rfl
@[simp] theorem State.replaceDir_cand (s : State) : (s.replaceDir).cand = s.cand := rfl
@[simp] theorem State.replaceDir_new (s : State) : (s.replaceDir).new = s.new := rfl
@[simp] theorem State.replaceDir_txbuf (s : State) : (s.replaceDir).txbuf = s.txbuf := rfl
@[simp] theorem State.replaceDir_rxbuf (s : State) : (s.replaceDir).rxbuf = s.rxbuf := rfl
@[simp] theorem State.replaceDir_job (s : State) : (s.replaceDir).job = s.job := rfl
@[simp] theorem State.replaceDir_addr (s : State) : (s.replaceDir).addr = s.addr := rfl
@[simp] theorem State.replaceDir_env (s : State) : (s.replaceDir).env = s.env := rfl
@[simp] theorem State.replaceDir_trace (s : State) : (s.replaceDir).trace = s.trace := rfl
@[simp] theorem State.replaceDir_past (s : State) : (s.replaceDir).past = s.past := rfl

@[simp] theorem State.startScan_cfg (s : State) : (s.startScan).cfg = s.cfg := rfl
@[simp] theorem State.startScan_host (s : State) : (s.startScan).host = s.host := rfl
@[simp] theorem State.startScan_resp (s : State) : (s.startScan).resp = s.resp := rfl
@[simp] theorem State.startScan_init (s : State) : (s.startScan).init = s.init := rfl
@[simp] theorem State.startScan_dir (s : State) : (s.startScan).dir = s.dir := rfl
@[simp] theorem State.startScan_exc (s : State) : (s.startScan).exc = s.exc := rfl
@[simp] theorem State.startScan_seq (s : State) : (s.startScan).seq = s.seq := rfl
@[simp] theorem State.startScan_cand (s : State) : (s.startScan).cand = 1 := rfl
@[simp] theorem State.startScan_new (s : State) : (s.startScan).new = [] := rfl
@[simp] theorem State.startScan_txbuf (s : State) : (s.startScan).txbuf = s.txbuf := rfl
@[simp] theorem State.startScan_rxbuf (s : State) : (s.startScan).rxbuf = s.rxbuf := rfl
@[simp] theorem State.startScan_job (s : State) : (s.startScan).job = s.job := rfl
@[simp] theorem State.startScan_addr (s : State) : (s.startScan).addr = s.addr := rfl
@[simp] theorem State.startScan_env (s : State) : (s.startScan).env = s.env := rfl
@[simp] theorem State.startScan_trace (s : State) : (s.startScan).trace = s.trace := rfl
@[simp] theorem State.startScan_past (s : State) : (s.startScan).past = s.past := rfl

@[simp] theorem State.target_cfg (s : State) (addr : Addr) : (s.target addr).cfg = s.cfg := rfl
@[simp] theorem State.target_host (s : State) (addr : Addr) : (s.target addr).host = s.host := rfl
@[simp] theorem State.target_resp (s : State) (addr : Addr) : (s.target addr).resp = s.resp := rfl
@[simp] theorem State.target_init (s : State) (addr : Addr) : (s.target addr).init = s.init := rfl
@[simp] theorem State.target_dir (s : State) (addr : Addr) : (s.target addr).dir = s.dir := rfl
@[simp] theorem State.target_exc (s : State) (addr : Addr) : (s.target addr).exc = s.exc := rfl
@[simp] theorem State.target_seq (s : State) (addr : Addr) : (s.target addr).seq = s.seq := rfl
@[simp] theorem State.target_cand (s : State) (addr : Addr) : (s.target addr).cand = s.cand := rfl
@[simp] theorem State.target_new (s : State) (addr : Addr) : (s.target addr).new = s.new := rfl
@[simp] theorem State.target_txbuf (s : State) (addr : Addr) : (s.target addr).txbuf = s.txbuf := rfl
@[simp] theorem State.target_rxbuf (s : State) (addr : Addr) : (s.target addr).rxbuf = s.rxbuf := rfl
@[simp] theorem State.target_job (s : State) (addr : Addr) : (s.target addr).job = s.job := rfl
@[simp] theorem State.target_addr (s : State) (addr : Addr) : (s.target addr).addr = addr := rfl
@[simp] theorem State.target_env (s : State) (addr : Addr) : (s.target addr).env = s.env := rfl
@[simp] theorem State.target_trace (s : State) (addr : Addr) : (s.target addr).trace = s.trace := rfl
@[simp] theorem State.target_past (s : State) (addr : Addr) : (s.target addr).past = s.past := rfl

@[simp] theorem State.complete_cfg (s : State) (st : Status) (val : Val) (snap : List Addr) : (s.complete st val snap).cfg = s.cfg := rfl
@[simp] theorem State.complete_host (s : State) (st : Status) (val : Val) (snap : List Addr) : (s.complete st val snap).host = s.host := rfl
@[simp] theorem State.complete_resp (s : State) (st : Status) (val : Val) (snap : List Addr) : (s.complete st val snap).resp = some (if st = .ok then { status := st, val := val, snap := snap } else { status := st, val := 0, snap := [] }) := rfl
@[simp] theorem State.complete_init (s : State) (st : Status) (val : Val) (snap : List Addr) : (s.complete st val snap).init = s.init := rfl
@[simp] theorem State.complete_dir (s : State) (st : Status) (val : Val) (snap : List Addr) : (s.complete st val snap).dir = s.dir := rfl
@[simp] theorem State.complete_exc (s : State) (st : Status) (val : Val) (snap : List Addr) : (s.complete st val snap).exc = s.exc := rfl
@[simp] theorem State.complete_seq (s : State) (st : Status) (val : Val) (snap : List Addr) : (s.complete st val snap).seq = .idle := rfl
@[simp] theorem State.complete_cand (s : State) (st : Status) (val : Val) (snap : List Addr) : (s.complete st val snap).cand = s.cand := rfl
@[simp] theorem State.complete_new (s : State) (st : Status) (val : Val) (snap : List Addr) : (s.complete st val snap).new = s.new := rfl
@[simp] theorem State.complete_txbuf (s : State) (st : Status) (val : Val) (snap : List Addr) : (s.complete st val snap).txbuf = s.txbuf := rfl
@[simp] theorem State.complete_rxbuf (s : State) (st : Status) (val : Val) (snap : List Addr) : (s.complete st val snap).rxbuf = s.rxbuf := rfl
@[simp] theorem State.complete_job (s : State) (st : Status) (val : Val) (snap : List Addr) : (s.complete st val snap).job = .none := rfl
@[simp] theorem State.complete_addr (s : State) (st : Status) (val : Val) (snap : List Addr) : (s.complete st val snap).addr = s.addr := rfl
@[simp] theorem State.complete_env (s : State) (st : Status) (val : Val) (snap : List Addr) : (s.complete st val snap).env = s.env := rfl
@[simp] theorem State.complete_trace (s : State) (st : Status) (val : Val) (snap : List Addr) : (s.complete st val snap).trace = s.trace := rfl
@[simp] theorem State.complete_past (s : State) (st : Status) (val : Val) (snap : List Addr) : (s.complete st val snap).past = s.past := rfl

@[simp] theorem State.completePlain_cfg (s : State) (st : Status) : (s.completePlain st).cfg = s.cfg := rfl
@[simp] theorem State.completePlain_host (s : State) (st : Status) : (s.completePlain st).host = s.host := rfl
@[simp] theorem State.completePlain_resp (s : State) (st : Status) : (s.completePlain st).resp = some { status := st, val := 0, snap := [] } := by cases st <;> rfl
@[simp] theorem State.completePlain_init (s : State) (st : Status) : (s.completePlain st).init = s.init := rfl
@[simp] theorem State.completePlain_dir (s : State) (st : Status) : (s.completePlain st).dir = s.dir := rfl
@[simp] theorem State.completePlain_exc (s : State) (st : Status) : (s.completePlain st).exc = s.exc := rfl
@[simp] theorem State.completePlain_seq (s : State) (st : Status) : (s.completePlain st).seq = .idle := rfl
@[simp] theorem State.completePlain_cand (s : State) (st : Status) : (s.completePlain st).cand = s.cand := rfl
@[simp] theorem State.completePlain_new (s : State) (st : Status) : (s.completePlain st).new = s.new := rfl
@[simp] theorem State.completePlain_txbuf (s : State) (st : Status) : (s.completePlain st).txbuf = s.txbuf := rfl
@[simp] theorem State.completePlain_rxbuf (s : State) (st : Status) : (s.completePlain st).rxbuf = s.rxbuf := rfl
@[simp] theorem State.completePlain_job (s : State) (st : Status) : (s.completePlain st).job = .none := rfl
@[simp] theorem State.completePlain_addr (s : State) (st : Status) : (s.completePlain st).addr = s.addr := rfl
@[simp] theorem State.completePlain_env (s : State) (st : Status) : (s.completePlain st).env = s.env := rfl
@[simp] theorem State.completePlain_trace (s : State) (st : Status) : (s.completePlain st).trace = s.trace := rfl
@[simp] theorem State.completePlain_past (s : State) (st : Status) : (s.completePlain st).past = s.past := rfl

@[simp] theorem State.setWrites_cfg (s : State) (q : List (Completion BusStatus)) : (s.setWrites q).cfg = s.cfg := rfl
@[simp] theorem State.setWrites_host (s : State) (q : List (Completion BusStatus)) : (s.setWrites q).host = s.host := rfl
@[simp] theorem State.setWrites_resp (s : State) (q : List (Completion BusStatus)) : (s.setWrites q).resp = s.resp := rfl
@[simp] theorem State.setWrites_init (s : State) (q : List (Completion BusStatus)) : (s.setWrites q).init = s.init := rfl
@[simp] theorem State.setWrites_dir (s : State) (q : List (Completion BusStatus)) : (s.setWrites q).dir = s.dir := rfl
@[simp] theorem State.setWrites_exc (s : State) (q : List (Completion BusStatus)) : (s.setWrites q).exc = s.exc := rfl
@[simp] theorem State.setWrites_seq (s : State) (q : List (Completion BusStatus)) : (s.setWrites q).seq = s.seq := rfl
@[simp] theorem State.setWrites_cand (s : State) (q : List (Completion BusStatus)) : (s.setWrites q).cand = s.cand := rfl
@[simp] theorem State.setWrites_new (s : State) (q : List (Completion BusStatus)) : (s.setWrites q).new = s.new := rfl
@[simp] theorem State.setWrites_txbuf (s : State) (q : List (Completion BusStatus)) : (s.setWrites q).txbuf = s.txbuf := rfl
@[simp] theorem State.setWrites_rxbuf (s : State) (q : List (Completion BusStatus)) : (s.setWrites q).rxbuf = s.rxbuf := rfl
@[simp] theorem State.setWrites_job (s : State) (q : List (Completion BusStatus)) : (s.setWrites q).job = s.job := rfl
@[simp] theorem State.setWrites_addr (s : State) (q : List (Completion BusStatus)) : (s.setWrites q).addr = s.addr := rfl
@[simp] theorem State.setWrites_trace (s : State) (q : List (Completion BusStatus)) : (s.setWrites q).trace = s.trace := rfl
@[simp] theorem State.setWrites_past (s : State) (q : List (Completion BusStatus)) : (s.setWrites q).past = s.past := rfl
@[simp] theorem State.setWrites_env_writes (s : State) (q : List (Completion BusStatus)) : (s.setWrites q).env.writes = q := rfl
@[simp] theorem State.setWrites_env_reads (s : State) (q : List (Completion BusStatus)) : (s.setWrites q).env.reads = s.env.reads := rfl
@[simp] theorem State.setWrites_env_resets (s : State) (q : List (Completion BusStatus)) : (s.setWrites q).env.resets = s.env.resets := rfl
@[simp] theorem State.setWrites_env_delays (s : State) (q : List (Completion BusStatus)) : (s.setWrites q).env.delays = s.env.delays := rfl
@[simp] theorem State.setWrites_env_seed (s : State) (q : List (Completion BusStatus)) : (s.setWrites q).env.seed = s.env.seed := rfl
@[simp] theorem State.setWrites_history (s : State) (q : List (Completion BusStatus)) : (s.setWrites q).history = s.history := rfl

@[simp] theorem State.setReads_cfg (s : State) (q : List (Completion (BusStatus × List Byte))) : (s.setReads q).cfg = s.cfg := rfl
@[simp] theorem State.setReads_host (s : State) (q : List (Completion (BusStatus × List Byte))) : (s.setReads q).host = s.host := rfl
@[simp] theorem State.setReads_resp (s : State) (q : List (Completion (BusStatus × List Byte))) : (s.setReads q).resp = s.resp := rfl
@[simp] theorem State.setReads_init (s : State) (q : List (Completion (BusStatus × List Byte))) : (s.setReads q).init = s.init := rfl
@[simp] theorem State.setReads_dir (s : State) (q : List (Completion (BusStatus × List Byte))) : (s.setReads q).dir = s.dir := rfl
@[simp] theorem State.setReads_exc (s : State) (q : List (Completion (BusStatus × List Byte))) : (s.setReads q).exc = s.exc := rfl
@[simp] theorem State.setReads_seq (s : State) (q : List (Completion (BusStatus × List Byte))) : (s.setReads q).seq = s.seq := rfl
@[simp] theorem State.setReads_cand (s : State) (q : List (Completion (BusStatus × List Byte))) : (s.setReads q).cand = s.cand := rfl
@[simp] theorem State.setReads_new (s : State) (q : List (Completion (BusStatus × List Byte))) : (s.setReads q).new = s.new := rfl
@[simp] theorem State.setReads_txbuf (s : State) (q : List (Completion (BusStatus × List Byte))) : (s.setReads q).txbuf = s.txbuf := rfl
@[simp] theorem State.setReads_rxbuf (s : State) (q : List (Completion (BusStatus × List Byte))) : (s.setReads q).rxbuf = s.rxbuf := rfl
@[simp] theorem State.setReads_job (s : State) (q : List (Completion (BusStatus × List Byte))) : (s.setReads q).job = s.job := rfl
@[simp] theorem State.setReads_addr (s : State) (q : List (Completion (BusStatus × List Byte))) : (s.setReads q).addr = s.addr := rfl
@[simp] theorem State.setReads_trace (s : State) (q : List (Completion (BusStatus × List Byte))) : (s.setReads q).trace = s.trace := rfl
@[simp] theorem State.setReads_past (s : State) (q : List (Completion (BusStatus × List Byte))) : (s.setReads q).past = s.past := rfl
@[simp] theorem State.setReads_env_writes (s : State) (q : List (Completion (BusStatus × List Byte))) : (s.setReads q).env.writes = s.env.writes := rfl
@[simp] theorem State.setReads_env_reads (s : State) (q : List (Completion (BusStatus × List Byte))) : (s.setReads q).env.reads = q := rfl
@[simp] theorem State.setReads_env_resets (s : State) (q : List (Completion (BusStatus × List Byte))) : (s.setReads q).env.resets = s.env.resets := rfl
@[simp] theorem State.setReads_env_delays (s : State) (q : List (Completion (BusStatus × List Byte))) : (s.setReads q).env.delays = s.env.delays := rfl
@[simp] theorem State.setReads_env_seed (s : State) (q : List (Completion (BusStatus × List Byte))) : (s.setReads q).env.seed = s.env.seed := rfl
@[simp] theorem State.setReads_history (s : State) (q : List (Completion (BusStatus × List Byte))) : (s.setReads q).history = s.history := rfl

@[simp] theorem State.setResets_cfg (s : State) (q : List (Completion Unit)) : (s.setResets q).cfg = s.cfg := rfl
@[simp] theorem State.setResets_host (s : State) (q : List (Completion Unit)) : (s.setResets q).host = s.host := rfl
@[simp] theorem State.setResets_resp (s : State) (q : List (Completion Unit)) : (s.setResets q).resp = s.resp := rfl
@[simp] theorem State.setResets_init (s : State) (q : List (Completion Unit)) : (s.setResets q).init = s.init := rfl
@[simp] theorem State.setResets_dir (s : State) (q : List (Completion Unit)) : (s.setResets q).dir = s.dir := rfl
@[simp] theorem State.setResets_exc (s : State) (q : List (Completion Unit)) : (s.setResets q).exc = s.exc := rfl
@[simp] theorem State.setResets_seq (s : State) (q : List (Completion Unit)) : (s.setResets q).seq = s.seq := rfl
@[simp] theorem State.setResets_cand (s : State) (q : List (Completion Unit)) : (s.setResets q).cand = s.cand := rfl
@[simp] theorem State.setResets_new (s : State) (q : List (Completion Unit)) : (s.setResets q).new = s.new := rfl
@[simp] theorem State.setResets_txbuf (s : State) (q : List (Completion Unit)) : (s.setResets q).txbuf = s.txbuf := rfl
@[simp] theorem State.setResets_rxbuf (s : State) (q : List (Completion Unit)) : (s.setResets q).rxbuf = s.rxbuf := rfl
@[simp] theorem State.setResets_job (s : State) (q : List (Completion Unit)) : (s.setResets q).job = s.job := rfl
@[simp] theorem State.setResets_addr (s : State) (q : List (Completion Unit)) : (s.setResets q).addr = s.addr := rfl
@[simp] theorem State.setResets_trace (s : State) (q : List (Completion Unit)) : (s.setResets q).trace = s.trace := rfl
@[simp] theorem State.setResets_past (s : State) (q : List (Completion Unit)) : (s.setResets q).past = s.past := rfl
@[simp] theorem State.setResets_env_writes (s : State) (q : List (Completion Unit)) : (s.setResets q).env.writes = s.env.writes := rfl
@[simp] theorem State.setResets_env_reads (s : State) (q : List (Completion Unit)) : (s.setResets q).env.reads = s.env.reads := rfl
@[simp] theorem State.setResets_env_resets (s : State) (q : List (Completion Unit)) : (s.setResets q).env.resets = q := rfl
@[simp] theorem State.setResets_env_delays (s : State) (q : List (Completion Unit)) : (s.setResets q).env.delays = s.env.delays := rfl
@[simp] theorem State.setResets_env_seed (s : State) (q : List (Completion Unit)) : (s.setResets q).env.seed = s.env.seed := rfl
@[simp] theorem State.setResets_history (s : State) (q : List (Completion Unit)) : (s.setResets q).history = s.history := rfl

@[simp] theorem State.setDelays_cfg (s : State) (q : List (Completion Unit)) : (s.setDelays q).cfg = s.cfg := rfl
@[simp] theorem State.setDelays_host (s : State) (q : List (Completion Unit)) : (s.setDelays q).host = s.host := rfl
@[simp] theorem State.setDelays_resp (s : State) (q : List (Completion Unit)) : (s.setDelays q).resp = s.resp := rfl
@[simp] theorem State.setDelays_init (s : State) (q : List (Completion Unit)) : (s.setDelays q).init = s.init := rfl
@[simp] theorem State.setDelays_dir (s : State) (q : List (Completion Unit)) : (s.setDelays q).dir = s.dir := rfl
@[simp] theorem State.setDelays_exc (s : State) (q : List (Completion Unit)) : (s.setDelays q).exc = s.exc := rfl
@[simp] theorem State.setDelays_seq (s : State) (q : List (Completion Unit)) : (s.setDelays q).seq = s.seq := rfl
@[simp] theorem State.setDelays_cand (s : State) (q : List (Completion Unit)) : (s.setDelays q).cand = s.cand := rfl
@[simp] theorem State.setDelays_new (s : State) (q : List (Completion Unit)) : (s.setDelays q).new = s.new := rfl
@[simp] theorem State.setDelays_txbuf (s : State) (q : List (Completion Unit)) : (s.setDelays q).txbuf = s.txbuf := rfl
@[simp] theorem State.setDelays_rxbuf (s : State) (q : List (Completion Unit)) : (s.setDelays q).rxbuf = s.rxbuf := rfl
@[simp] theorem State.setDelays_job (s : State) (q : List (Completion Unit)) : (s.setDelays q).job = s.job := rfl
@[simp] theorem State.setDelays_addr (s : State) (q : List (Completion Unit)) : (s.setDelays q).addr = s.addr := rfl
@[simp] theorem State.setDelays_trace (s : State) (q : List (Completion Unit)) : (s.setDelays q).trace = s.trace := rfl
@[simp] theorem State.setDelays_past (s : State) (q : List (Completion Unit)) : (s.setDelays q).past = s.past := rfl
@[simp] theorem State.setDelays_env_writes (s : State) (q : List (Completion Unit)) : (s.setDelays q).env.writes = s.env.writes := rfl
@[simp] theorem State.setDelays_env_reads (s : State) (q : List (Completion Unit)) : (s.setDelays q).env.reads = s.env.reads := rfl
@[simp] theorem State.setDelays_env_resets (s : State) (q : List (Completion Unit)) : (s.setDelays q).env.resets = s.env.resets := rfl
@[simp] theorem State.setDelays_env_delays (s : State) (q : List (Completion Unit)) : (s.setDelays q).env.delays = q := rfl
@[simp] theorem State.setDelays_env_seed (s : State) (q : List (Completion Unit)) : (s.setDelays q).env.seed = s.env.seed := rfl
@[simp] theorem State.setDelays_history (s : State) (q : List (Completion Unit)) : (s.setDelays q).history = s.history := rfl

@[simp] theorem State.enter_cfg (s : State) (p : Phase) : (s.enter p).cfg = s.cfg := rfl
@[simp] theorem State.enter_host (s : State) (p : Phase) : (s.enter p).host = s.host := rfl
@[simp] theorem State.enter_resp (s : State) (p : Phase) : (s.enter p).resp = s.resp := rfl
@[simp] theorem State.enter_init (s : State) (p : Phase) : (s.enter p).init = s.init := rfl
@[simp] theorem State.enter_dir (s : State) (p : Phase) : (s.enter p).dir = s.dir := rfl
@[simp] theorem State.enter_exc (s : State) (p : Phase) : (s.enter p).exc = s.exc := rfl
@[simp] theorem State.enter_seq (s : State) (p : Phase) : (s.enter p).seq = p := rfl
@[simp] theorem State.enter_cand (s : State) (p : Phase) : (s.enter p).cand = s.cand := rfl
@[simp] theorem State.enter_new (s : State) (p : Phase) : (s.enter p).new = s.new := rfl
@[simp] theorem State.enter_txbuf (s : State) (p : Phase) : (s.enter p).txbuf = s.txbuf := rfl
@[simp] theorem State.enter_rxbuf (s : State) (p : Phase) : (s.enter p).rxbuf = s.rxbuf := rfl
@[simp] theorem State.enter_job (s : State) (p : Phase) : (s.enter p).job = s.job := rfl
@[simp] theorem State.enter_addr (s : State) (p : Phase) : (s.enter p).addr = s.addr := rfl
@[simp] theorem State.enter_env (s : State) (p : Phase) : (s.enter p).env = s.env := rfl
@[simp] theorem State.enter_trace (s : State) (p : Phase) : (s.enter p).trace = s.trace := rfl
@[simp] theorem State.enter_past (s : State) (p : Phase) : (s.enter p).past = s.past := rfl

@[simp] theorem State.withJob_cfg (s : State) (j : Job) : (s.withJob j).cfg = s.cfg := rfl
@[simp] theorem State.withJob_host (s : State) (j : Job) : (s.withJob j).host = s.host := rfl
@[simp] theorem State.withJob_resp (s : State) (j : Job) : (s.withJob j).resp = s.resp := rfl
@[simp] theorem State.withJob_init (s : State) (j : Job) : (s.withJob j).init = s.init := rfl
@[simp] theorem State.withJob_dir (s : State) (j : Job) : (s.withJob j).dir = s.dir := rfl
@[simp] theorem State.withJob_exc (s : State) (j : Job) : (s.withJob j).exc = s.exc := rfl
@[simp] theorem State.withJob_seq (s : State) (j : Job) : (s.withJob j).seq = s.seq := rfl
@[simp] theorem State.withJob_cand (s : State) (j : Job) : (s.withJob j).cand = s.cand := rfl
@[simp] theorem State.withJob_new (s : State) (j : Job) : (s.withJob j).new = s.new := rfl
@[simp] theorem State.withJob_txbuf (s : State) (j : Job) : (s.withJob j).txbuf = s.txbuf := rfl
@[simp] theorem State.withJob_rxbuf (s : State) (j : Job) : (s.withJob j).rxbuf = s.rxbuf := rfl
@[simp] theorem State.withJob_job (s : State) (j : Job) : (s.withJob j).job = j := rfl
@[simp] theorem State.withJob_addr (s : State) (j : Job) : (s.withJob j).addr = s.addr := rfl
@[simp] theorem State.withJob_env (s : State) (j : Job) : (s.withJob j).env = s.env := rfl
@[simp] theorem State.withJob_trace (s : State) (j : Job) : (s.withJob j).trace = s.trace := rfl
@[simp] theorem State.withJob_past (s : State) (j : Job) : (s.withJob j).past = s.past := rfl

@[simp] theorem State.received_cfg (s : State) (r : List Byte) : (s.received r).cfg = s.cfg := rfl
@[simp] theorem State.received_host (s : State) (r : List Byte) : (s.received r).host = s.host := rfl
@[simp] theorem State.received_resp (s : State) (r : List Byte) : (s.received r).resp = s.resp := rfl
@[simp] theorem State.received_init (s : State) (r : List Byte) : (s.received r).init = s.init := rfl
@[simp] theorem State.received_dir (s : State) (r : List Byte) : (s.received r).dir = s.dir := rfl
@[simp] theorem State.received_exc (s : State) (r : List Byte) : (s.received r).exc = s.exc := rfl
@[simp] theorem State.received_seq (s : State) (r : List Byte) : (s.received r).seq = s.seq := rfl
@[simp] theorem State.received_cand (s : State) (r : List Byte) : (s.received r).cand = s.cand := rfl
@[simp] theorem State.received_new (s : State) (r : List Byte) : (s.received r).new = s.new := rfl
@[simp] theorem State.received_txbuf (s : State) (r : List Byte) : (s.received r).txbuf = s.txbuf := rfl
@[simp] theorem State.received_rxbuf (s : State) (r : List Byte) : (s.received r).rxbuf = r := rfl
@[simp] theorem State.received_job (s : State) (r : List Byte) : (s.received r).job = s.job := rfl
@[simp] theorem State.received_addr (s : State) (r : List Byte) : (s.received r).addr = s.addr := rfl
@[simp] theorem State.received_env (s : State) (r : List Byte) : (s.received r).env = s.env := rfl
@[simp] theorem State.received_trace (s : State) (r : List Byte) : (s.received r).trace = s.trace := rfl
@[simp] theorem State.received_past (s : State) (r : List Byte) : (s.received r).past = s.past := rfl

@[simp] theorem State.searched_cfg (s : State) (c : BitVec 8) : (s.searched c).cfg = s.cfg := rfl
@[simp] theorem State.searched_host (s : State) (c : BitVec 8) : (s.searched c).host = s.host := rfl
@[simp] theorem State.searched_resp (s : State) (c : BitVec 8) : (s.searched c).resp = s.resp := rfl
@[simp] theorem State.searched_init (s : State) (c : BitVec 8) : (s.searched c).init = s.init := rfl
@[simp] theorem State.searched_dir (s : State) (c : BitVec 8) : (s.searched c).dir = s.dir := rfl
@[simp] theorem State.searched_exc (s : State) (c : BitVec 8) : (s.searched c).exc = s.exc := rfl
@[simp] theorem State.searched_seq (s : State) (c : BitVec 8) : (s.searched c).seq = s.seq := rfl
@[simp] theorem State.searched_cand (s : State) (c : BitVec 8) : (s.searched c).cand = c := rfl
@[simp] theorem State.searched_new (s : State) (c : BitVec 8) : (s.searched c).new = s.new := rfl
@[simp] theorem State.searched_txbuf (s : State) (c : BitVec 8) : (s.searched c).txbuf = s.txbuf := rfl
@[simp] theorem State.searched_rxbuf (s : State) (c : BitVec 8) : (s.searched c).rxbuf = s.rxbuf := rfl
@[simp] theorem State.searched_job (s : State) (c : BitVec 8) : (s.searched c).job = s.job := rfl
@[simp] theorem State.searched_addr (s : State) (c : BitVec 8) : (s.searched c).addr = s.addr := rfl
@[simp] theorem State.searched_env (s : State) (c : BitVec 8) : (s.searched c).env = s.env := rfl
@[simp] theorem State.searched_trace (s : State) (c : BitVec 8) : (s.searched c).trace = s.trace := rfl
@[simp] theorem State.searched_past (s : State) (c : BitVec 8) : (s.searched c).past = s.past := rfl

theorem State.history_record (s : State) (e : BusEvent) : (s.record e).history = s.history ++ [e] :=
  (List.append_assoc _ _ _).symm

@[simp] theorem State.history_accept (s : State) (rest : List Request) : (s.accept rest).history = s.history :=
  List.append_nil _

@[simp] theorem State.reset_init : State.reset.init = false := rfl
@[simp] theorem State.reset_seq : State.reset.seq = .idle := rfl
@[simp] theorem State.reset_dir : State.reset.dir = [] := rfl
@[simp] theorem State.reset_exc : State.reset.exc = [] := rfl

end Sys2Proof.Machine
end

