-- ==== Sys2Proof/Laws/Ports.lean ====
section
/-! SUPPORT. The rules of `Run` and one spec lemma for each bus-side port and each form of the transaction primitive: everything
it can do. Later proofs cite these and unfold none of them. -/

namespace Sys2Proof.Machine

/-- What holds of a run: `W` of the state it waits in, `Q` of its value and of the state it is done in. -/
def Run.Sat {α : Type} (x : Run α) (W : State → Prop) (Q : α → State → Prop) : Prop :=
  match x with
  | .done a s => Q a s
  | .waiting s => W s

section Rules
variable {α β : Type} {x : Run α} {W W' : State → Prop} {Q Q' : α → State → Prop}

@[simp] theorem Run.bind_done (a : α) (s : State) (f : α → State → Run β) : (Run.done a s).bind f = f a s := rfl
@[simp] theorem Run.bind_waiting (s : State) (f : α → State → Run β) : (Run.waiting s : Run α).bind f = .waiting s := rfl
@[simp] theorem Run.finish_done (a : α) (s : State) (f : α → State → State) : (Run.done a s).finish f = f a s := rfl
@[simp] theorem Run.finish_waiting (s : State) (f : α → State → State) : (Run.waiting s : Run α).finish f = s := rfl
@[simp] theorem Run.sat_done (a : α) (s : State) : (Run.done a s).Sat W Q ↔ Q a s := Iff.rfl
@[simp] theorem Run.sat_waiting (s : State) : (Run.waiting s : Run α).Sat W Q ↔ W s := Iff.rfl

theorem Run.Sat.mono (h : x.Sat W Q) (hw : ∀ s, W s → W' s) (hq : ∀ a s, Q a s → Q' a s) : x.Sat W' Q' := by
  cases x with
  | done a s => exact hq a s h
  | waiting s => exact hw s h

theorem Run.Sat.bind {f : α → State → Run β} {R : β → State → Prop} (h : x.Sat W Q)
    (hf : ∀ a s, Q a s → (f a s).Sat W R) : (x.bind f).Sat W R := by
  cases x with
  | done a s => exact hf a s h
  | waiting s => exact h

theorem Run.Sat.finish {f : α → State → State} {P : State → Prop} (h : x.Sat W Q) (hw : ∀ s, W s → P s)
    (hf : ∀ a s, Q a s → P (f a s)) : P (x.finish f) := by
  cases x with
  | done a s => exact hf a s h
  | waiting s => exact hw s h

theorem Run.bind_bind {γ : Type} (x : Run α) (f : α → State → Run β) (g : β → State → Run γ) :
    (x.bind f).bind g = x.bind fun a s => (f a s).bind g := by
  cases x <;> rfl

theorem Run.finish_bind (x : Run α) (f : α → State → Run β) (g : β → State → State) :
    (x.bind f).finish g = x.finish fun a s => (f a s).finish g := by
  cases x <;> rfl

end Rules

/-! The environment's turn on a port. -/

@[simp] theorem takeAnswer_nil {α : Type} (d : α) : takeAnswer d [] = (some d, []) := rfl
@[simp] theorem takeAnswer_done {α : Type} (d a : α) (q : List (Completion α)) :
    takeAnswer d (.done a :: q) = (some a, q) := rfl
@[simp] theorem takeAnswer_notYet {α : Type} (d : α) (q : List (Completion α)) :
    takeAnswer d (.notYet :: q) = (none, q) := rfl
@[simp] theorem takeAnswer_never {α : Type} (d : α) (q : List (Completion α)) :
    takeAnswer d (.never :: q) = (none, .never :: q) := rfl

/-- A queue of completed calls gives an answer, and what is left of it is a queue of completed calls. -/
theorem takeAnswer_completes {α : Type} (d : α) (q : List (Completion α)) (h : ∀ c ∈ q, ∃ a, c = .done a) :
    ∃ a q', takeAnswer d q = (some a, q') ∧ ∀ c ∈ q', ∃ a, c = .done a := by
  cases q with
  | nil => exact ⟨d, [], rfl, by simp⟩
  | cons c q =>
    obtain ⟨a, rfl⟩ := h c (by simp)
    exact ⟨a, q, rfl, fun c hc => h c (by simp [hc])⟩

theorem takeAnswer_completes_unit (q : List (Completion Unit)) (h : ∀ c ∈ q, c = .done ()) :
    ∃ q', takeAnswer () q = (some (), q') ∧ ∀ c ∈ q', c = .done () := by
  cases q with
  | nil => exact ⟨[], rfl, by simp⟩
  | cons c q =>
    obtain rfl := h c (by simp)
    exact ⟨q, rfl, fun c hc => h c (by simp [hc])⟩

/-! The ports. -/

theorem busWrite_eq (a : Addr) (b : List Byte) (s : State) :
    busWrite a b s = match (s.writeTurn a b).1 with
      | some st => .done st ((s.setWrites (s.writeTurn a b).2).record (.write a b st))
      | none => .waiting (s.setWrites (s.writeTurn a b).2) := rfl

theorem busWrite_answered {a : Addr} {b : List Byte} {s : State} {st : BusStatus} {q : List (Completion BusStatus)}
    (h : s.writeTurn a b = (some st, q)) : busWrite a b s = .done st ((s.setWrites q).record (.write a b st)) := by
  rw [busWrite_eq, h]

theorem busWrite_sat (a : Addr) (b : List Byte) (s : State) :
    (busWrite a b s).Sat (fun t => ∃ q, t = s.setWrites q) (fun st t => ∃ q, t = (s.setWrites q).record (.write a b st)) := by
  rw [busWrite_eq]
  cases (s.writeTurn a b).1 with
  | none => exact ⟨_, rfl⟩
  | some st => exact ⟨_, rfl⟩

theorem busRead_eq (a : Addr) (n : Nat) (s : State) :
    busRead a n s = match (s.readTurn a n).1 with
      | some ans => .done (ans.1, ans.2.take n) ((s.setReads (s.readTurn a n).2).record (.read a n ans.1 (ans.2.take n)))
      | none => .waiting (s.setReads (s.readTurn a n).2) := rfl

theorem busRead_answered {a : Addr} {n : Nat} {s : State} {st : BusStatus} {r : List Byte}
    {q : List (Completion (BusStatus × List Byte))} (h : s.readTurn a n = (some (st, r), q)) :
    busRead a n s = .done (st, r.take n) ((s.setReads q).record (.read a n st (r.take n))) := by
  rw [busRead_eq, h]

theorem busRead_sat (a : Addr) (n : Nat) (s : State) :
    (busRead a n s).Sat (fun t => ∃ q, t = s.setReads q)
      (fun ans t => ans.2.length ≤ n ∧ ∃ q, t = (s.setReads q).record (.read a n ans.1 ans.2)) := by
  rw [busRead_eq]
  cases (s.readTurn a n).1 with
  | none => exact ⟨_, rfl⟩
  | some ans => exact ⟨by simp, _, rfl⟩

theorem busReset_eq (s : State) :
    busReset s = match (takeAnswer () s.env.resets).1 with
      | some _ => .done () ((s.setResets (takeAnswer () s.env.resets).2).record .reset)
      | none => .waiting (s.setResets (takeAnswer () s.env.resets).2) := rfl

theorem busReset_answered {s : State} {q : List (Completion Unit)} (h : takeAnswer () s.env.resets = (some (), q)) :
    busReset s = .done () ((s.setResets q).record .reset) := by
  rw [busReset_eq, h]

theorem busReset_sat (s : State) :
    (busReset s).Sat (fun t => ∃ q, t = s.setResets q) (fun _ t => ∃ q, t = (s.setResets q).record .reset) := by
  rw [busReset_eq]
  cases (takeAnswer () s.env.resets).1 with
  | none => exact ⟨_, rfl⟩
  | some st => exact ⟨_, rfl⟩

theorem busDelay_eq (d : Word) (s : State) :
    busDelay d s = match (takeAnswer () s.env.delays).1 with
      | some _ => .done () ((s.setDelays (takeAnswer () s.env.delays).2).record (.delay d))
      | none => .waiting (s.setDelays (takeAnswer () s.env.delays).2) := rfl

theorem busDelay_answered {d : Word} {s : State} {q : List (Completion Unit)}
    (h : takeAnswer () s.env.delays = (some (), q)) : busDelay d s = .done () ((s.setDelays q).record (.delay d)) := by
  rw [busDelay_eq, h]

theorem busDelay_sat (d : Word) (s : State) :
    (busDelay d s).Sat (fun t => ∃ q, t = s.setDelays q) (fun _ t => ∃ q, t = (s.setDelays q).record (.delay d)) := by
  rw [busDelay_eq]
  cases (takeAnswer () s.env.delays).1 with
  | none => exact ⟨_, rfl⟩
  | some st => exact ⟨_, rfl⟩

/-! The transaction primitive. -/

@[simp] theorem writePhase_notReady {a : Addr} {b : List Byte} {s : State} (h : s.init = false) :
    writePhase a b s = .done .notReady s := by
  simp [writePhase, h]

theorem writePhase_ready {a : Addr} {b : List Byte} {s : State} (h : s.init = true) :
    writePhase a b s = (busWrite a b (s.enterWrite b)).bind fun st s => .done (writeStatus st) s := by
  simp [writePhase, h]

/-- Everything a write phase can do when `INIT` is set: it waits, or it is done with one `Write` event. -/
theorem writePhase_sat (a : Addr) (b : List Byte) {s : State} (h : s.init = true) :
    (writePhase a b s).Sat (fun t => ∃ q, t = (s.enterWrite b).setWrites q)
      (fun r t => ∃ st q, r = writeStatus st ∧ t = ((s.enterWrite b).setWrites q).record (.write a b st)) := by
  rw [writePhase_ready h]
  exact (busWrite_sat a b _).bind fun st t ⟨q, ht⟩ => ⟨st, q, rfl, ht⟩

theorem writePhase_answered {a : Addr} {b : List Byte} {s : State} {st : BusStatus} {q : List (Completion BusStatus)}
    (h : s.init = true) (ht : s.writeTurn a b = (some st, q)) :
    writePhase a b s = .done (writeStatus st) (((s.enterWrite b).setWrites q).record (.write a b st)) := by
  rw [writePhase_ready h, busWrite_answered (s := s.enterWrite b) ht]
  rfl

/-- Everything a read phase can do (R111 (5) to (7)). -/
theorem readPhase_sat (a : Addr) (n : Nat) (s : State) :
    (readPhase a n s).Sat (fun t => ∃ q, t = (s.enter .tRead).setReads q)
      (fun x t => ∃ st r q, r.length ≤ n ∧
        t = { ((s.enter .tRead).setReads q).record (.read a n st r) with rxbuf := r } ∧
        x = if st = .ok ∧ r.length = n then .ok r else .fail) := by
  refine (busRead_sat a n _).bind ?_
  rintro ⟨st, r⟩ t ⟨hl, q, rfl⟩
  dsimp only
  split
  · exact ⟨st, r, q, hl, rfl, by simp_all⟩
  · exact ⟨st, r, q, hl, rfl, by simp_all⟩

end Sys2Proof.Machine
end

