-- ==== Sys2Proof/Laws/Encoding.lean ====
section
/-! SUPPORT. The byte-order helpers are inverse to each other, the decoder's search finds the command a legal configuration's
identifier and length stand for, and a frame decodes to what its parameter bytes say. -/

namespace Sys2Proof

theorem getLsbD_join16 (b0 b1 : Byte) (i : Nat) :
    (join16 b0 b1).getLsbD i = if i < 8 then b0.getLsbD i else b1.getLsbD (i - 8) := by
  simp only [join16, BitVec.getLsbD_append]

theorem getLsbD_join32 (b0 b1 b2 b3 : Byte) (i : Nat) :
    (join32 b0 b1 b2 b3).getLsbD i =
      if i < 8 then b0.getLsbD i else if i < 16 then b1.getLsbD (i - 8)
      else if i < 24 then b2.getLsbD (i - 16) else b3.getLsbD (i - 24) := by
  simp only [join32, BitVec.getLsbD_append]
  have e1 : i - 8 - 8 = i - 16 := by omega
  have e2 : i - 16 - 8 = i - 24 := by omega
  rcases Nat.lt_or_ge i 8 with h | h
  · simp [h]
  rcases Nat.lt_or_ge i 16 with h' | h'
  · simp [Nat.not_lt.2 h, h', show i - 8 < 8 by omega]
  rcases Nat.lt_or_ge i 24 with h'' | h''
  · simp [Nat.not_lt.2 h, Nat.not_lt.2 h', h'', e1, show ¬ i - 8 < 8 by omega, show i - 16 < 8 by omega]
  · simp [Nat.not_lt.2 h, Nat.not_lt.2 h', Nat.not_lt.2 h'', e1, e2, show ¬ i - 8 < 8 by omega, show ¬ i - 16 < 8 by omega]

/-- The bits of a value, split into bytes and joined, are the value (R86). -/
@[simp] theorem join16_split (v : Half) : join16 (v.extractLsb' 0 8) (v.extractLsb' 8 8) = v := by
  apply BitVec.eq_of_getLsbD_eq
  intro i hi
  simp only [getLsbD_join16, BitVec.getLsbD_extractLsb']
  split
  · simp [*]
  · simp [show i - 8 < 8 by omega, show 8 + (i - 8) = i by omega]

@[simp] theorem join32_split (v : Word) :
    join32 (v.extractLsb' 0 8) (v.extractLsb' 8 8) (v.extractLsb' 16 8) (v.extractLsb' 24 8) = v := by
  apply BitVec.eq_of_getLsbD_eq
  intro i hi
  simp only [getLsbD_join32, BitVec.getLsbD_extractLsb']
  split
  · simp [*]
  split
  · simp [show i - 8 < 8 by omega, show 8 + (i - 8) = i by omega]
  split
  · simp [show i - 16 < 8 by omega, show 16 + (i - 16) = i by omega]
  · simp [show i - 24 < 8 by omega, show 24 + (i - 24) = i by omega]

/-- Joining two bytes and splitting the result gives the bytes. -/
@[simp] theorem le16_join16 (b0 b1 : Byte) : le16 (join16 b0 b1) = [b0, b1] := by
  simp only [le16, List.cons.injEq, and_true]
  constructor <;>
  · apply BitVec.eq_of_getLsbD_eq
    intro i hi
    simp only [BitVec.getLsbD_extractLsb', getLsbD_join16]
    simp [hi]

@[simp] theorem le32_join32 (b0 b1 b2 b3 : Byte) : le32 (join32 b0 b1 b2 b3) = [b0, b1, b2, b3] := by
  simp only [le32, List.cons.injEq, and_true]
  refine ⟨?_, ?_, ?_, ?_⟩ <;>
  · apply BitVec.eq_of_getLsbD_eq
    intro i hi
    simp only [BitVec.getLsbD_extractLsb', getLsbD_join32]
    simp [hi, show 8 + i < 16 by omega, show ¬ 16 + i < 8 by omega, show 16 + i < 24 by omega, show ¬ 24 + i < 8 by omega,
      show ¬ 24 + i < 16 by omega, show ¬ 8 + i < 8 by omega, show ¬ 16 + i < 16 by omega, show ¬ 24 + i < 24 by omega]

@[simp] theorem length_le16 (v : Half) : (le16 v).length = 2 := rfl
@[simp] theorem length_le32 (v : Word) : (le32 v).length = 4 := rfl

theorem addrByte_setWidth (a : Addr) : (addrByte a).setWidth 7 = a := by
  simp [addrByte]

theorem enableByte_setWidth (en : BitVec 1) : (enableByte en).setWidth 1 = en := by
  simp [enableByte]

theorem extractLsb'_setWidth {m n : Nat} (h : m ≤ n) (v : BitVec m) : (v.setWidth n).extractLsb' 0 m = v := by
  apply BitVec.eq_of_getLsbD_eq
  intro i hi
  simp only [BitVec.getLsbD_extractLsb', BitVec.getLsbD_setWidth, Nat.zero_add]
  simp [hi, Nat.lt_of_lt_of_le hi h]

theorem extractLsb'_append_low {m n : Nat} (w : BitVec m) (v : BitVec n) : (w ++ v).extractLsb' 0 n = v := by
  apply BitVec.eq_of_getLsbD_eq
  intro i hi
  simp only [BitVec.getLsbD_extractLsb', BitVec.getLsbD_append, Nat.zero_add]
  simp [hi]

theorem extractLsb'_append_high {m n : Nat} (w : BitVec m) (v : BitVec n) : (w ++ v).extractLsb' n m = w := by
  apply BitVec.eq_of_getLsbD_eq
  intro i hi
  simp only [BitVec.getLsbD_extractLsb', BitVec.getLsbD_append]
  simp [hi]

/-! Request messages. -/

theorem Request.length_entries (r : Request) (n : Nat) : (r.entries n).length = min n Config.listCap := by
  simp only [Request.entries, List.length_take, List.length_append, List.length_replicate]
  omega

theorem Request.getElem?_entries (r : Request) {n k : Nat} (h : k < min n Config.listCap) :
    (r.entries n)[k]? = some (r.list.getD k 0) := by
  rw [Request.entries, List.getElem?_take_of_lt h, List.getElem?_append, List.getD_eq_getElem?_getD]
  split
  · simp [*]
  · rename_i h2
    rw [List.getElem?_replicate, if_pos (by omega)]
    simp [List.getElem?_eq_none (Nat.le_of_not_lt h2)]

/-- A list of the length `COUNT` gives is the list an operation reads. -/
theorem Request.entries_of_listFits {r : Request} (h : listFits r.count r.list = true) : r.entries r.count.toNat = r.list := by
  rw [listFits, beq_iff_eq] at h
  rw [Request.entries, List.take_append_of_le_length (by omega), ← h, List.take_length]

/-! Frames. -/

theorem Cmd.mem_all (c : Cmd) : c ∈ Cmd.all := by
  rcases c with c | c <;> cases c <;> decide

theorem length_frame (g : Cfg) (c : Cmd) (ps : List Byte) : (frame g c ps).length = 3 + ps.length := by
  simp [frame]; omega

/-- In a configuration that meets R7, the identifier and the length of a command find it. -/
theorem findCmd_idPair {g : Cfg} (hg : g.Ok) (c : Cmd) : findCmd g (g.cmdId.get c) c.len = some c := by
  have inj : ∀ (l : List Cmd), (l.map g.idPair).Nodup → c ∈ l → l.find? (fun d => g.idPair d == g.idPair c) = some c := by
    intro l
    induction l with
    | nil => intro _ h; cases h
    | cons d l ih =>
      intro hn hm
      rw [List.map_cons, List.nodup_cons] at hn
      by_cases hd : g.idPair d = g.idPair c
      · rcases List.mem_cons.1 hm with rfl | hm
        · simp
        · exact absurd (hd ▸ List.mem_map_of_mem hm) hn.1
      · rcases List.mem_cons.1 hm with rfl | hm
        · exact absurd rfl hd
        · rw [List.find?_cons_of_neg (by simpa using hd)]
          exact ih hn.2 hm
  exact inj Cmd.all hg.pairsDiffer c.mem_all

/-- The command that is found has the identifier and the length. -/
theorem idPair_of_findCmd {g : Cfg} {id : Byte} {n : Nat} {c : Cmd} (h : findCmd g id n = some c) :
    g.cmdId.get c = id ∧ c.len = n := by
  have := List.find?_some h
  simpa [Cfg.idPair] using this

/-- A frame with the right number of parameter bytes decodes to what they say. -/
theorem decodeBus_frame {g : Cfg} (hg : g.Ok) (c : Cmd) (ps : List Byte) (hl : 3 + ps.length = c.len) :
    decodeBus g (frame g c ps) = decodeParams c ps := by
  have hlen : c.len ≤ 7 := by rcases c with c | c <;> cases c <;> decide
  have hn : (BitVec.ofNat 8 (3 + ps.length)).toNat = 3 + ps.length := by
    rw [BitVec.toNat_ofNat, Nat.mod_eq_of_lt]; omega
  simp only [frame, List.cons_append, List.nil_append, decodeBus]
  simp only [ne_eq, not_true_eq_false, if_false, hn]
  rw [hl, findCmd_idPair hg]

/-- An operation whose encoded word is a frame that its parameter bytes decode to is what the frame decodes to. -/
theorem decode_frame {g : Cfg} (hg : g.Ok) {i : Instr} (c : Cmd) (ps : List Byte) (he : encode g i = .bus (frame g c ps))
    (hl : 3 + ps.length = c.len) (hp : decodeParams c ps = .ok i) : decode g (encode g i) = .ok i := by
  rw [he]
  exact (decodeBus_frame hg c ps hl).trans hp

theorem decodeBus_probe (g : Cfg) : decodeBus g (probeBytes g) = .ok .probe := by
  simp [decodeBus, probeBytes]

end Sys2Proof
end

