-- ==== Sys2Proof/Laws/Scan.lean ====
section
/-! SUPPORT. The scan body: what its loop keeps whatever the environment answers (the invariant of a scan in progress), and what it
computes when the environment completes every call. -/

namespace Sys2Proof.Machine

/-! Candidates. -/

/-- The last `n` candidates before 128, ascending. -/
def lastCandidates (n : Nat) : List Addr := (List.range' (128 - n) n).map (BitVec.ofNat 7)

theorem candidates_eq (lo : Addr) : candidates lo = lastCandidates (128 - lo.toNat) := by
  have h := lo.isLt
  simp only [candidates, lastCandidates]
  rw [show 128 - (128 - lo.toNat) = lo.toNat by omega]

theorem lastCandidates_succ {n : Nat} (h : n + 1 ≤ 128) :
    lastCandidates (n + 1) = BitVec.ofNat 7 (127 - n) :: lastCandidates n := by
  simp only [lastCandidates, List.range'_succ, List.map_cons]
  rw [show 128 - (n + 1) = 127 - n by omega, show 127 - n + 1 = 128 - n by omega]

theorem mem_lastCandidates {n : Nat} (h : n ≤ 128) {a : Addr} : a ∈ lastCandidates n ↔ 128 - n ≤ a.toNat := by
  have ha := a.isLt
  simp only [lastCandidates, List.mem_map, List.mem_range'_1]
  constructor
  · rintro ⟨k, hk, rfl⟩
    rw [BitVec.toNat_ofNat, Nat.mod_eq_of_lt (by omega)]
    omega
  · intro hk
    exact ⟨a.toNat, by omega, by simp⟩

theorem ascending_lastCandidates {n : Nat} (h : n ≤ 128) : Ascending (lastCandidates n) := by
  induction n with
  | zero => exact List.Pairwise.nil
  | succ n ih =>
    rw [lastCandidates_succ h]
    refine List.Pairwise.cons ?_ (ih (by omega))
    intro a ha
    rw [mem_lastCandidates (by omega)] at ha
    rw [BitVec.toNat_ofNat, Nat.mod_eq_of_lt (by omega)]
    omega

theorem mem_candidates {lo a : Addr} : a ∈ candidates lo ↔ lo.toNat ≤ a.toNat := by
  have h := lo.isLt
  rw [candidates_eq, mem_lastCandidates (by omega)]
  omega

@[simp] theorem member_iff (a : Addr) (l : List Addr) : member a l = true ↔ a ∈ l := by
  simp [member]

theorem addr_ne_zero_iff (a : Addr) : a ≠ 0 ↔ 1 ≤ a.toNat := by
  rw [Ne, ← BitVec.toNat_inj]
  rw [show (0 : Addr).toNat = 0 from rfl]
  omega

theorem mem_probed {exc : List Addr} {a : Addr} : a ∈ probed exc ↔ a ≠ 0 ∧ a ∉ exc := by
  rw [probed, List.mem_filter, mem_candidates, addr_ne_zero_iff]
  simp [member]

theorem ascending_probed (exc : List Addr) : Ascending (probed exc) := by
  rw [probed, candidates_eq]
  exact (ascending_lastCandidates (by decide)).filter _

theorem candAddr_toNat {s : State} (h : s.cand.toNat ≤ 127) : s.candAddr.toNat = s.cand.toNat := by
  rw [State.candAddr, BitVec.toNat_setWidth, Nat.mod_eq_of_lt (by omega)]

theorem candAddr_eq {s : State} {n : Nat} (h : n + 1 + s.cand.toNat = 128) : s.candAddr = BitVec.ofNat 7 (127 - n) := by
  rw [← BitVec.toNat_inj, candAddr_toNat (by omega), BitVec.toNat_ofNat, Nat.mod_eq_of_lt (by omega)]
  omega

theorem cand_succ {s : State} (h : s.cand.toNat ≤ 127) : (s.cand + 1).toNat = s.cand.toNat + 1 := by
  rw [BitVec.toNat_add, show (1 : BitVec 8).toNat = 1 from rfl, Nat.mod_eq_of_lt (by omega)]

/-! What the parts of a scan body keep. -/

/-- What no part of an operation in progress writes. -/
structure State.SameBase (s t : State) : Prop where
  cfg : t.cfg = s.cfg
  host : t.host = s.host
  resp : t.resp = s.resp
  init : t.init = s.init
  exc : t.exc = s.exc
  past : t.past = s.past
  seed : t.env.seed = s.env.seed
  rxbuf : t.rxbuf = s.rxbuf
  addr : t.addr = s.addr

theorem State.SameBase.refl (s : State) : s.SameBase s := ⟨rfl, rfl, rfl, rfl, rfl, rfl, rfl, rfl, rfl⟩

theorem State.SameBase.trans {s t u : State} (h : s.SameBase t) (k : t.SameBase u) : s.SameBase u :=
  ⟨k.cfg.trans h.cfg, k.host.trans h.host, k.resp.trans h.resp, k.init.trans h.init, k.exc.trans h.exc, k.past.trans h.past,
    k.seed.trans h.seed, k.rxbuf.trans h.rxbuf, k.addr.trans h.addr⟩

/-- Everything a reset phase can do. -/
theorem resetPhase_sat (s : State) :
    (resetPhase s).Sat (fun t => ∃ q, t = (s.enter .sReset).setResets q)
      (fun _ t => ∃ q, t = (((s.enter .sReset).setResets q).record .reset).enter .sNext) :=
  (busReset_sat _).bind fun _ t ⟨q, ht⟩ => ⟨q, by rw [ht]⟩

/-- Everything the probe of a candidate can do: it waits for its write, or for the recovery reset after an `ERR`, or it is done
with one `Write` event, an `ERR` being followed by one `Reset` event. -/
theorem probeCandidate_sat {s : State} (h : s.init = true) :
    (probeCandidate s).Sat
      (fun t => (∃ q, t = (s.enterWrite (probeBytes s.cfg)).setWrites q) ∨
        ∃ q q', t = ((((s.enterWrite (probeBytes s.cfg)).setWrites q).record
          (.write s.candAddr (probeBytes s.cfg) .err)).nextCand.enter .sReset).setResets q')
      (fun _ t => (∃ q, t = (((s.enterWrite (probeBytes s.cfg)).setWrites q).record
          (.write s.candAddr (probeBytes s.cfg) .ok)).found.nextCand) ∨
        ∃ q q', t = ((((((s.enterWrite (probeBytes s.cfg)).setWrites q).record
          (.write s.candAddr (probeBytes s.cfg) .err)).nextCand.enter .sReset).setResets q').record .reset).enter .sNext) := by
  refine Run.Sat.bind ((writePhase_sat _ _ h).mono (fun t ht => .inl ht) fun _ _ h => h) ?_
  rintro r t ⟨st, q, rfl, rfl⟩
  cases st with
  | ok => exact .inl ⟨q, rfl⟩
  | err =>
    refine (resetPhase_sat _).mono ?_ ?_
    · rintro t ⟨q', rfl⟩
      exact .inr ⟨q, q', rfl⟩
    · rintro - t ⟨q', rfl⟩
      exact .inr ⟨q, q', rfl⟩

/-- A scan in progress, seen again after updates that touch neither the candidates nor the lists. -/
theorem State.ScanInProgress.congr {s t : State} (h : s.ScanInProgress) (hj : t.job = s.job) (hc : t.cand = s.cand)
    (hn : t.new = s.new) (he : t.exc = s.exc) : t.ScanInProgress := by
  constructor
  · rw [hj]; exact h.job
  · rw [hc]; exact h.candLo
  · rw [hc]; exact h.candHi
  · rw [hn]; exact h.newOk
  · rw [hn, hc]; exact h.newBelow
  · rw [hn, he]; exact h.newAllowed

/-- A candidate that is passed over leaves a scan in progress. -/
theorem State.ScanInProgress.passed {s t : State} (h : s.ScanInProgress) (hle : s.cand.toNat ≤ 127) (hj : t.job = s.job)
    (hc : t.cand = s.cand + 1) (hn : t.new = s.new) (he : t.exc = s.exc) : t.ScanInProgress := by
  have hs := cand_succ hle
  constructor
  · rw [hj]; exact h.job
  · rw [hc, hs]; omega
  · rw [hc, hs]; omega
  · rw [hn]; exact h.newOk
  · rw [hn, hc, hs]
    intro a ha
    exact Nat.lt_succ_of_lt (h.newBelow a ha)
  · rw [hn, he]; exact h.newAllowed

/-- A candidate that answered, and is not excluded, leaves a scan in progress. -/
theorem State.ScanInProgress.added {s t : State} (h : s.ScanInProgress) (hle : s.cand.toNat ≤ 127) (hx : s.candAddr ∉ s.exc)
    (hj : t.job = s.job) (hc : t.cand = s.cand + 1) (hn : t.new = s.new ++ [s.candAddr]) (he : t.exc = s.exc) :
    t.ScanInProgress := by
  have hs := cand_succ hle
  have ha := candAddr_toNat hle
  constructor
  · rw [hj]; exact h.job
  · rw [hc, hs]; omega
  · rw [hc, hs]; omega
  · rw [hn]
    refine ⟨?_, ?_⟩
    · refine List.pairwise_append.2 ⟨h.newOk.ascending, List.pairwise_singleton _ _, ?_⟩
      intro a hm b hb
      rw [List.mem_singleton.1 hb, ha]
      exact h.newBelow a hm
    · intro a hm
      rcases List.mem_append.1 hm with hm | hm
      · exact h.newOk.inRange a hm
      · rw [List.mem_singleton.1 hm, addr_ne_zero_iff, ha]
        exact h.candLo
  · rw [hn, hc, hs]
    intro a hm
    rcases List.mem_append.1 hm with hm | hm
    · exact Nat.lt_succ_of_lt (h.newBelow a hm)
    · rw [List.mem_singleton.1 hm, ha]; omega
  · rw [hn, he]
    intro a hm
    rcases List.mem_append.1 hm with hm | hm
    · exact h.newAllowed a hm
    · rwa [List.mem_singleton.1 hm]

/-- A state in which an operation waits, as a scan body leaves it: what is kept, and the phase's own condition. -/
structure State.ScanWaits (s t : State) : Prop where
  same : s.SameBase t
  dir : t.dir = s.dir
  job : t.job = s.job
  busy : t.seq ≠ .idle
  phase : t.PhaseOk

theorem probeCandidate_keeps {s : State} (hi : s.init = true) (h : s.ScanInProgress) (hle : s.cand.toNat ≤ 127)
    (hx : s.candAddr ∉ s.exc) :
    (probeCandidate s).Sat (fun t => s.ScanWaits t)
      (fun _ t => s.SameBase t ∧ t.dir = s.dir ∧ t.job = s.job ∧ t.ScanInProgress ∧ t.seq = .sNext ∧ t.cand = s.cand + 1) := by
  refine (probeCandidate_sat hi).mono ?_ ?_
  · rintro t (⟨q, rfl⟩ | ⟨q, q', rfl⟩)
    · refine ⟨(by constructor <;> simp), by simp, by simp, by simp, ?_⟩
      have hs : ((s.enterWrite (probeBytes s.cfg)).setWrites q).ScanInProgress := h.congr (by simp) (by simp) (by simp) (by simp)
      exact ⟨.probe, rfl, hs, hle, hx⟩
    · refine ⟨(by constructor <;> simp), by simp, by simp, by simp, ?_⟩
      exact h.passed hle (by simp) (by simp) (by simp) (by simp)
  · rintro - t (⟨q, rfl⟩ | ⟨q, q', rfl⟩)
    · exact ⟨(by constructor <;> simp), by simp, by simp, h.added hle hx (by simp) (by simp) (by simp [State.candAddr]) (by simp), rfl, rfl⟩
    · exact ⟨(by constructor <;> simp), by simp, by simp, h.passed hle (by simp) (by simp) (by simp) (by simp), rfl, rfl⟩

theorem State.ScanWaits.after {s t u : State} (hb : s.SameBase t) (hd : t.dir = s.dir) (hj : t.job = s.job)
    (h : t.ScanWaits u) : s.ScanWaits u :=
  ⟨hb.trans h.same, h.dir.trans hd, h.job.trans hj, h.busy, h.phase⟩

theorem scanLoop_keeps (n : Nat) : ∀ {s : State}, s.init = true → s.ScanInProgress → n + s.cand.toNat = 128 →
    (scanLoop n s).Sat (fun t => s.ScanWaits t)
      (fun _ t => s.SameBase t ∧ t.dir = s.dir ∧ t.job = s.job ∧ t.ScanInProgress ∧ t.seq = .sDone ∧ t.cand.toNat = 128) := by
  induction n with
  | zero =>
    intro s _ h hn
    exact ⟨(by constructor <;> simp), by simp, by simp, h.congr (by simp) (by simp) (by simp) (by simp), rfl, by simpa using hn⟩
  | succ n ih =>
    intro s hi h hn
    have hle : s.cand.toNat ≤ 127 := by omega
    rw [scanLoop]
    split
    · have hp : (s.nextCand.enter .sNext).ScanInProgress := h.passed hle (by simp) (by simp) (by simp) (by simp)
      have hs : s.SameBase (s.nextCand.enter .sNext) := by constructor <;> simp
      refine (ih (s := s.nextCand.enter .sNext) hi hp ?_).mono ?_ ?_
      · have := cand_succ hle
        simp only [State.enter_cand, State.nextCand_cand, this]
        omega
      · intro t ht
        exact ht.after hs (by simp) (by simp)
      · rintro - t ⟨hb, hd, hj, hr⟩
        exact ⟨hs.trans hb, by simpa using hd, by simpa using hj, hr⟩
    · rename_i hm
      rw [member_iff] at hm
      refine (probeCandidate_keeps hi h hle hm).bind ?_
      rintro - t ⟨hb, hd, hj, ht, -, hc⟩
      refine (ih (hb.init.trans hi) ht ?_).mono ?_ ?_
      · rw [hc, cand_succ hle]; omega
      · intro u hu
        exact hu.after hb hd hj
      · rintro - u ⟨hb', hd', hj', hr⟩
        exact ⟨hb.trans hb', hd'.trans hd, hj'.trans hj, hr⟩

/-- What a scan body that is done leaves, from its next candidate on: the directory is the list that was built. -/
structure State.ScanDone (s t : State) : Prop where
  same : s.SameBase t
  job : t.job = s.job
  isNew : t.dir = t.new
  dirOk : DirectoryOk t.dir
  dirAllowed : ∀ a ∈ t.dir, a ∉ t.exc

theorem scanRest_keeps {s : State} (hi : s.init = true) (h : s.ScanInProgress) :
    (scanRest s).Sat (fun t => s.ScanWaits t) (fun _ t => s.ScanDone t) := by
  have hn : s.candLeft + s.cand.toNat = 128 := by
    have := h.candHi
    simp only [State.candLeft]
    omega
  refine (scanLoop_keeps _ hi h hn).bind ?_
  rintro - t ⟨hb, hd, hj, ht, -⟩
  exact ⟨hb.trans (by constructor <;> simp), hj, rfl, ht.newOk, ht.newAllowed⟩

theorem startScan_inProgress {s : State} (h : s.job = .scan ∨ s.job = .allocate false ∨ s.job = .allocate true) :
    s.startScan.ScanInProgress :=
  ⟨h, by simp, by simp, ⟨List.Pairwise.nil, by simp⟩, by simp, by simp⟩

theorem resetPhase_keeps {s : State} (h : s.ScanInProgress) :
    (resetPhase s).Sat (fun t => s.ScanWaits t)
      (fun _ t => s.SameBase t ∧ t.dir = s.dir ∧ t.job = s.job ∧ t.ScanInProgress) := by
  refine (resetPhase_sat s).mono ?_ ?_
  · rintro t ⟨q, rfl⟩
    exact ⟨(by constructor <;> simp), by simp, by simp, by simp, h.congr (by simp) (by simp) (by simp) (by simp)⟩
  · rintro - t ⟨q, rfl⟩
    exact ⟨(by constructor <;> simp), by simp, by simp, h.congr (by simp) (by simp) (by simp) (by simp)⟩

/-- Everything a scan body keeps: while it waits the directory is the old one, and when it is done the directory is as R24 has it
and holds no excluded address. -/
theorem scanBody_keeps {s : State} (hi : s.init = true)
    (h : s.job = .scan ∨ s.job = .allocate false ∨ s.job = .allocate true) :
    (scanBody s).Sat (fun t => s.ScanWaits t) (fun _ t => s.ScanDone t) := by
  have hs : s.SameBase s.startScan := (by constructor <;> simp)
  refine ((resetPhase_keeps (startScan_inProgress h)).mono (W' := fun t => s.ScanWaits t)
    (fun t ht => ht.after hs rfl rfl) fun _ _ ht => ht).bind ?_
  rintro - t ⟨hb, hd, hj, ht⟩
  refine (scanRest_keeps (hb.init.trans hi) ht).mono ?_ ?_
  · intro u hu
    exact hu.after (hs.trans hb) hd hj
  · intro _ u hu
    exact ⟨(hs.trans hb).trans hu.same, hu.job.trans hj, hu.isNew, hu.dirOk, hu.dirAllowed⟩

end Sys2Proof.Machine
end

