-- ==== Sys2Proof/Laws/ScanResult.lean ====
section
/-! SUPPORT. What a scan body computes when the environment completes every call: for the answers `f` the probes get, the new
directory and the bus events are `scanDirectory` and `scanEvents` of `f`, and nothing else of the state changes but transients. -/

namespace Sys2Proof.Machine

theorem State.writeTurn_completes {s : State} (h : s.env.Completes) (a : Addr) (b : List Byte) :
    ∃ st q, s.writeTurn a b = (some st, q) ∧ (∀ c ∈ q, ∃ st, c = .done st) ∧
      ∀ st' w, s.env.writes = .done st' :: w → st = st' ∧ q = w := by
  obtain ⟨st, q, hq, hc⟩ :=
    takeAnswer_completes (Config.freeWriteAnswer s.env.seed s.history a b) s.env.writes h.writes
  refine ⟨st, q, hq, hc, ?_⟩
  intro st' w hw
  rw [hw] at hq
  simp at hq
  exact ⟨hq.1.symm, hq.2.symm⟩

theorem Environment.Completes.ofWrites {e : Environment} (h : e.Completes) {q : List (Completion BusStatus)}
    (hq : ∀ c ∈ q, ∃ st, c = .done st) : ({ e with writes := q } : Environment).Completes :=
  ⟨hq, h.reads, h.resets, h.delays⟩

theorem Environment.Completes.ofResets {e : Environment} (h : e.Completes) {q : List (Completion Unit)}
    (hq : ∀ c ∈ q, c = .done ()) : ({ e with resets := q } : Environment).Completes :=
  ⟨h.writes, h.reads, hq, h.delays⟩

theorem Environment.Completes.ofDelays {e : Environment} (h : e.Completes) {q : List (Completion Unit)}
    (hq : ∀ c ∈ q, c = .done ()) : ({ e with delays := q } : Environment).Completes :=
  ⟨h.writes, h.reads, h.resets, hq⟩

theorem resetPhase_completes {s : State} (h : s.env.Completes) :
    ∃ q, (∀ c ∈ q, c = .done ()) ∧
      resetPhase s = .done () ((((s.enter .sReset).setResets q).record .reset).enter .sNext) := by
  obtain ⟨q, hq, hc⟩ := takeAnswer_completes_unit s.env.resets h.resets
  refine ⟨q, hc, ?_⟩
  rw [resetPhase, busReset_answered (s := s.enter .sReset) hq]
  rfl

/-- The environment after a part of a scan body: it still completes every call, and the ports the part does not use have their
queues. -/
structure Environment.AfterScan (e e' : Environment) : Prop where
  completes : e'.Completes
  reads : e'.reads = e.reads
  delays : e'.delays = e.delays
  seed : e'.seed = e.seed

theorem probeCandidate_completes {s : State} (hi : s.init = true) (h : s.env.Completes) :
    ∃ st e', s.env.AfterScan e' ∧
      (∀ st' w, s.env.writes = .done st' :: w → st = st' ∧ e'.writes = w) ∧
      probeCandidate s = .done () { s with
        new := if st = .ok then s.new ++ [s.candAddr] else s.new
        cand := s.cand + 1
        seq := .sNext
        txbuf := probeBytes s.cfg
        env := e'
        trace := s.trace ++ probeEvents s.cfg.probeByte s.candAddr st } := by
  obtain ⟨st, q, ht, hq, hd⟩ := State.writeTurn_completes h s.candAddr (probeBytes s.cfg)
  have hw := writePhase_answered hi ht
  cases st with
  | ok =>
    refine ⟨.ok, { s.env with writes := q }, ⟨h.ofWrites hq, rfl, rfl, rfl⟩, hd, ?_⟩
    rw [probeCandidate, hw]
    rfl
  | err =>
    have hc : ((((s.enterWrite (probeBytes s.cfg)).setWrites q).record
        (.write s.candAddr (probeBytes s.cfg) .err)).nextCand).env.Completes := h.ofWrites hq
    obtain ⟨q', hq', hr⟩ := resetPhase_completes hc
    refine ⟨.err, { s.env with writes := q, resets := q' }, ⟨(h.ofWrites hq).ofResets hq', rfl, rfl, rfl⟩, hd, ?_⟩
    rw [probeCandidate, hw]
    simp only [Run.bind_done, writeStatus, reduceCtorEq, if_false]
    rw [hr]
    simp [State.record, State.enter, State.setResets, State.nextCand, State.setWrites, State.enterWrite, probeEvents, probeBytes]

theorem probed_eq (exc : List Addr) : probed exc = (lastCandidates 127).filter fun a => !member a exc := by
  rw [probed, candidates_eq]
  rfl

theorem scanLoop_completes (n : Nat) : ∀ {s : State}, s.init = true → s.env.Completes → n + s.cand.toNat = 128 →
    ∃ (f : Addr → BusStatus) (e' : Environment) (tx : List Byte), s.env.AfterScan e' ∧
      (∀ (g : Addr → BusStatus) w, s.env.writes = (((lastCandidates n).filter fun a => !member a s.exc).map fun a => .done (g a)) ++ w →
        (∀ a ∈ (lastCandidates n).filter fun a => !member a s.exc, f a = g a) ∧ e'.writes = w) ∧
      scanLoop n s = .done () { s with
        new := s.new ++ ((lastCandidates n).filter fun a => !member a s.exc).filter fun a => f a == .ok
        cand := 128
        seq := .sDone
        txbuf := tx
        env := e'
        trace := s.trace ++
          ((lastCandidates n).filter fun a => !member a s.exc).flatMap fun a => probeEvents s.cfg.probeByte a (f a) } := by
  induction n with
  | zero =>
    intro s _ hc hn
    refine ⟨fun _ => BusStatus.ok, s.env, s.txbuf, ⟨hc, rfl, rfl, rfl⟩, ?_, ?_⟩
    · intro g w hw
      simpa [lastCandidates] using hw
    · have : s.cand = 128 := by
        rw [← BitVec.toNat_inj]
        simpa using hn
      simp [scanLoop, lastCandidates, State.enter, ← this]
  | succ n ih =>
    intro s hi hc hn
    have hle : s.cand.toNat ≤ 127 := by omega
    have hcs := cand_succ hle
    have hl : lastCandidates (n + 1) = s.candAddr :: lastCandidates n := by
      rw [lastCandidates_succ (by omega), candAddr_eq hn]
    rw [scanLoop, hl]
    cases hm : member s.candAddr s.exc with
    | true =>
      obtain ⟨f, e', tx, ha, hg, hr⟩ := ih (s := s.nextCand.enter .sNext) hi hc (by
        simp only [State.enter_cand, State.nextCand_cand, hcs]; omega)
      refine ⟨f, e', tx, ha, ?_, ?_⟩
      · simpa [hm] using hg
      · rw [if_pos rfl, hr]
        simp [hm, State.nextCand, State.enter]
    | false =>
      obtain ⟨st, e1, ha1, hd1, hp⟩ := probeCandidate_completes hi hc
      obtain ⟨f, e', tx, ha, hg, hr⟩ := ih
        (s := { s with
          new := if st = .ok then s.new ++ [s.candAddr] else s.new
          cand := s.cand + 1
          seq := .sNext
          txbuf := probeBytes s.cfg
          env := e1
          trace := s.trace ++ probeEvents s.cfg.probeByte s.candAddr st }) hi ha1.completes (by
        simp only [hcs]; omega)
      have hnot : ∀ a ∈ (lastCandidates n).filter fun a => !member a s.exc, a ≠ s.candAddr := by
        intro a hx he
        rw [List.mem_filter, mem_lastCandidates (by omega)] at hx
        have := candAddr_toNat hle
        rw [he] at hx
        omega
      refine ⟨fun a => if a = s.candAddr then st else f a, e', tx,
        ⟨ha.completes, ha.reads.trans ha1.reads, ha.delays.trans ha1.delays, ha.seed.trans ha1.seed⟩, ?_, ?_⟩
      · intro g w hw
        simp only [List.filter_cons, hm, Bool.not_false, if_true, List.map_cons, List.cons_append] at hw ⊢
        obtain ⟨hst, hw'⟩ := hd1 _ _ hw
        obtain ⟨hf, hw''⟩ := hg g w hw'
        refine ⟨?_, hw''⟩
        intro a hx
        rcases List.mem_cons.1 hx with rfl | hx
        · simp [hst]
        · simp only [hnot a hx, if_false]
          exact hf a hx
      · have h1 : ((lastCandidates n).filter fun a => !member a s.exc).filter
            (fun a => (if a = s.candAddr then st else f a) == .ok) =
            ((lastCandidates n).filter fun a => !member a s.exc).filter fun a => f a == .ok :=
          List.filter_congr fun a hx => by simp only [hnot a hx, if_false]
        have h2 : ((lastCandidates n).filter fun a => !member a s.exc).flatMap
            (fun a => probeEvents s.cfg.probeByte a (if a = s.candAddr then st else f a)) =
            ((lastCandidates n).filter fun a => !member a s.exc).flatMap fun a => probeEvents s.cfg.probeByte a (f a) :=
          List.flatMap_congr fun a hx => by simp only [hnot a hx, if_false]
        simp only [hp, Run.bind_done, hr, List.filter_cons, hm, Bool.not_false, if_true, List.flatMap_cons, h1, h2]
        cases st <;> simp

/-- What a scan body computes (R151) when the environment completes every call, `f a` being the answer to the probe of `a`. Where
the queue of the bus-write port holds an answer `g a` for each probe, these are the answers. -/
theorem scanBody_completes {s : State} (hi : s.init = true) (hc : s.env.Completes) :
    ∃ (f : Addr → BusStatus) (e' : Environment) (tx : List Byte), s.env.AfterScan e' ∧
      (∀ (g : Addr → BusStatus) w, s.env.writes = ((probed s.exc).map fun a => .done (g a)) ++ w →
        (∀ a ∈ probed s.exc, f a = g a) ∧ e'.writes = w) ∧
      scanBody s = .done () { s with
        dir := scanDirectory s.exc f
        new := scanDirectory s.exc f
        cand := 128
        seq := .sDone
        txbuf := tx
        env := e'
        trace := s.trace ++ scanEvents s.cfg.probeByte s.exc f } := by
  obtain ⟨q, hq, hr⟩ := resetPhase_completes (s := s.startScan) hc
  obtain ⟨f, e', tx, ha, hg, hl⟩ := scanLoop_completes 127
    (s := (((s.startScan.enter .sReset).setResets q).record .reset).enter .sNext) hi (hc.ofResets hq) (by simp)
  refine ⟨f, e', tx, ⟨ha.completes, ha.reads, ha.delays, ha.seed⟩, ?_, ?_⟩
  · rw [probed_eq]
    exact hg
  · rw [scanBody, hr, Run.bind_done, scanRest]
    rw [show State.candLeft _ = 127 from rfl, hl, Run.bind_done]
    simp [scanDirectory, scanEvents, probed_eq, State.record, State.replaceDir, State.startScan, State.setResets, State.enter]

end Sys2Proof.Machine
end

