-- ==== Sys2Proof/Laws/Catalog.lean ====
section
/-! SUPPORT. Everything the two builders of the catalog can do, said once: the cases of a class W and of a class R command, and
their results where the environment's answers are known. -/

namespace Sys2Proof.Machine

/-- The state in which a command's frame stands in TXBUF and its `BusWrite` has had its turn. -/
def State.framed (s : State) (j : Job) (bytes : List Byte) (q : List (Completion BusStatus)) : State :=
  ((s.withJob j).enterWrite bytes).setWrites q

/-- The state after the frame has been written and answered with `st`. -/
def State.written (s : State) (j : Job) (bytes : List Byte) (q : List (Completion BusStatus)) (st : BusStatus) : State :=
  (s.framed j bytes q).record (.write s.addr bytes st)

@[simp] theorem State.framed_cfg (s : State) (j : Job) (b : List Byte) (q : List (Completion BusStatus)) :
    (s.framed j b q).cfg = s.cfg := rfl
@[simp] theorem State.framed_host (s : State) (j : Job) (b : List Byte) (q : List (Completion BusStatus)) :
    (s.framed j b q).host = s.host := rfl
@[simp] theorem State.framed_resp (s : State) (j : Job) (b : List Byte) (q : List (Completion BusStatus)) :
    (s.framed j b q).resp = s.resp := rfl
@[simp] theorem State.framed_init (s : State) (j : Job) (b : List Byte) (q : List (Completion BusStatus)) :
    (s.framed j b q).init = s.init := rfl
@[simp] theorem State.framed_dir (s : State) (j : Job) (b : List Byte) (q : List (Completion BusStatus)) :
    (s.framed j b q).dir = s.dir := rfl
@[simp] theorem State.framed_exc (s : State) (j : Job) (b : List Byte) (q : List (Completion BusStatus)) :
    (s.framed j b q).exc = s.exc := rfl
@[simp] theorem State.framed_cand (s : State) (j : Job) (b : List Byte) (q : List (Completion BusStatus)) :
    (s.framed j b q).cand = s.cand := rfl
@[simp] theorem State.framed_new (s : State) (j : Job) (b : List Byte) (q : List (Completion BusStatus)) :
    (s.framed j b q).new = s.new := rfl
@[simp] theorem State.framed_addr (s : State) (j : Job) (b : List Byte) (q : List (Completion BusStatus)) :
    (s.framed j b q).addr = s.addr := rfl
@[simp] theorem State.framed_past (s : State) (j : Job) (b : List Byte) (q : List (Completion BusStatus)) :
    (s.framed j b q).past = s.past := rfl
@[simp] theorem State.framed_seq (s : State) (j : Job) (b : List Byte) (q : List (Completion BusStatus)) :
    (s.framed j b q).seq = .tWrite := rfl
@[simp] theorem State.framed_txbuf (s : State) (j : Job) (b : List Byte) (q : List (Completion BusStatus)) :
    (s.framed j b q).txbuf = b := rfl
@[simp] theorem State.framed_job (s : State) (j : Job) (b : List Byte) (q : List (Completion BusStatus)) :
    (s.framed j b q).job = j := rfl
@[simp] theorem State.framed_trace (s : State) (j : Job) (b : List Byte) (q : List (Completion BusStatus)) :
    (s.framed j b q).trace = s.trace := rfl
@[simp] theorem State.framed_rxbuf (s : State) (j : Job) (b : List Byte) (q : List (Completion BusStatus)) :
    (s.framed j b q).rxbuf = s.rxbuf := rfl

@[simp] theorem State.written_cfg (s : State) (j : Job) (b : List Byte) (q : List (Completion BusStatus)) (st : BusStatus) :
    (s.written j b q st).cfg = s.cfg := by simp [State.written]
@[simp] theorem State.written_host (s : State) (j : Job) (b : List Byte) (q : List (Completion BusStatus)) (st : BusStatus) :
    (s.written j b q st).host = s.host := by simp [State.written]
@[simp] theorem State.written_resp (s : State) (j : Job) (b : List Byte) (q : List (Completion BusStatus)) (st : BusStatus) :
    (s.written j b q st).resp = s.resp := by simp [State.written]
@[simp] theorem State.written_init (s : State) (j : Job) (b : List Byte) (q : List (Completion BusStatus)) (st : BusStatus) :
    (s.written j b q st).init = s.init := by simp [State.written]
@[simp] theorem State.written_dir (s : State) (j : Job) (b : List Byte) (q : List (Completion BusStatus)) (st : BusStatus) :
    (s.written j b q st).dir = s.dir := by simp [State.written]
@[simp] theorem State.written_exc (s : State) (j : Job) (b : List Byte) (q : List (Completion BusStatus)) (st : BusStatus) :
    (s.written j b q st).exc = s.exc := by simp [State.written]
@[simp] theorem State.written_cand (s : State) (j : Job) (b : List Byte) (q : List (Completion BusStatus)) (st : BusStatus) :
    (s.written j b q st).cand = s.cand := by simp [State.written]
@[simp] theorem State.written_new (s : State) (j : Job) (b : List Byte) (q : List (Completion BusStatus)) (st : BusStatus) :
    (s.written j b q st).new = s.new := by simp [State.written]
@[simp] theorem State.written_addr (s : State) (j : Job) (b : List Byte) (q : List (Completion BusStatus)) (st : BusStatus) :
    (s.written j b q st).addr = s.addr := by simp [State.written]
@[simp] theorem State.written_past (s : State) (j : Job) (b : List Byte) (q : List (Completion BusStatus)) (st : BusStatus) :
    (s.written j b q st).past = s.past := by simp [State.written]
@[simp] theorem State.written_seq (s : State) (j : Job) (b : List Byte) (q : List (Completion BusStatus)) (st : BusStatus) :
    (s.written j b q st).seq = .tWrite := by simp [State.written]
@[simp] theorem State.written_txbuf (s : State) (j : Job) (b : List Byte) (q : List (Completion BusStatus)) (st : BusStatus) :
    (s.written j b q st).txbuf = b := by simp [State.written]
@[simp] theorem State.written_job (s : State) (j : Job) (b : List Byte) (q : List (Completion BusStatus)) (st : BusStatus) :
    (s.written j b q st).job = j := by simp [State.written]
@[simp] theorem State.written_rxbuf (s : State) (j : Job) (b : List Byte) (q : List (Completion BusStatus)) (st : BusStatus) :
    (s.written j b q st).rxbuf = s.rxbuf := by simp [State.written]
@[simp] theorem State.written_trace (s : State) (j : Job) (b : List Byte) (q : List (Completion BusStatus)) (st : BusStatus) :
    (s.written j b q st).trace = s.trace ++ [.write s.addr b st] := by simp [State.written]

/-- A class W command is one of: not ready, refused, waiting for its write, or done with the status of its write (R192). -/
theorem writeCommand_cases (c : WCmd) (ps : List Byte) (legal : Bool) (s : State) :
    (s.init = false ∧ writeCommand c ps legal s = s.completePlain .notReady) ∨
    (s.init = true ∧ legal = false ∧ writeCommand c ps legal s = s.completePlain .badArg) ∨
    (s.init = true ∧ legal = true ∧ ∃ q, writeCommand c ps legal s = s.framed (.write c) (frame s.cfg (.w c) ps) q) ∨
    (s.init = true ∧ legal = true ∧ ∃ q st,
      writeCommand c ps legal s = (s.written (.write c) (frame s.cfg (.w c) ps) q st).completePlain (writeStatus st)) := by
  unfold writeCommand
  cases hi : s.init with
  | false => exact .inl ⟨rfl, rfl⟩
  | true =>
    cases legal with
    | false => exact .inr (.inl ⟨rfl, rfl, rfl⟩)
    | true =>
      have h := writePhase_sat s.addr (frame s.cfg (.w c) ps) (s := s.withJob (.write c)) hi
      simp only [Bool.true_eq_false, if_false]
      revert h
      cases writePhase s.addr (frame s.cfg (.w c) ps) (s.withJob (.write c)) with
      | waiting t =>
        rintro ⟨q, rfl⟩
        exact .inr (.inr (.inl ⟨trivial, trivial, q, rfl⟩))
      | done r t =>
        rintro ⟨st, q, rfl, rfl⟩
        exact .inr (.inr (.inr ⟨trivial, trivial, q, st, rfl⟩))

/-- A class W command whose write the environment answers (R192). -/
theorem writeCommand_answered {c : WCmd} {ps : List Byte} {s : State} {st : BusStatus} {q : List (Completion BusStatus)}
    (hi : s.init = true) (ht : s.writeTurn s.addr (frame s.cfg (.w c) ps) = (some st, q)) :
    writeCommand c ps true s = (s.written (.write c) (frame s.cfg (.w c) ps) q st).completePlain (writeStatus st) := by
  have h := writePhase_answered (s := s.withJob (.write c)) hi ht
  simp only [writeCommand, hi, Bool.true_eq_false, if_false]
  rw [h]
  rfl

/-- The state after the delay of a class R command whose write was answered `OK`. -/
def State.delayed (s : State) (c : RCmd) (q : List (Completion BusStatus)) (q' : List (Completion Unit)) : State :=
  (((s.written (.read c) (frame s.cfg (.r c) []) q .ok).enter .tDelay).setDelays q').record (.delay (s.cfg.delayMs.get c))

/-- The state after the read of a class R command. -/
def State.readBack (s : State) (c : RCmd) (q : List (Completion BusStatus)) (q' : List (Completion Unit))
    (q'' : List (Completion (BusStatus × List Byte))) (st : BusStatus) (r : List Byte) : State :=
  ((((s.delayed c q q').enter .tRead).setReads q'').record (.read s.addr (s.cfg.rlen c) st r)).received r

@[simp] theorem State.delayed_cfg (s : State) (c : RCmd) (q : List (Completion BusStatus)) (q1 : List (Completion Unit)) :
    (s.delayed c q q1).cfg = s.cfg := by simp [State.delayed]
@[simp] theorem State.delayed_host (s : State) (c : RCmd) (q : List (Completion BusStatus)) (q1 : List (Completion Unit)) :
    (s.delayed c q q1).host = s.host := by simp [State.delayed]
@[simp] theorem State.delayed_resp (s : State) (c : RCmd) (q : List (Completion BusStatus)) (q1 : List (Completion Unit)) :
    (s.delayed c q q1).resp = s.resp := by simp [State.delayed]
@[simp] theorem State.delayed_init (s : State) (c : RCmd) (q : List (Completion BusStatus)) (q1 : List (Completion Unit)) :
    (s.delayed c q q1).init = s.init := by simp [State.delayed]
@[simp] theorem State.delayed_dir (s : State) (c : RCmd) (q : List (Completion BusStatus)) (q1 : List (Completion Unit)) :
    (s.delayed c q q1).dir = s.dir := by simp [State.delayed]
@[simp] theorem State.delayed_exc (s : State) (c : RCmd) (q : List (Completion BusStatus)) (q1 : List (Completion Unit)) :
    (s.delayed c q q1).exc = s.exc := by simp [State.delayed]
@[simp] theorem State.delayed_cand (s : State) (c : RCmd) (q : List (Completion BusStatus)) (q1 : List (Completion Unit)) :
    (s.delayed c q q1).cand = s.cand := by simp [State.delayed]
@[simp] theorem State.delayed_new (s : State) (c : RCmd) (q : List (Completion BusStatus)) (q1 : List (Completion Unit)) :
    (s.delayed c q q1).new = s.new := by simp [State.delayed]
@[simp] theorem State.delayed_addr (s : State) (c : RCmd) (q : List (Completion BusStatus)) (q1 : List (Completion Unit)) :
    (s.delayed c q q1).addr = s.addr := by simp [State.delayed]
@[simp] theorem State.delayed_past (s : State) (c : RCmd) (q : List (Completion BusStatus)) (q1 : List (Completion Unit)) :
    (s.delayed c q q1).past = s.past := by simp [State.delayed]
@[simp] theorem State.delayed_job (s : State) (c : RCmd) (q : List (Completion BusStatus)) (q1 : List (Completion Unit)) :
    (s.delayed c q q1).job = .read c := by simp [State.delayed]
@[simp] theorem State.delayed_trace (s : State) (c : RCmd) (q : List (Completion BusStatus)) (q1 : List (Completion Unit)) :
    (s.delayed c q q1).trace =
      s.trace ++ [.write s.addr (frame s.cfg (.r c) []) .ok] ++ [.delay (s.cfg.delayMs.get c)] := by simp [State.delayed]

@[simp] theorem State.readBack_cfg (s : State) (c : RCmd) (q : List (Completion BusStatus)) (q1 : List (Completion Unit))
    (q2 : List (Completion (BusStatus × List Byte))) (st : BusStatus) (r : List Byte) :
    (s.readBack c q q1 q2 st r).cfg = s.cfg := by simp [State.readBack]
@[simp] theorem State.readBack_host (s : State) (c : RCmd) (q : List (Completion BusStatus)) (q1 : List (Completion Unit))
    (q2 : List (Completion (BusStatus × List Byte))) (st : BusStatus) (r : List Byte) :
    (s.readBack c q q1 q2 st r).host = s.host := by simp [State.readBack]
@[simp] theorem State.readBack_resp (s : State) (c : RCmd) (q : List (Completion BusStatus)) (q1 : List (Completion Unit))
    (q2 : List (Completion (BusStatus × List Byte))) (st : BusStatus) (r : List Byte) :
    (s.readBack c q q1 q2 st r).resp = s.resp := by simp [State.readBack]
@[simp] theorem State.readBack_init (s : State) (c : RCmd) (q : List (Completion BusStatus)) (q1 : List (Completion Unit))
    (q2 : List (Completion (BusStatus × List Byte))) (st : BusStatus) (r : List Byte) :
    (s.readBack c q q1 q2 st r).init = s.init := by simp [State.readBack]
@[simp] theorem State.readBack_dir (s : State) (c : RCmd) (q : List (Completion BusStatus)) (q1 : List (Completion Unit))
    (q2 : List (Completion (BusStatus × List Byte))) (st : BusStatus) (r : List Byte) :
    (s.readBack c q q1 q2 st r).dir = s.dir := by simp [State.readBack]
@[simp] theorem State.readBack_exc (s : State) (c : RCmd) (q : List (Completion BusStatus)) (q1 : List (Completion Unit))
    (q2 : List (Completion (BusStatus × List Byte))) (st : BusStatus) (r : List Byte) :
    (s.readBack c q q1 q2 st r).exc = s.exc := by simp [State.readBack]
@[simp] theorem State.readBack_cand (s : State) (c : RCmd) (q : List (Completion BusStatus)) (q1 : List (Completion Unit))
    (q2 : List (Completion (BusStatus × List Byte))) (st : BusStatus) (r : List Byte) :
    (s.readBack c q q1 q2 st r).cand = s.cand := by simp [State.readBack]
@[simp] theorem State.readBack_new (s : State) (c : RCmd) (q : List (Completion BusStatus)) (q1 : List (Completion Unit))
    (q2 : List (Completion (BusStatus × List Byte))) (st : BusStatus) (r : List Byte) :
    (s.readBack c q q1 q2 st r).new = s.new := by simp [State.readBack]
@[simp] theorem State.readBack_addr (s : State) (c : RCmd) (q : List (Completion BusStatus)) (q1 : List (Completion Unit))
    (q2 : List (Completion (BusStatus × List Byte))) (st : BusStatus) (r : List Byte) :
    (s.readBack c q q1 q2 st r).addr = s.addr := by simp [State.readBack]
@[simp] theorem State.readBack_past (s : State) (c : RCmd) (q : List (Completion BusStatus)) (q1 : List (Completion Unit))
    (q2 : List (Completion (BusStatus × List Byte))) (st : BusStatus) (r : List Byte) :
    (s.readBack c q q1 q2 st r).past = s.past := by simp [State.readBack]
@[simp] theorem State.readBack_job (s : State) (c : RCmd) (q : List (Completion BusStatus)) (q1 : List (Completion Unit))
    (q2 : List (Completion (BusStatus × List Byte))) (st : BusStatus) (r : List Byte) :
    (s.readBack c q q1 q2 st r).job = .read c := by simp [State.readBack]
@[simp] theorem State.readBack_trace (s : State) (c : RCmd) (q : List (Completion BusStatus)) (q1 : List (Completion Unit))
    (q2 : List (Completion (BusStatus × List Byte))) (st : BusStatus) (r : List Byte) :
    (s.readBack c q q1 q2 st r).trace = s.trace ++ [.write s.addr (frame s.cfg (.r c) []) .ok] ++
      [.delay (s.cfg.delayMs.get c)] ++ [.read s.addr (s.cfg.rlen c) st r] := by simp [State.readBack]

/-- What a class R command reports of a read answered with `st` and `r` (R91, R194, R241). -/
def readReport (g : Cfg) (c : RCmd) (st : BusStatus) (r : List Byte) (t : State) : State :=
  if st = .ok ∧ r.length = g.rlen c ∧ g.respCheck.accepts c r = true then t.complete .ok (decodeResponse c r) []
  else t.completePlain .fail

theorem finishRead_report (c : RCmd) (st : BusStatus) (r : List Byte) (t : State) :
    finishRead c (if st = .ok ∧ r.length = t.cfg.rlen c then .ok r else .fail) t = readReport t.cfg c st r t := by
  unfold finishRead readReport
  by_cases h : st = .ok ∧ r.length = t.cfg.rlen c
  · rw [if_pos h]
    simp [Cfg.respValid, h]
  · rw [if_neg h, if_neg fun k => h ⟨k.1, k.2.1⟩]

/-- The rest of a class R command from its read on. -/
theorem readTail_cases (c : RCmd) (s : State) :
    (∃ q, (readPhase s.addr (s.cfg.rlen c) s).finish (fun x s => finishRead c x s) = (s.enter .tRead).setReads q) ∨
    (∃ q st r, r.length ≤ s.cfg.rlen c ∧
      (readPhase s.addr (s.cfg.rlen c) s).finish (fun x s => finishRead c x s) =
        readReport s.cfg c st r ((((s.enter .tRead).setReads q).record (.read s.addr (s.cfg.rlen c) st r)).received r)) := by
  have h := readPhase_sat s.addr (s.cfg.rlen c) s
  revert h
  cases readPhase s.addr (s.cfg.rlen c) s with
  | waiting t =>
    rintro ⟨q, rfl⟩
    exact .inl ⟨q, rfl⟩
  | done x t =>
    rintro ⟨st, r, q, hl, rfl, rfl⟩
    have k := finishRead_report c st r ((((s.enter .tRead).setReads q).record (.read s.addr (s.cfg.rlen c) st r)).received r)
    exact .inr ⟨q, st, r, hl, k⟩

/-- The rest of a class R command from its delay on. -/
theorem delayTail_cases (c : RCmd) (s : State) :
    (∃ q, (delayPhase s.addr (s.cfg.rlen c) (s.cfg.delayMs.get c) s).finish (fun x s => finishRead c x s) =
      (s.enter .tDelay).setDelays q) ∨
    (∃ q, (delayPhase s.addr (s.cfg.rlen c) (s.cfg.delayMs.get c) s).finish (fun x s => finishRead c x s) =
      (readPhase s.addr (s.cfg.rlen c) (((s.enter .tDelay).setDelays q).record (.delay (s.cfg.delayMs.get c)))).finish
        fun x s => finishRead c x s) := by
  have h := busDelay_sat (s.cfg.delayMs.get c) (s.enter .tDelay)
  unfold delayPhase
  revert h
  cases busDelay (s.cfg.delayMs.get c) (s.enter .tDelay) with
  | waiting t =>
    rintro ⟨q, rfl⟩
    exact .inl ⟨q, rfl⟩
  | done x t =>
    rintro ⟨q, rfl⟩
    exact .inr ⟨q, rfl⟩

/-- A class R command is one of: not ready, refused, waiting for its write, failed by its write, waiting for its delay, waiting for
its read, or done with what its read reports (R194). -/
theorem readCommand_cases (c : RCmd) (s : State) :
    (s.init = false ∧ readCommand c s = s.completePlain .notReady) ∨
    (s.init = true ∧ s.addr = 0 ∧ readCommand c s = s.completePlain .badArg) ∨
    (s.init = true ∧ s.addr ≠ 0 ∧
      ((∃ q, readCommand c s = s.framed (.read c) (frame s.cfg (.r c) []) q) ∨
       (∃ q, readCommand c s = (s.written (.read c) (frame s.cfg (.r c) []) q .err).completePlain .fail) ∨
       (∃ q q', readCommand c s = ((s.written (.read c) (frame s.cfg (.r c) []) q .ok).enter .tDelay).setDelays q') ∨
       (∃ q q' q'', readCommand c s = ((s.delayed c q q').enter .tRead).setReads q'') ∨
       (∃ q q' q'' st r, r.length ≤ s.cfg.rlen c ∧
         readCommand c s = readReport s.cfg c st r (s.readBack c q q' q'' st r)))) := by
  unfold readCommand
  cases hi : s.init with
  | false => exact .inl ⟨rfl, rfl⟩
  | true =>
    by_cases ha : s.addr = 0
    · exact .inr (.inl ⟨rfl, ha, by rw [if_neg (by simp), if_pos ha]⟩)
    · refine .inr (.inr ⟨rfl, ha, ?_⟩)
      simp only [Bool.true_eq_false, if_false, if_neg ha, transact, Run.finish_bind]
      have h := writePhase_sat s.addr (frame s.cfg (.r c) []) (s := s.withJob (.read c)) hi
      revert h
      cases writePhase s.addr (frame s.cfg (.r c) []) (s.withJob (.read c)) with
      | waiting t =>
        rintro ⟨q, rfl⟩
        exact .inl ⟨q, rfl⟩
      | done x t =>
        rintro ⟨st, q, rfl, rfl⟩
        refine .inr ?_
        cases st with
        | err => exact .inl ⟨q, rfl⟩
        | ok =>
          refine .inr ?_
          have hw := delayTail_cases c (s.written (.read c) (frame s.cfg (.r c) []) q .ok)
          simp only [State.written_addr, State.written_cfg] at hw
          rcases hw with ⟨q', h⟩ | ⟨q', h⟩
          · exact .inl ⟨q, q', h⟩
          · refine .inr ?_
            have hr := readTail_cases c (s.delayed c q q')
            simp only [State.delayed_addr, State.delayed_cfg] at hr
            rcases hr with ⟨q'', k⟩ | ⟨q'', st, r, hl, k⟩
            · exact .inl ⟨q, q', q'', h.trans k⟩
            · exact .inr ⟨q, q', q'', st, r, hl, h.trans k⟩

/-- A class R command whose write the environment answers with `ERR` (R111 (3)). -/
theorem readCommand_writeFails {c : RCmd} {s : State} {q : List (Completion BusStatus)} (hi : s.init = true) (ha : s.addr ≠ 0)
    (ht : s.writeTurn s.addr (frame s.cfg (.r c) []) = (some .err, q)) :
    readCommand c s = (s.written (.read c) (frame s.cfg (.r c) []) q .err).completePlain .fail := by
  have h := writePhase_answered (s := s.withJob (.read c)) hi ht
  simp only [readCommand, hi, Bool.true_eq_false, if_false, if_neg ha, transact]
  rw [h]
  rfl

/-- A class R command whose write, delay and read the environment answers (R194). -/
theorem readCommand_answered {c : RCmd} {s : State} {q : List (Completion BusStatus)} {q' : List (Completion Unit)}
    {q'' : List (Completion (BusStatus × List Byte))} {st : BusStatus} {r : List Byte} (hi : s.init = true) (ha : s.addr ≠ 0)
    (hw : s.writeTurn s.addr (frame s.cfg (.r c) []) = (some .ok, q))
    (hd : takeAnswer () s.env.delays = (some (), q'))
    (hr : (s.delayed c q q').readTurn s.addr (s.cfg.rlen c) = (some (st, r), q'')) :
    readCommand c s =
      readReport s.cfg c st (r.take (s.cfg.rlen c)) (s.readBack c q q' q'' st (r.take (s.cfg.rlen c))) := by
  have h := writePhase_answered (s := s.withJob (.read c)) hi hw
  have h2 := busDelay_answered (d := s.cfg.delayMs.get c)
    (s := (s.written (.read c) (frame s.cfg (.r c) []) q .ok).enter .tDelay) hd
  have h3 := busRead_answered (a := s.addr) (n := s.cfg.rlen c) (s := (s.delayed c q q').enter .tRead) hr
  simp only [readCommand, hi, Bool.true_eq_false, if_false, if_neg ha, transact]
  rw [h]
  change (((busDelay (s.cfg.delayMs.get c) ((s.written (.read c) (frame s.cfg (.r c) []) q .ok).enter .tDelay)).bind
    fun _ t => readPhase s.addr (s.cfg.rlen c) t).finish fun x s => finishRead c x s) = _
  rw [h2]
  change ((busRead s.addr (s.cfg.rlen c) ((s.delayed c q q').enter .tRead)).bind fun ans t =>
    if ans.1 = .ok ∧ ans.2.length = s.cfg.rlen c then Run.done (.ok ans.2) (t.received ans.2)
    else Run.done .fail (t.received ans.2)).finish (fun x s => finishRead c x s) = _
  rw [h3]
  have key := finishRead_report c st (r.take (s.cfg.rlen c)) (s.readBack c q q' q'' st (r.take (s.cfg.rlen c)))
  rw [State.readBack_cfg] at key
  rw [← key, Run.bind_done]
  by_cases hc : st = .ok ∧ (r.take (s.cfg.rlen c)).length = s.cfg.rlen c
  · rw [if_pos hc, if_pos hc]
    rfl
  · rw [if_neg hc, if_neg hc]
    rfl

end Sys2Proof.Machine
end

