-- ==== Sys2Proof/Laws/PerInstr.lean ====
section
/-! SUPPORT. The per-instruction family `FramedOrRequested`: an operation is encoded either as a request message that fits the host
port and has an `OP` of the table, or as the bytes of one `BusWrite` of a length R62 allows, which are a frame with its marker and
its own length wherever they are more than the probe. -/

namespace Sys2Proof.Laws.FramedOrRequested

/-- The form of an operation's encoded word (spec 20_memory.md R62, 30_encoding.md R81, R84). -/
def Statement (i : Instr) : Prop :=
  ∀ g : Cfg, match encode g i with
    | .request r => r.op.toNat ≤ 0x20 ∧ (i.wellFormed = true → r.wellFormed = true)
    | .bus b => b.length ∈ [1, 3, 4, 5, 7] ∧
        (b.length ≠ 1 → b.head? = some Config.marker ∧ b[1]? = some (BitVec.ofNat 8 b.length))

theorem init (caps : BitVec 4) : Statement (.init caps) := fun _ => ⟨Nat.le_of_ble_eq_true rfl, fun _ => rfl⟩
theorem setExclusions (count : Byte) (list : List Addr) : Statement (.setExclusions count list) := by
  intro g
  refine ⟨Nat.le_of_ble_eq_true rfl, fun h => ?_⟩
  simp only [Instr.wellFormed, listFits, beq_iff_eq] at h
  simp only [Request.wellFormed, decide_eq_true_eq, h]
  exact Nat.min_le_right _ _
theorem scan : Statement .scan := fun _ => ⟨Nat.le_of_ble_eq_true rfl, fun _ => rfl⟩
theorem allocate (d : Addr) : Statement (.allocate d) := fun _ => ⟨Nat.le_of_ble_eq_true rfl, fun _ => rfl⟩
theorem getDirectory : Statement .getDirectory := fun _ => ⟨Nat.le_of_ble_eq_true rfl, fun _ => rfl⟩
theorem getExclusions : Statement .getExclusions := fun _ => ⟨Nat.le_of_ble_eq_true rfl, fun _ => rfl⟩
theorem readMeasurement (addr : Addr) : Statement (.readMeasurement addr) := fun _ => ⟨Nat.le_of_ble_eq_true rfl, fun _ => rfl⟩
theorem readVersion (addr : Addr) : Statement (.readVersion addr) := fun _ => ⟨Nat.le_of_ble_eq_true rfl, fun _ => rfl⟩
theorem softReset (addr : Addr) : Statement (.softReset addr) := fun _ => ⟨Nat.le_of_ble_eq_true rfl, fun _ => rfl⟩
theorem getSampleRate (addr : Addr) : Statement (.getSampleRate addr) := fun _ => ⟨Nat.le_of_ble_eq_true rfl, fun _ => rfl⟩
theorem setSampleRate (addr : Addr) (rate : Half) : Statement (.setSampleRate addr rate) := fun _ => ⟨Nat.le_of_ble_eq_true rfl, fun _ => rfl⟩
theorem trigger (addr : Addr) : Statement (.trigger addr) := fun _ => ⟨Nat.le_of_ble_eq_true rfl, fun _ => rfl⟩
theorem setEnable (addr : Addr) (en : BitVec 1) : Statement (.setEnable addr en) := fun _ => ⟨Nat.le_of_ble_eq_true rfl, fun _ => rfl⟩
theorem getStatus (addr : Addr) : Statement (.getStatus addr) := fun _ => ⟨Nat.le_of_ble_eq_true rfl, fun _ => rfl⟩
theorem setSlaveAddress (addr : Addr) (new : Addr) : Statement (.setSlaveAddress addr new) := fun _ => ⟨Nat.le_of_ble_eq_true rfl, fun _ => rfl⟩
theorem getSlaveAddress (addr : Addr) : Statement (.getSlaveAddress addr) := fun _ => ⟨Nat.le_of_ble_eq_true rfl, fun _ => rfl⟩
theorem restoreDefaults (addr : Addr) : Statement (.restoreDefaults addr) := fun _ => ⟨Nat.le_of_ble_eq_true rfl, fun _ => rfl⟩
theorem saveSettings (addr : Addr) : Statement (.saveSettings addr) := fun _ => ⟨Nat.le_of_ble_eq_true rfl, fun _ => rfl⟩
theorem getAmpThreshold (addr : Addr) : Statement (.getAmpThreshold addr) := fun _ => ⟨Nat.le_of_ble_eq_true rfl, fun _ => rfl⟩
theorem setAmpThreshold (addr : Addr) (thr : Half) : Statement (.setAmpThreshold addr thr) := fun _ => ⟨Nat.le_of_ble_eq_true rfl, fun _ => rfl⟩
theorem getDistanceLimits (addr : Addr) : Statement (.getDistanceLimits addr) := fun _ => ⟨Nat.le_of_ble_eq_true rfl, fun _ => rfl⟩
theorem setDistanceLimits (addr : Addr) (min : Half) (max : Half) : Statement (.setDistanceLimits addr min max) := fun _ => ⟨Nat.le_of_ble_eq_true rfl, fun _ => rfl⟩
theorem timestampSync (addr : Addr) (ts : Word) : Statement (.timestampSync addr ts) := fun _ => ⟨Nat.le_of_ble_eq_true rfl, fun _ => rfl⟩
theorem frameReadMeasurement : Statement .frameReadMeasurement := fun _ => ⟨by simp [frame], fun _ => ⟨rfl, rfl⟩⟩
theorem frameReadVersion : Statement .frameReadVersion := fun _ => ⟨by simp [frame], fun _ => ⟨rfl, rfl⟩⟩
theorem frameSoftReset : Statement .frameSoftReset := fun _ => ⟨by simp [frame], fun _ => ⟨rfl, rfl⟩⟩
theorem frameGetSampleRate : Statement .frameGetSampleRate := fun _ => ⟨by simp [frame], fun _ => ⟨rfl, rfl⟩⟩
theorem frameSetSampleRate (rate : Half) : Statement (.frameSetSampleRate rate) := fun _ => ⟨by simp [frame, le16], fun _ => ⟨rfl, rfl⟩⟩
theorem frameTrigger : Statement .frameTrigger := fun _ => ⟨by simp [frame], fun _ => ⟨rfl, rfl⟩⟩
theorem frameSetEnable (en : BitVec 1) : Statement (.frameSetEnable en) := fun _ => ⟨by simp [frame], fun _ => ⟨rfl, rfl⟩⟩
theorem frameGetStatus : Statement .frameGetStatus := fun _ => ⟨by simp [frame], fun _ => ⟨rfl, rfl⟩⟩
theorem frameSetSlaveAddress (new : Addr) : Statement (.frameSetSlaveAddress new) := fun _ => ⟨by simp [frame], fun _ => ⟨rfl, rfl⟩⟩
theorem frameGetSlaveAddress : Statement .frameGetSlaveAddress := fun _ => ⟨by simp [frame], fun _ => ⟨rfl, rfl⟩⟩
theorem frameRestoreDefaults : Statement .frameRestoreDefaults := fun _ => ⟨by simp [frame], fun _ => ⟨rfl, rfl⟩⟩
theorem frameSaveSettings : Statement .frameSaveSettings := fun _ => ⟨by simp [frame], fun _ => ⟨rfl, rfl⟩⟩
theorem frameGetAmpThreshold : Statement .frameGetAmpThreshold := fun _ => ⟨by simp [frame], fun _ => ⟨rfl, rfl⟩⟩
theorem frameSetAmpThreshold (thr : Half) : Statement (.frameSetAmpThreshold thr) := fun _ => ⟨by simp [frame, le16], fun _ => ⟨rfl, rfl⟩⟩
theorem frameGetDistanceLimits : Statement .frameGetDistanceLimits := fun _ => ⟨by simp [frame], fun _ => ⟨rfl, rfl⟩⟩
theorem frameSetDistanceLimits (min : Half) (max : Half) : Statement (.frameSetDistanceLimits min max) := fun _ => ⟨by simp [frame, le16], fun _ => ⟨rfl, rfl⟩⟩
theorem frameTimestampSync (ts : Word) : Statement (.frameTimestampSync ts) := fun _ => ⟨by simp [frame, le32], fun _ => ⟨rfl, rfl⟩⟩
theorem probe : Statement .probe := fun _ => ⟨by simp [probeBytes], fun h => absurd rfl h⟩

end Sys2Proof.Laws.FramedOrRequested
end

