-- ==== Sys2Proof/Laws/Extends.lean ====
section
/-! SUPPORT. What no part of an operation writes, whatever the environment does: an operation extends the trace and leaves the configuration, the requests, the earlier trace, and, but for `INIT` and
`SET_EXCLUSIONS`, the flag and the exclusion list as they are. -/

namespace Sys2Proof.Machine

/-- `t` is a later state of the operation `s` is in: the trace goes on, and what no part of an operation writes is as before. -/
structure State.Extends (s t : State) : Prop where
  cfg : t.cfg = s.cfg
  host : t.host = s.host
  init : t.init = s.init
  exc : t.exc = s.exc
  past : t.past = s.past
  seed : t.env.seed = s.env.seed
  trace : ∃ evs, t.trace = s.trace ++ evs

theorem State.Extends.refl (s : State) : s.Extends s := ⟨rfl, rfl, rfl, rfl, rfl, rfl, [], by simp⟩

theorem State.Extends.trans {s t u : State} (h : s.Extends t) (k : t.Extends u) : s.Extends u := by
  obtain ⟨e, he⟩ := h.trace
  obtain ⟨f, hf⟩ := k.trace
  exact ⟨k.cfg.trans h.cfg, k.host.trans h.host, k.init.trans h.init, k.exc.trans h.exc, k.past.trans h.past,
    k.seed.trans h.seed, e ++ f, by rw [hf, he, List.append_assoc]⟩

/-- `t` is a later state of the same piece of an operation: the target and the response are as before too. -/
structure State.GoesOn (s t : State) : Prop extends State.Extends s t where
  resp : t.resp = s.resp
  addr : t.addr = s.addr

theorem State.GoesOn.refl (s : State) : s.GoesOn s := ⟨.refl s, rfl, rfl⟩

theorem State.GoesOn.trans {s t u : State} (h : s.GoesOn t) (k : t.GoesOn u) : s.GoesOn u :=
  ⟨h.toExtends.trans k.toExtends, k.resp.trans h.resp, k.addr.trans h.addr⟩

/-- `t` is a later state of a piece of an operation that uses the bus-write and the bus-reset port only. -/
structure State.Scans (s t : State) : Prop extends State.GoesOn s t where
  rxbuf : t.rxbuf = s.rxbuf
  reads : t.env.reads = s.env.reads
  delays : t.env.delays = s.env.delays

theorem State.Scans.refl (s : State) : s.Scans s := ⟨.refl s, rfl, rfl, rfl⟩

theorem State.Scans.trans {s t u : State} (h : s.Scans t) (k : t.Scans u) : s.Scans u :=
  ⟨h.toGoesOn.trans k.toGoesOn, k.rxbuf.trans h.rxbuf, k.reads.trans h.reads, k.delays.trans h.delays⟩

/-- A run of which every state is a later one of `s`. -/
abbrev Run.Ext {α : Type} (s : State) (x : Run α) : Prop := x.Sat (fun t => s.GoesOn t) (fun _ t => s.GoesOn t)

/-- The same, of a run that uses the bus-write and the bus-reset port only. -/
abbrev Run.Scan {α : Type} (s : State) (x : Run α) : Prop := x.Sat (fun t => s.Scans t) (fun _ t => s.Scans t)

section Compose
variable {α β : Type} {s t : State} {x : Run α} {f : α → State → Run β}

theorem Run.Ext.bind (h : x.Ext s) (hf : ∀ a t, (f a t).Ext t) : (x.bind f).Ext s :=
  Run.Sat.bind h fun a t ht => (hf a t).mono (fun _ k => ht.trans k) fun _ _ k => ht.trans k

theorem Run.Ext.after (h : s.GoesOn t) (hx : x.Ext t) : x.Ext s :=
  Run.Sat.mono hx (fun _ k => h.trans k) fun _ _ k => h.trans k

theorem Run.Scan.bind (h : x.Scan s) (hf : ∀ a t, (f a t).Scan t) : (x.bind f).Scan s :=
  Run.Sat.bind h fun a t ht => (hf a t).mono (fun _ k => ht.trans k) fun _ _ k => ht.trans k

theorem Run.Scan.after (h : s.Scans t) (hx : x.Scan t) : x.Scan s :=
  Run.Sat.mono hx (fun _ k => h.trans k) fun _ _ k => h.trans k

theorem Run.Scan.toExt (h : x.Scan s) : x.Ext s := Run.Sat.mono h (fun _ k => k.toGoesOn) fun _ _ k => k.toGoesOn

end Compose

/-- What an operation leaves: a state in which it waits, which is as `R` says, or a response with a status as `A` says, given in a
state that is as `R` says. -/
def State.Ends (R : State → Prop) (A : Status → Prop) (t : State) : Prop :=
  R t ∨ ∃ u st v l, R u ∧ A st ∧ t = u.complete st v l

theorem State.Ends.mono {R R' : State → Prop} {A A' : Status → Prop} {t : State} (h : State.Ends R A t)
    (hr : ∀ u, R u → R' u) (ha : ∀ st, A st → A' st) : State.Ends R' A' t := by
  rcases h with h | ⟨u, st, v, l, hu, hs, rfl⟩
  · exact .inl (hr _ h)
  · exact .inr ⟨u, st, v, l, hr u hu, ha st hs, rfl⟩

theorem Run.Scan.finish {α : Type} {s : State} {x : Run α} {k : α → State → State} {A : Status → Prop} (h : x.Scan s)
    (hk : ∀ a (t : State), State.Ends t.Scans A (k a t)) : State.Ends s.Scans A (x.finish k) :=
  Run.Sat.finish h (fun _ h => .inl h) fun a t h => (hk a t).mono (fun _ k => h.trans k) fun _ k => k

theorem Run.Ext.finish {α : Type} {s : State} {x : Run α} {k : α → State → State} {A : Status → Prop} (h : x.Ext s)
    (hk : ∀ a (t : State), State.Ends t.GoesOn A (k a t)) : State.Ends s.GoesOn A (x.finish k) :=
  Run.Sat.finish h (fun _ h => .inl h) fun a t h => (hk a t).mono (fun _ k => h.trans k) fun _ k => k

theorem State.extends_complete (s : State) (st : Status) (v : Val) (l : List Addr) : s.Extends (s.complete st v l) :=
  ⟨rfl, rfl, rfl, rfl, rfl, rfl, [], by simp [State.complete]⟩

theorem State.Ends.extends {s t : State} {A : Status → Prop} (h : State.Ends s.GoesOn A t) : s.Extends t := by
  rcases h with h | ⟨u, st, v, l, hu, -, rfl⟩
  · exact h.toExtends
  · exact hu.toExtends.trans (u.extends_complete st v l)

theorem State.Ends.scanExtends {s t : State} {A : Status → Prop} (h : State.Ends s.Scans A t) : s.Extends t :=
  State.Ends.extends (h.mono (fun _ k => k.toGoesOn) fun _ k => k)

theorem ends_complete {s : State} {A : Status → Prop} {st : Status} (h : A st) (v : Val) (l : List Addr) :
    State.Ends s.Scans A (s.complete st v l) := .inr ⟨s, st, v, l, .refl s, h, rfl⟩

theorem ends_completePlain {s : State} {A : Status → Prop} {st : Status} (h : A st) :
    State.Ends s.Scans A (s.completePlain st) := ends_complete h 0 []

/-! The parts. -/

theorem scans_of_trace {s t : State} (hg : t.cfg = s.cfg) (hh : t.host = s.host) (hi : t.init = s.init) (he : t.exc = s.exc)
    (hp : t.past = s.past) (hs : t.env.seed = s.env.seed) (hr : t.resp = s.resp) (ha : t.addr = s.addr)
    (hx : t.rxbuf = s.rxbuf) (hd : t.env.reads = s.env.reads) (hl : t.env.delays = s.env.delays) (evs : List BusEvent)
    (ht : t.trace = s.trace ++ evs) : s.Scans t :=
  ⟨⟨⟨hg, hh, hi, he, hp, hs, evs, ht⟩, hr, ha⟩, hx, hd, hl⟩

theorem scans_same {s t : State} (hg : t.cfg = s.cfg) (hh : t.host = s.host) (hi : t.init = s.init) (he : t.exc = s.exc)
    (hp : t.past = s.past) (hn : t.env = s.env) (hr : t.resp = s.resp) (ha : t.addr = s.addr)
    (hx : t.rxbuf = s.rxbuf) (ht : t.trace = s.trace) : s.Scans t :=
  scans_of_trace hg hh hi he hp (by rw [hn]) hr ha hx (by rw [hn]) (by rw [hn]) [] (by simp [ht])

theorem scans_enter (s : State) (p : Phase) : s.Scans (s.enter p) := scans_same rfl rfl rfl rfl rfl rfl rfl rfl rfl rfl
theorem scans_withJob (s : State) (j : Job) : s.Scans (s.withJob j) := scans_same rfl rfl rfl rfl rfl rfl rfl rfl rfl rfl
theorem scans_enterWrite (s : State) (b : List Byte) : s.Scans (s.enterWrite b) := scans_same rfl rfl rfl rfl rfl rfl rfl rfl rfl rfl
theorem scans_nextCand (s : State) : s.Scans s.nextCand := scans_same rfl rfl rfl rfl rfl rfl rfl rfl rfl rfl
theorem scans_found (s : State) : s.Scans s.found := scans_same rfl rfl rfl rfl rfl rfl rfl rfl rfl rfl
theorem scans_startScan (s : State) : s.Scans s.startScan := scans_same rfl rfl rfl rfl rfl rfl rfl rfl rfl rfl
theorem scans_replaceDir (s : State) : s.Scans s.replaceDir := scans_same rfl rfl rfl rfl rfl rfl rfl rfl rfl rfl
theorem scans_searched (s : State) (c : BitVec 8) : s.Scans (s.searched c) := scans_same rfl rfl rfl rfl rfl rfl rfl rfl rfl rfl

theorem extends_target (s : State) (a : Addr) : s.Extends (s.target a) := ⟨rfl, rfl, rfl, rfl, rfl, rfl, [], (List.append_nil _).symm⟩

theorem goesOn_received (s : State) (r : List Byte) : s.GoesOn (s.received r) :=
  ⟨⟨rfl, rfl, rfl, rfl, rfl, rfl, [], by simp⟩, rfl, rfl⟩

theorem scan_busWrite (a : Addr) (b : List Byte) (s : State) : (busWrite a b s).Scan s := by
  refine (busWrite_sat a b s).mono ?_ ?_
  · rintro t ⟨q, rfl⟩
    exact scans_of_trace rfl rfl rfl rfl rfl rfl rfl rfl rfl rfl rfl [] (by simp)
  · rintro st t ⟨q, rfl⟩
    exact scans_of_trace rfl rfl rfl rfl rfl rfl rfl rfl rfl rfl rfl [_] rfl

theorem scan_busReset (s : State) : (busReset s).Scan s := by
  refine (busReset_sat s).mono ?_ ?_
  · rintro t ⟨q, rfl⟩
    exact scans_of_trace rfl rfl rfl rfl rfl rfl rfl rfl rfl rfl rfl [] (by simp)
  · rintro st t ⟨q, rfl⟩
    exact scans_of_trace rfl rfl rfl rfl rfl rfl rfl rfl rfl rfl rfl [_] rfl

theorem ext_busRead (a : Addr) (n : Nat) (s : State) : (busRead a n s).Ext s := by
  refine (busRead_sat a n s).mono ?_ ?_
  · rintro t ⟨q, rfl⟩
    exact ⟨⟨rfl, rfl, rfl, rfl, rfl, rfl, [], by simp⟩, rfl, rfl⟩
  · rintro st t ⟨-, q, rfl⟩
    exact ⟨⟨rfl, rfl, rfl, rfl, rfl, rfl, [_], rfl⟩, rfl, rfl⟩

theorem ext_busDelay (d : Word) (s : State) : (busDelay d s).Ext s := by
  refine (busDelay_sat d s).mono ?_ ?_
  · rintro t ⟨q, rfl⟩
    exact ⟨⟨rfl, rfl, rfl, rfl, rfl, rfl, [], by simp⟩, rfl, rfl⟩
  · rintro st t ⟨q, rfl⟩
    exact ⟨⟨rfl, rfl, rfl, rfl, rfl, rfl, [_], rfl⟩, rfl, rfl⟩

theorem scan_writePhase (a : Addr) (b : List Byte) (s : State) : (writePhase a b s).Scan s := by
  unfold writePhase
  split
  · exact State.Scans.refl s
  · exact Run.Scan.bind ((scan_busWrite a b _).after (scans_enterWrite s b)) fun _ t => State.Scans.refl t

theorem ext_readPhase (a : Addr) (n : Nat) (s : State) : (readPhase a n s).Ext s := by
  refine Run.Ext.bind ((ext_busRead a n _).after (scans_enter s .tRead).toGoesOn) fun ans t => ?_
  split
  · exact goesOn_received t _
  · exact goesOn_received t _

theorem ext_delayPhase (a : Addr) (n : Nat) (d : Word) (s : State) : (delayPhase a n d s).Ext s :=
  Run.Ext.bind ((ext_busDelay d _).after (scans_enter s .tDelay).toGoesOn) fun _ t => ext_readPhase a n t

theorem scan_resetPhase (s : State) : (resetPhase s).Scan s :=
  Run.Scan.bind ((scan_busReset _).after (scans_enter s .sReset)) fun _ t => scans_enter t .sNext

theorem scan_probeCandidate (s : State) : (probeCandidate s).Scan s := by
  refine Run.Scan.bind (scan_writePhase _ _ s) fun st t => ?_
  split
  · exact (scans_found t).trans (scans_nextCand _)
  · exact (scan_resetPhase _).after (scans_nextCand t)

theorem scan_scanLoop (n : Nat) : ∀ s : State, (scanLoop n s).Scan s := by
  induction n with
  | zero => exact fun s => scans_enter s .sDone
  | succ n ih =>
    intro s
    rw [scanLoop]
    split
    · exact (ih _).after ((scans_nextCand s).trans (scans_enter _ _))
    · exact Run.Scan.bind (scan_probeCandidate s) fun _ t => ih t

theorem scan_scanRest (s : State) : (scanRest s).Scan s := Run.Scan.bind (scan_scanLoop _ s) fun _ t => scans_replaceDir t

theorem scan_scanBody (s : State) : (scanBody s).Scan s :=
  Run.Scan.bind ((scan_resetPhase _).after (scans_startScan s)) fun _ t => scan_scanRest t

/-! The ends of the scanning operations: the status is `OK`. -/

theorem ends_ok (s : State) (v : Val) (l : List Addr) : State.Ends s.Scans (fun st => st = .ok) (s.complete .ok v l) :=
  ends_complete (A := fun st => st = .ok) rfl v l

theorem ends_respondDirectory (s : State) : State.Ends s.Scans (· = .ok) (respondDirectory s) := ends_ok s 0 s.dir

theorem ends_reassign (a : Addr) (s : State) : State.Ends s.Scans (· = .ok) (reassign a s) :=
  Run.Scan.finish (Run.Scan.bind ((scan_writePhase _ _ _).after (scans_withJob s _)) fun _ t => scan_scanBody t)
    fun _ t => ends_respondDirectory t

theorem ends_searchPhase (s : State) : State.Ends s.Scans (· = .ok) (searchPhase s) := by
  have h := fun c => (scans_enter s .aSearch).trans (scans_searched _ c)
  unfold searchPhase
  split
  · exact (ends_respondDirectory _).mono (fun _ k => (h _).trans k) fun _ k => k
  · exact (ends_reassign _ _).mono (fun _ k => (h _).trans k) fun _ k => k

theorem ends_afterScan (s : State) : State.Ends s.Scans (· = .ok) (afterScan s) := by
  unfold afterScan
  split
  · split
    · exact ends_searchPhase s
    · exact ends_respondDirectory s
  · exact ends_respondDirectory s

/-! The ends of the catalog commands. -/

/-- The statuses of a class W command (R192, R244). -/
def writeStatuses (s : State) (legal : Bool) (st : Status) : Prop :=
  (s.init = false ∧ st = .notReady) ∨ (s.init = true ∧ legal = false ∧ st = .badArg) ∨ (s.init = true ∧ (st = .ok ∨ st = .fail))

/-- The statuses of a class R command (R194, R244). -/
def readStatuses (s : State) (st : Status) : Prop :=
  (s.init = false ∧ st = .notReady) ∨ (s.init = true ∧ s.addr = 0 ∧ st = .badArg) ∨ (s.init = true ∧ (st = .ok ∨ st = .fail))

theorem ends_writeCommand (c : WCmd) (ps : List Byte) (legal : Bool) (s : State) :
    State.Ends s.Scans (writeStatuses s legal) (writeCommand c ps legal s) := by
  rcases writeCommand_cases c ps legal s with ⟨h, e⟩ | ⟨h, k, e⟩ | ⟨h, k, q, e⟩ | ⟨h, k, q, st, e⟩ <;> rw [e]
  · exact ends_completePlain (.inl ⟨h, rfl⟩)
  · exact ends_completePlain (.inr (.inl ⟨h, k, rfl⟩))
  · exact .inl (scans_of_trace rfl rfl rfl rfl rfl rfl rfl rfl rfl rfl rfl [] (by simp))
  · refine .inr ⟨_, writeStatus st, 0, [], ?_, .inr (.inr ⟨h, by cases st <;> simp [writeStatus]⟩), rfl⟩
    exact scans_of_trace rfl rfl rfl rfl rfl rfl rfl rfl rfl rfl rfl [_] rfl

theorem ends_finishRead (c : RCmd) {A : Status → Prop} (ha : A .ok) (hf : A .fail) (x : Transacted) (s : State)
    (hx : x = .notReady → A .notReady) : State.Ends s.Scans A (finishRead c x s) := by
  cases x
  · simp only [finishRead]
    split
    · exact ends_complete ha _ _
    · exact ends_completePlain hf
  · exact ends_completePlain hf
  · exact ends_completePlain (hx rfl)

theorem ends_readReport {A : Status → Prop} (ha : A .ok) (hf : A .fail) (g : Cfg) (c : RCmd) (st : BusStatus) (r : List Byte)
    (s : State) : State.Ends s.Scans A (readReport g c st r s) := by
  unfold readReport
  split
  · exact ends_complete ha _ _
  · exact ends_completePlain hf

theorem goesOn_written (s : State) (j : Job) (b : List Byte) (q : List (Completion BusStatus)) (st : BusStatus) :
    s.GoesOn (s.written j b q st) :=
  ⟨⟨rfl, rfl, rfl, rfl, rfl, rfl, _, State.written_trace s j b q st⟩, rfl, rfl⟩

theorem goesOn_setDelays (s : State) (q : List (Completion Unit)) : s.GoesOn (s.setDelays q) :=
  ⟨⟨rfl, rfl, rfl, rfl, rfl, rfl, [], by simp⟩, rfl, rfl⟩

theorem goesOn_setReads (s : State) (q : List (Completion (BusStatus × List Byte))) : s.GoesOn (s.setReads q) :=
  ⟨⟨rfl, rfl, rfl, rfl, rfl, rfl, [], by simp⟩, rfl, rfl⟩

theorem goesOn_record (s : State) (e : BusEvent) : s.GoesOn (s.record e) :=
  ⟨⟨rfl, rfl, rfl, rfl, rfl, rfl, [e], rfl⟩, rfl, rfl⟩

theorem goesOn_delayed (s : State) (c : RCmd) (q : List (Completion BusStatus)) (q' : List (Completion Unit)) :
    s.GoesOn (s.delayed c q q') :=
  (((goesOn_written s _ _ q .ok).trans (scans_enter _ .tDelay).toGoesOn).trans (goesOn_setDelays _ q')).trans (goesOn_record _ _)

theorem goesOn_readBack (s : State) (c : RCmd) (q : List (Completion BusStatus)) (q' : List (Completion Unit))
    (q'' : List (Completion (BusStatus × List Byte))) (st : BusStatus) (r : List Byte) : s.GoesOn (s.readBack c q q' q'' st r) :=
  ((((goesOn_delayed s c q q').trans (scans_enter _ .tRead).toGoesOn).trans (goesOn_setReads _ q'')).trans
    (goesOn_record _ _)).trans (goesOn_received _ r)

theorem ends_readCommand (c : RCmd) (s : State) : State.Ends s.GoesOn (readStatuses s) (readCommand c s) := by
  rcases readCommand_cases c s with
    ⟨h, e⟩ | ⟨h, k, e⟩ | ⟨h, k, ⟨q, e⟩ | ⟨q, e⟩ | ⟨q, q', e⟩ | ⟨q, q', q'', e⟩ | ⟨q, q', q'', st, r, -, e⟩⟩ <;> rw [e]
  · exact (ends_completePlain (.inl ⟨h, rfl⟩)).mono (fun _ k => k.toGoesOn) fun _ k => k
  · exact (ends_completePlain (.inr (.inl ⟨h, k, rfl⟩))).mono (fun _ k => k.toGoesOn) fun _ k => k
  · exact .inl ⟨⟨rfl, rfl, rfl, rfl, rfl, rfl, [], by simp⟩, rfl, rfl⟩
  · exact (ends_completePlain (.inr (.inr ⟨h, .inr rfl⟩))).mono (fun _ k => (goesOn_written s _ _ q .err).trans k.toGoesOn) fun _ k => k
  · exact .inl (((goesOn_written s _ _ q .ok).trans (scans_enter _ .tDelay).toGoesOn).trans (goesOn_setDelays _ q'))
  · exact .inl (((goesOn_delayed s c q q').trans (scans_enter _ .tRead).toGoesOn).trans (goesOn_setReads _ q''))
  · refine (ends_readReport (.inr (.inr ⟨h, .inl rfl⟩)) (.inr (.inr ⟨h, .inr rfl⟩)) s.cfg c st r _).mono ?_ fun _ k => k
    exact fun u k => (goesOn_readBack s c q q' q'' st r).trans k.toGoesOn

/-! The instructions. -/

theorem ends_next {t u : State} {R : State → Prop} {A : Status → Prop}
    (h : (Host.Outcome.next u : Host.Outcome State Fault Refusal) = .next t) (k : State.Ends R A u) : State.Ends R A t := by
  cases h
  exact k

/-- The statuses of an operation that has no failure: `NOT_READY` if and only if `INIT` is 0 (R244). -/
def scanStatuses (s : State) (st : Status) : Prop := (s.init = false ∧ st = .notReady) ∨ (s.init = true ∧ st = .ok)

theorem ends_guarded {s u : State} {R : State → Prop} (hr : ∀ v, s.Scans v → R v) (h : State.Ends R (· = .ok) u) :
    State.Ends R (scanStatuses s) (if s.init = false then s.completePlain .notReady else u) := by
  cases hi : s.init with
  | false => exact (ends_completePlain (.inl ⟨hi, rfl⟩)).mono hr fun _ k => k
  | true => exact h.mono (fun _ k => k) fun _ k => .inr ⟨hi, k⟩

theorem ends_execProbe {s t : State} (h : execProbe s = .next t) : State.Ends s.Scans (scanStatuses s) t :=
  ends_next h (ends_guarded (fun _ k => k)
    ((Run.Scan.bind (scan_probeCandidate s) fun _ t => scan_scanRest t).finish fun _ t => ends_afterScan t))

theorem ends_execScan {s t : State} (h : execScan s = .next t) : State.Ends s.Scans (scanStatuses s) t :=
  ends_next h (ends_guarded (fun _ k => k)
    (((scan_scanBody _).after (scans_withJob s _)).finish fun _ t => ends_afterScan t))

/-- `ALLOCATE` ends as `SCAN` does, in a state with its target in `ADDR` or in the state of the refusal. -/
theorem ends_execAllocate {d : Addr} {s t : State} (h : execAllocate d s = .next t) :
    State.Ends (fun u => s.Scans u ∨ (s.target d).Scans u) (scanStatuses s) t :=
  ends_next h (ends_guarded (fun _ k => .inl k)
    ((((scan_scanBody _).after (scans_withJob (s.target d) _)).finish fun _ t => ends_afterScan t).mono
      (fun _ k => .inr k) fun _ k => k))

theorem ends_getDirectory {s t : State} (h : execGetDirectory s = .next t) : State.Ends s.Scans (scanStatuses s) t :=
  ends_next h (ends_guarded (fun _ k => k) (ends_ok s _ _))

theorem ends_getExclusions {s t : State} (h : execGetExclusions s = .next t) : State.Ends s.Scans (scanStatuses s) t :=
  ends_next h (ends_guarded (fun _ k => k) (ends_ok s _ _))

/-- A `SET_SLAVE_ADDRESS` frame ends as its command does, or, in an `ALLOCATE`, as that does. -/
theorem ends_execFrameSetSlaveAddress {a : Addr} {s t : State} (h : execFrameSetSlaveAddress a s = .next t) :
    State.Ends s.Scans (fun st => scanStatuses s st ∨
      ((∀ b, s.job ≠ .allocate b) ∧ writeStatuses s (newAddressLegal a) st)) t := by
  unfold execFrameSetSlaveAddress at h
  split at h
  · exact ends_next h ((ends_guarded (fun _ k => k) (ends_reassign a s)).mono (fun _ k => k) fun _ k => .inl k)
  · rename_i hj
    exact ends_next h ((ends_writeCommand _ _ _ s).mono (fun _ k => k) fun _ k => .inr ⟨hj, k⟩)

/-- Every operation other than `INIT` and `SET_EXCLUSIONS` only extends the state it begins in. -/
theorem exec_extends {i : Instr} {s t : State} (hi : ∀ caps, i ≠ .init caps) (he : ∀ n l, i ≠ .setExclusions n l)
    (h : exec i s = .next t) : s.Extends t := by
  have weaken : ∀ {R : State → Prop} {A : Status → Prop}, (∀ u, R u → s.Extends u) → State.Ends R A t → s.Extends t := by
    rintro R A hr (h | ⟨u, st, v, l, hu, -, rfl⟩)
    · exact hr _ h
    · exact (hr u hu).trans (u.extends_complete st v l)
  cases i
  case init caps => exact absurd rfl (hi caps)
  case setExclusions n l => exact absurd rfl (he n l)
  case scan => exact weaken (fun _ k => k.toExtends) (ends_execScan h)
  case allocate d =>
    exact weaken (fun _ k => k.elim (fun k => k.toExtends) fun k => (extends_target s d).trans k.toExtends) (ends_execAllocate h)
  case probe => exact weaken (fun _ k => k.toExtends) (ends_execProbe h)
  case frameSetSlaveAddress a => exact weaken (fun _ k => k.toExtends) (ends_execFrameSetSlaveAddress h)
  case getDirectory => exact weaken (fun _ k => k.toExtends) (ends_getDirectory h)
  case getExclusions => exact weaken (fun _ k => k.toExtends) (ends_getExclusions h)
  all_goals
    first
    | exact weaken (fun _ k => (extends_target s _).trans k.toExtends) (ends_next h (ends_readCommand _ _))
    | exact weaken (fun _ k => (extends_target s _).trans k.toExtends) (ends_next h (ends_writeCommand _ _ _ _))

/-- `INIT` writes the flag and the response, and leaves the rest. -/
theorem exec_init (caps : BitVec 4) (s : State) :
    exec (.init caps) s = .next (({ s with init := initAfter s.init caps }).completePlain .ok) := rfl

/-- `SET_EXCLUSIONS` either only extends the state it begins in, or it is legal and the list is replaced. -/
theorem exec_setExclusions_cases {n : Byte} {l : List Addr} {s t : State} (h : exec (.setExclusions n l) s = .next t) :
    t = s.completePlain .notReady ∧ s.init = false ∨ t = s.completePlain .badArg ∧ s.init = true ∧ 127 < n.toNat ∨
      t = ({ s with exc := l.take n.toNat }).completePlain .ok ∧ s.init = true ∧ n.toNat ≤ 127 := by
  cases h
  cases hi : s.init with
  | false => exact .inl ⟨rfl, rfl⟩
  | true =>
    by_cases hn : 127 < n.toNat
    · exact .inr (.inl ⟨by simp [hn, Config.listCap], rfl, hn⟩)
    · exact .inr (.inr ⟨by simp [hn, Config.listCap], rfl, by omega⟩)

end Sys2Proof.Machine
end

