-- ==== Sys2Proof/Laws/Step.lean ====
section
/-! SUPPORT. The cases of a step, and the request codes an accepted operation came from. -/

namespace Sys2Proof.Machine

theorem decodeParams_bus {c : Cmd} {ps : List Byte} {i : Instr} (h : decodeParams c ps = .ok i) (g : Cfg) :
    ∃ b, encode g i = .bus b := by
  rcases c with c | c
  · simp only [decodeParams, decodeReadParams] at h
    split at h
    · cases c <;> cases h <;> exact ⟨_, rfl⟩
    · cases h
  · cases c <;> simp only [decodeParams, decodeWriteParams, noParam, halfParam, byteParam, fourParams] at h
    all_goals
      split at h
      all_goals try split at h
      all_goals cases h
      all_goals exact ⟨_, rfl⟩

/-- What the bus side's decoder gives is an operation with a bus-side word. -/
theorem decodeBus_bus {g : Cfg} {bytes : List Byte} {i : Instr} (h : decodeBus g bytes = .ok i) : ∃ b, encode g i = .bus b := by
  unfold decodeBus at h
  split at h
  · cases h
  · split at h
    · cases h; exact ⟨_, rfl⟩
    · cases h
  · cases h
  · split at h
    · cases h
    · split at h
      · cases h
      · split at h
        · cases h
        · exact decodeParams_bus h g

/-- A step of an operation in progress extends the state. -/
theorem busy_extends {s t : State} (hs : s.seq ≠ .idle) (h : step s = .next t) : s.Extends t := by
  unfold step at h
  split at h
  · exact absurd ‹_› hs
  · unfold writeStep at h
    split at h
    · rename_i i hd
      obtain ⟨b, hb⟩ := decodeBus_bus hd
      refine exec_extends ?_ ?_ h
      · rintro caps rfl; cases hb
      · rintro n l rfl; cases hb
    · cases h
  · unfold delayStep at h
    split at h
    · exact (ends_next h ((ext_delayPhase _ _ _ s).finish (A := fun _ => True) fun x t =>
        (ends_finishRead _ trivial trivial x t fun _ => trivial).mono (fun _ k => k.toGoesOn) fun _ k => k)).extends
    · cases h
  · unfold readStep at h
    split at h
    · exact (ends_next h ((ext_readPhase _ _ s).finish (A := fun _ => True) fun x t =>
        (ends_finishRead _ trivial trivial x t fun _ => trivial).mono (fun _ k => k.toGoesOn) fun _ k => k)).extends
    · cases h
  · exact (ends_next h ((Run.Scan.bind (scan_resetPhase s) fun _ t => scan_scanRest t).finish fun _ t =>
      ends_afterScan t)).scanExtends
  · exact (ends_next h ((scan_scanRest s).finish fun _ t => ends_afterScan t)).scanExtends
  · exact (ends_next h ((ends_afterScan _).mono (fun _ k => (scans_replaceDir s).trans k) fun _ k => k)).scanExtends
  · exact (ends_next h (ends_searchPhase s)).scanExtends

/-- Everything a step can do: it waits in `IDLE`, or it accepts a request, or it goes on with the operation in progress. -/
theorem step_cases {s t : State} (h : step s = .next t) :
    (s.seq = .idle ∧ s.host = [] ∧ t = s) ∨
    (s.seq = .idle ∧ ∃ r rest, s.host = r :: rest ∧
      ((∃ i, decodeRequest r = .ok i ∧ exec i (s.accept rest) = .next t) ∨
       ((∃ e, decodeRequest r = .error e) ∧ t = refuseReserved (s.accept rest)))) ∨
    (s.seq ≠ .idle ∧ s.Extends t) := by
  by_cases hs : s.seq = .idle
  · simp only [step, hs, idleStep] at h
    split at h
    · cases h; exact .inl ⟨hs, by assumption, rfl⟩
    · rename_i r rest hh
      refine .inr (.inl ⟨hs, r, rest, hh, ?_⟩)
      split at h
      · rename_i i hd
        exact .inl ⟨i, hd, h⟩
      · rename_i e hd
        cases h
        exact .inr ⟨⟨e, hd⟩, rfl⟩
  · exact .inr (.inr ⟨hs, busy_extends hs h⟩)

/-! The request an operation came from. -/

theorem op_of_init {r : Request} {caps : BitVec 4} (h : decodeRequest r = .ok (.init caps)) : r.op = 0 ∧ r.caps = caps := by
  unfold decodeRequest at h
  split at h <;> cases h
  refine ⟨?_, rfl⟩
  rw [← BitVec.toNat_inj]; assumption

theorem op_of_setExclusions {r : Request} {n : Byte} {l : List Addr} (h : decodeRequest r = .ok (.setExclusions n l)) :
    r.op = 1 ∧ r.count = n ∧ l = r.entries n.toNat := by
  unfold decodeRequest at h
  split at h <;> cases h
  refine ⟨?_, rfl, rfl⟩
  rw [← BitVec.toNat_inj]; assumption

theorem op_of_scan {r : Request} (h : decodeRequest r = .ok .scan) : r.op = 2 := by
  unfold decodeRequest at h
  split at h <;> cases h
  rw [← BitVec.toNat_inj]; assumption

theorem op_of_allocate {r : Request} {d : Addr} (h : decodeRequest r = .ok (.allocate d)) : r.op = 3 ∧ d = r.addr := by
  unfold decodeRequest at h
  split at h <;> cases h
  refine ⟨?_, rfl⟩
  rw [← BitVec.toNat_inj]; assumption
end Sys2Proof.Machine
end

