-- ==== Sys2Proof/Laws/ScanTrace.lean ====
section
/-! SUPPORT. Scan bodies in every environment: the bus events are resets and probes of candidates that are not excluded, and a scan
body that is done has the directory and the events of the answers its probes got. -/

namespace Sys2Proof.Machine

/-- A bus event of a scan body: a reset, or a probe of an address that is neither 0 nor excluded. -/
def ScanEvent (g : Cfg) (exc : List Addr) (e : BusEvent) : Prop :=
  e = .reset ∨ ∃ a st, e = .write a (probeBytes g) st ∧ a ≠ 0 ∧ a ∉ exc

/-- `t` comes after `s` with events of a scan body only. -/
structure State.Probes (s t : State) : Prop where
  cfg : t.cfg = s.cfg
  exc : t.exc = s.exc
  init : t.init = s.init
  trace : ∃ evs, t.trace = s.trace ++ evs ∧ ∀ e ∈ evs, ScanEvent s.cfg s.exc e

theorem State.Probes.trans {s t u : State} (h : s.Probes t) (k : t.Probes u) : s.Probes u := by
  obtain ⟨e, he, hp⟩ := h.trace
  obtain ⟨f, hf, hq⟩ := k.trace
  refine ⟨k.cfg.trans h.cfg, k.exc.trans h.exc, k.init.trans h.init, e ++ f, by rw [hf, he, List.append_assoc], ?_⟩
  intro x hx
  rcases List.mem_append.1 hx with hx | hx
  · exact hp x hx
  · have := hq x hx
    rwa [h.cfg, h.exc] at this

theorem State.Probes.silent {s t : State} (hg : t.cfg = s.cfg) (he : t.exc = s.exc) (hi : t.init = s.init)
    (ht : t.trace = s.trace) : s.Probes t := ⟨hg, he, hi, [], by simp [ht], by simp⟩

theorem resetPhase_probes (s : State) : (resetPhase s).Sat (fun t => s.Probes t) (fun _ t => s.Probes t ∧ t.cand = s.cand) := by
  refine (resetPhase_sat s).mono ?_ ?_
  · rintro t ⟨q, rfl⟩
    exact .silent (by simp) (by simp) (by simp) (by simp)
  · rintro - t ⟨q, rfl⟩
    exact ⟨⟨by simp, by simp, by simp, [.reset], by simp, by simp [ScanEvent]⟩, by simp⟩

theorem probeCandidate_probes {s : State} (hi : s.init = true) (h0 : s.candAddr ≠ 0) (hx : s.candAddr ∉ s.exc) :
    (probeCandidate s).Sat (fun t => s.Probes t) (fun _ t => s.Probes t ∧ t.cand = s.cand + 1) := by
  have hw : ∀ st, ScanEvent s.cfg s.exc (.write s.candAddr (probeBytes s.cfg) st) := fun st => .inr ⟨_, st, rfl, h0, hx⟩
  refine (probeCandidate_sat hi).mono ?_ ?_
  · rintro t (⟨q, rfl⟩ | ⟨q, q', rfl⟩)
    · exact .silent (by simp) (by simp) (by simp) (by simp)
    · exact ⟨by simp, by simp, by simp, [_], by simp; rfl, by simpa using hw _⟩
  · rintro - t (⟨q, rfl⟩ | ⟨q, q', rfl⟩)
    · exact ⟨⟨by simp, by simp, by simp, [_], by simp; rfl, by simpa using hw _⟩, by simp⟩
    · refine ⟨⟨by simp, by simp, by simp, [_, .reset], by simp; rfl, ?_⟩, by simp⟩
      intro e he
      rcases List.mem_cons.1 he with rfl | he
      · exact hw _
      · exact .inl (List.mem_singleton.1 he)

theorem scanLoop_probes (n : Nat) : ∀ {s : State}, s.init = true → 1 ≤ s.cand.toNat → n + s.cand.toNat = 128 →
    (scanLoop n s).Sat (fun t => s.Probes t) (fun _ t => s.Probes t) := by
  induction n with
  | zero => exact fun _ _ _ => .silent (by simp) (by simp) (by simp) (by simp)
  | succ n ih =>
    intro s hi h1 hn
    have hle : s.cand.toNat ≤ 127 := by omega
    have hc := cand_succ hle
    rw [scanLoop]
    split
    · have hs : s.Probes (s.nextCand.enter .sNext) := .silent (by simp) (by simp) (by simp) (by simp)
      refine (ih (s := s.nextCand.enter .sNext) hi ?_ ?_).mono (fun _ k => hs.trans k) fun _ _ k => hs.trans k
      · simp only [State.enter_cand, State.nextCand_cand, hc]; omega
      · simp only [State.enter_cand, State.nextCand_cand, hc]; omega
    · rename_i hm
      rw [member_iff] at hm
      have h0 : s.candAddr ≠ 0 := by rw [addr_ne_zero_iff, candAddr_toNat hle]; exact h1
      refine (probeCandidate_probes hi h0 hm).bind ?_
      rintro - t ⟨hp, ht⟩
      refine (ih (hp.init.trans hi) ?_ ?_).mono (fun _ k => hp.trans k) fun _ _ k => hp.trans k
      · rw [ht, hc]; omega
      · rw [ht, hc]; omega

theorem scanRest_probes {s : State} (hi : s.init = true) (h1 : 1 ≤ s.cand.toNat) (h2 : s.cand.toNat ≤ 128) :
    (scanRest s).Sat (fun t => s.Probes t) (fun _ t => s.Probes t) :=
  (scanLoop_probes _ hi h1 (by simp only [State.candLeft]; omega)).bind fun _ t k =>
    k.trans (.silent (by simp) (by simp) (by simp) (by simp))

/-- In every environment, a scan body writes nothing but probes of addresses that are neither 0 nor excluded. -/
theorem scanBody_probes {s : State} (hi : s.init = true) :
    (scanBody s).Sat (fun t => s.Probes t) (fun _ t => s.Probes t) := by
  have hs : s.Probes s.startScan := .silent (by simp) (by simp) (by simp) (by simp)
  refine ((resetPhase_probes s.startScan).mono (W' := fun t => s.Probes t) (fun _ k => hs.trans k) fun _ _ k => k).bind ?_
  rintro - t ⟨hp, hc⟩
  have hst := hs.trans hp
  refine (scanRest_probes (hst.init.trans hi) ?_ ?_).mono (fun _ k => hst.trans k) fun _ _ k => hst.trans k
  · rw [hc]; simp
  · rw [hc]; simp

/-! Scan bodies that are done. -/

/-- The probe of a candidate that is done had some answer `st` (R151 (5) to (7)). -/
theorem probeCandidate_done {s : State} (hi : s.init = true) :
    (probeCandidate s).Sat (fun _ => True) (fun _ t => ∃ (st : BusStatus) (e' : Environment),
      t = { s with
        new := if st = .ok then s.new ++ [s.candAddr] else s.new
        cand := s.cand + 1
        seq := .sNext
        txbuf := probeBytes s.cfg
        env := e'
        trace := s.trace ++ probeEvents s.cfg.probeByte s.candAddr st }) := by
  refine (probeCandidate_sat hi).mono (fun _ _ => trivial) ?_
  rintro - t (⟨q, rfl⟩ | ⟨q, q', rfl⟩)
  · exact ⟨.ok, { s.env with writes := q }, rfl⟩
  · refine ⟨.err, { s.env with writes := q, resets := q' }, ?_⟩
    simp [State.record, State.enter, State.setResets, State.nextCand, State.setWrites, State.enterWrite, probeEvents, probeBytes]

theorem scanLoop_done (n : Nat) : ∀ {s : State}, s.init = true → n + s.cand.toNat = 128 →
    (scanLoop n s).Sat (fun _ => True) (fun _ t => ∃ (f : Addr → BusStatus) (e' : Environment) (tx : List Byte),
      t = { s with
        new := s.new ++ ((lastCandidates n).filter fun a => !member a s.exc).filter fun a => f a == .ok
        cand := 128
        seq := .sDone
        txbuf := tx
        env := e'
        trace := s.trace ++
          ((lastCandidates n).filter fun a => !member a s.exc).flatMap fun a => probeEvents s.cfg.probeByte a (f a) }) := by
  induction n with
  | zero =>
    intro s _ hn
    refine ⟨fun _ => BusStatus.ok, s.env, s.txbuf, ?_⟩
    have : s.cand = 128 := by
      rw [← BitVec.toNat_inj]
      simpa using hn
    simp [lastCandidates, State.enter, ← this]
  | succ n ih =>
    intro s hi hn
    have hle : s.cand.toNat ≤ 127 := by omega
    have hcs := cand_succ hle
    have hl : lastCandidates (n + 1) = s.candAddr :: lastCandidates n := by
      rw [lastCandidates_succ (by omega), candAddr_eq hn]
    rw [scanLoop, hl]
    cases hm : member s.candAddr s.exc with
    | true =>
      rw [if_pos rfl]
      refine (ih (s := s.nextCand.enter .sNext) hi (by
        simp only [State.enter_cand, State.nextCand_cand, hcs]; omega)).mono (fun _ _ => trivial) ?_
      rintro - t ⟨f, e', tx, rfl⟩
      exact ⟨f, e', tx, by simp [hm, State.nextCand, State.enter]⟩
    | false =>
      rw [if_neg (by simp)]
      refine (probeCandidate_done hi).bind ?_
      rintro - t ⟨st, e1, rfl⟩
      refine (ih
        (s := { s with
          new := if st = .ok then s.new ++ [s.candAddr] else s.new
          cand := s.cand + 1
          seq := .sNext
          txbuf := probeBytes s.cfg
          env := e1
          trace := s.trace ++ probeEvents s.cfg.probeByte s.candAddr st }) hi (by
        simp only [hcs]; omega)).mono (fun _ _ => trivial) ?_
      rintro - t ⟨f, e', tx, rfl⟩
      have hnot : ∀ a ∈ (lastCandidates n).filter fun a => !member a s.exc, a ≠ s.candAddr := by
        intro a hx he
        rw [List.mem_filter, mem_lastCandidates (by omega)] at hx
        have := candAddr_toNat hle
        rw [he] at hx
        omega
      refine ⟨fun a => if a = s.candAddr then st else f a, e', tx, ?_⟩
      have h1 : ((lastCandidates n).filter fun a => !member a s.exc).filter
          (fun a => (if a = s.candAddr then st else f a) == .ok) =
          ((lastCandidates n).filter fun a => !member a s.exc).filter fun a => f a == .ok :=
        List.filter_congr fun a hx => by simp only [hnot a hx, if_false]
      have h2 : ((lastCandidates n).filter fun a => !member a s.exc).flatMap
          (fun a => probeEvents s.cfg.probeByte a (if a = s.candAddr then st else f a)) =
          ((lastCandidates n).filter fun a => !member a s.exc).flatMap fun a => probeEvents s.cfg.probeByte a (f a) :=
        List.flatMap_congr fun a hx => by simp only [hnot a hx, if_false]
      simp only [List.filter_cons, hm, Bool.not_false, if_true, List.flatMap_cons, h1, h2]
      cases st <;> simp

/-- In every environment, a scan body that is done has the directory and the events of the answers its probes got (R151). -/
theorem scanBody_done {s : State} (hi : s.init = true) :
    (scanBody s).Sat (fun _ => True) (fun _ t => ∃ (f : Addr → BusStatus) (e' : Environment) (tx : List Byte),
      t = { s with
        dir := scanDirectory s.exc f
        new := scanDirectory s.exc f
        cand := 128
        seq := .sDone
        txbuf := tx
        env := e'
        trace := s.trace ++ scanEvents s.cfg.probeByte s.exc f }) := by
  refine ((resetPhase_sat s.startScan).mono (W' := fun _ => True) (fun _ _ => trivial) fun _ _ k => k).bind ?_
  rintro - t ⟨q, rfl⟩
  refine Run.Sat.bind (scanLoop_done 127 (s := (((s.startScan.enter .sReset).setResets q).record .reset).enter .sNext) hi
    (by simp)) ?_
  rintro - t ⟨f, e', tx, rfl⟩
  refine ⟨f, e', tx, ?_⟩
  simp [scanDirectory, scanEvents, probed_eq, State.record, State.replaceDir, State.startScan, State.setResets, State.enter]

end Sys2Proof.Machine
end

