-- ==== Sys2Proof/Laws/Over.lean ====
section
/-! SUPPORT. What a scan body does not read: the old directory, the target address and the operation in progress. With others in their
place it does the same and leaves these others, but for the directory, which it replaces. -/

namespace Sys2Proof.Machine

/-- `s` with another directory, target address and operation in progress. -/
def State.over (s : State) (d : List Addr) (a : Addr) (j : Job) : State := { s with dir := d, addr := a, job := j }

/-- A run with every state changed. -/
def Run.map {α : Type} (f : State → State) : Run α → Run α
  | .done a s => .done a (f s)
  | .waiting s => .waiting (f s)

theorem Run.map_bind {α β : Type} (f : State → State) (x : Run α) (k : α → State → Run β)
    (h : ∀ a s, k a (f s) = (k a s).map f) : (x.map f).bind k = (x.bind k).map f := by
  cases x with
  | done a s => exact h a s
  | waiting s => rfl

section Over
variable (d : List Addr) (a : Addr) (j : Job)

theorem busWrite_over (b : Addr) (bytes : List Byte) (s : State) :
    busWrite b bytes (s.over d a j) = (busWrite b bytes s).map fun t => t.over d a j := by
  simp only [busWrite_eq]
  change (match (s.writeTurn b bytes).1 with | some st => _ | none => _) = _
  cases (s.writeTurn b bytes).1 <;> rfl

theorem busReset_over (s : State) : busReset (s.over d a j) = (busReset s).map fun t => t.over d a j := by
  simp only [busReset_eq]
  change (match (takeAnswer () s.env.resets).1 with | some _ => _ | none => _) = _
  cases (takeAnswer () s.env.resets).1 <;> rfl

theorem writePhase_over (b : Addr) (bytes : List Byte) (s : State) :
    writePhase b bytes (s.over d a j) = (writePhase b bytes s).map fun t => t.over d a j := by
  cases hi : s.init with
  | false => rw [writePhase_notReady (s := s.over d a j) hi, writePhase_notReady hi]; rfl
  | true =>
    rw [writePhase_ready (s := s.over d a j) hi, writePhase_ready hi]
    change (busWrite b bytes ((s.enterWrite bytes).over d a j)).bind _ = _
    rw [busWrite_over]
    exact Run.map_bind _ _ _ fun _ _ => rfl

theorem resetPhase_over (s : State) : resetPhase (s.over d a j) = (resetPhase s).map fun t => t.over d a j := by
  change (busReset ((s.enter .sReset).over d a j)).bind _ = _
  rw [busReset_over]
  exact Run.map_bind _ _ _ fun _ _ => rfl

theorem probeCandidate_over (s : State) : probeCandidate (s.over d a j) = (probeCandidate s).map fun t => t.over d a j := by
  change (writePhase s.candAddr (probeBytes s.cfg) (s.over d a j)).bind _ = _
  rw [writePhase_over]
  refine Run.map_bind _ _ _ fun st t => ?_
  split
  · rfl
  · exact resetPhase_over d a j t.nextCand

theorem scanLoop_over (n : Nat) : ∀ s : State, scanLoop n (s.over d a j) = (scanLoop n s).map fun t => t.over d a j := by
  induction n with
  | zero => exact fun _ => rfl
  | succ n ih =>
    intro s
    rw [scanLoop, scanLoop]
    change (if member s.candAddr s.exc then _ else _) = _
    split
    · exact ih (s.nextCand.enter .sNext)
    · rw [probeCandidate_over]
      exact Run.map_bind _ _ _ fun _ t => ih t

/-- A scan body from its next candidate on that is done is done with others in their place, and leaves them and the same directory. -/
theorem scanRest_over {s t : State} (h : scanRest s = .done () t) : scanRest (s.over d a j) = .done () (t.over t.dir a j) := by
  unfold scanRest at h ⊢
  change (scanLoop s.candLeft (s.over d a j)).bind _ = _
  rw [scanLoop_over]
  revert h
  cases scanLoop s.candLeft s with
  | waiting u => intro h; cases h
  | done _ u => intro h; cases h; rfl

/-- A scan body that is done is done with others in their place, and leaves them and the same directory. -/
theorem scanBody_over {s t : State} (h : scanBody s = .done () t) : scanBody (s.over d a j) = .done () (t.over t.dir a j) := by
  unfold scanBody at h ⊢
  change (resetPhase (s.startScan.over d a j)).bind _ = _
  rw [resetPhase_over]
  revert h
  cases resetPhase s.startScan with
  | waiting u => intro h; cases h
  | done _ u => exact fun h => scanRest_over d a j h

end Over

end Sys2Proof.Machine
end

