-- ==== Sys2Proof/Laws/Invariant.lean ====
section
/-! SUPPORT. What each part of an operation leaves keeps the invariant: the scan bodies, the reassignment write, the allocator's
search, and the two builders of the catalog. -/

namespace Sys2Proof.Machine

/-- A strictly ascending list has no duplicates (R24 (d)). -/
theorem nodup_of_ascending {l : List Addr} (h : Ascending l) : l.Nodup :=
  List.Pairwise.imp (fun h e => by rw [e] at h; exact Nat.lt_irrefl _ h) h

/-- A directory has at most 127 entries (R25). -/
theorem length_directory {l : List Addr} (h : DirectoryOk l) : l.length ≤ 127 := by
  have hn : ((0 : Addr) :: l).Nodup := List.nodup_cons.2 ⟨fun h0 => h.inRange 0 h0 rfl, nodup_of_ascending h.ascending⟩
  have hm : (((0 : Addr) :: l).map BitVec.toNat).Nodup := hn.map (fun a b => BitVec.eq_of_toNat_eq)
  have hs : ((0 : Addr) :: l).map BitVec.toNat ⊆ List.range 128 := by
    intro x hx
    obtain ⟨a, -, rfl⟩ := List.mem_map.1 hx
    exact List.mem_range.2 a.isLt
  have := (List.subperm_of_subset hm hs).length_le
  simp at this
  omega

/-- What holds of the state an operation runs in: the invariant but for the phase, no response being valid. -/
structure State.Base (s : State) : Prop where
  cfgOk : s.cfg.Ok
  dirOk : DirectoryOk s.dir
  excFits : s.exc.length ≤ 127
  uninit : s.init = false → s.dir = []
  resp : s.resp = none

theorem State.Base.same {s t : State} (h : State.Base s) (hc : t.cfg = s.cfg) (hd : t.dir = s.dir) (he : t.exc = s.exc) (hi : t.init = s.init) (hr : t.resp = s.resp) : State.Base t :=
  ⟨by rw [hc]; exact h.cfgOk, by rw [hd]; exact h.dirOk, by rw [he]; exact h.excFits, by rw [hi, hd]; exact h.uninit, by rw [hr]; exact h.resp⟩

/-- An end of an operation keeps the invariant. -/
theorem State.Base.complete {s : State} (h : State.Base s) (st : Status) (v : Val) {l : List Addr} (hl : l.length ≤ 127) : (s.complete st v l).Inv := by
  refine ⟨h.cfgOk, h.dirOk, h.excFits, fun hi => ⟨h.uninit hi, rfl⟩, fun _ _ => rfl, ?_, trivial⟩
  intro r hr
  simp only [State.complete, Option.some.injEq] at hr
  subst hr
  split
  · exact ⟨fun k => absurd ‹_› k, hl⟩
  · exact ⟨fun _ => ⟨rfl, rfl⟩, by simp⟩

theorem State.Base.plain {s : State} (h : State.Base s) (st : Status) : (s.completePlain st).Inv := h.complete st 0 (by simp)

/-- A state in which an operation waits has the invariant if its phase has what belongs to it. -/
theorem State.Base.waits {s : State} (h : State.Base s) (hi : s.init = true) (hp : s.PhaseOk) : s.Inv :=
  ⟨h.cfgOk, h.dirOk, h.excFits, fun k => (by rw [hi] at k; cases k), fun r hr => (by rw [h.resp] at hr; cases hr), fun r hr => (by rw [h.resp] at hr; cases hr), hp⟩

theorem State.Base.scanWaits {s t : State} (h : State.Base s) (hi : s.init = true) (k : s.ScanWaits t) : t.Inv :=
  (h.same k.same.cfg k.dir k.same.exc k.same.init k.same.resp).waits (k.same.init.trans hi) k.phase

theorem State.Base.scanDone {s t : State} (h : State.Base s) (hi : s.init = true) (k : s.ScanDone t) : State.Base t :=
  ⟨by rw [k.same.cfg]; exact h.cfgOk, k.dirOk, by rw [k.same.exc]; exact h.excFits, fun f => (by rw [k.same.init, hi] at f; cases f), by rw [k.same.resp]; exact h.resp⟩

theorem State.Base.respondDirectory {s : State} (h : State.Base s) : (respondDirectory s).Inv := h.complete .ok 0 (length_directory h.dirOk)

/-- The reassignment write and what follows it (R170 (5) to (7)). -/
theorem reassign_inv {s : State} (a : Addr) (h : State.Base s) (hi : s.init = true) : (reassign a s).Inv := by
  unfold reassign
  have hw := writePhase_sat s.addr (reassignFrame s.cfg a) (s := s.withJob (.allocate true)) hi
  revert hw
  cases writePhase s.addr (reassignFrame s.cfg a) (s.withJob (.allocate true)) with
  | waiting t =>
    rintro ⟨q, rfl⟩
    refine State.Base.waits (h.same rfl rfl rfl rfl rfl) hi ?_
    exact ⟨.frameSetSlaveAddress a, rfl, .inl rfl⟩
  | done x t =>
    rintro ⟨st, q, -, rfl⟩
    rw [Run.bind_done]
    have hb : State.Base ((((s.withJob (.allocate true)).enterWrite (reassignFrame s.cfg a)).setWrites q).record (.write s.addr (reassignFrame s.cfg a) st)) := h.same rfl rfl rfl rfl rfl
    refine Run.Sat.finish (scanBody_keeps hi (.inr (.inr rfl))) (fun t k => hb.scanWaits hi k) fun _ t k => (hb.scanDone hi k).respondDirectory

/-- The allocator's search and what follows it. -/
theorem searchPhase_inv {s : State} (h : State.Base s) (hi : s.init = true) : (searchPhase s).Inv := by
  have hb : ∀ c, State.Base ((s.enter .aSearch).searched c) := fun c => h.same rfl rfl rfl rfl rfl
  unfold searchPhase
  split
  · exact (hb _).respondDirectory
  · exact reassign_inv _ (hb _) hi

/-- What follows a scan body. -/
theorem afterScan_inv {s : State} (h : State.Base s) (hi : s.init = true) : (afterScan s).Inv := by
  unfold afterScan
  split
  · split
    · exact searchPhase_inv h hi
    · exact h.respondDirectory
  · exact h.respondDirectory

/-- A scan body and what follows it. -/
theorem scanBodyAfter_inv {s : State} (h : State.Base s) (hi : s.init = true) (hj : s.job = .scan ∨ s.job = .allocate false ∨ s.job = .allocate true) :
    ((scanBody s).finish fun _ s => afterScan s).Inv :=
  Run.Sat.finish (scanBody_keeps hi hj) (fun _ k => h.scanWaits hi k) fun _ _ k => afterScan_inv (h.scanDone hi k) (k.same.init.trans hi)

theorem scanRestAfter_inv {s : State} (h : State.Base s) (hi : s.init = true) (hs : s.ScanInProgress) :
    ((scanRest s).finish fun _ s => afterScan s).Inv :=
  Run.Sat.finish (scanRest_keeps hi hs) (fun _ k => h.scanWaits hi k) fun _ _ k => afterScan_inv (h.scanDone hi k) (k.same.init.trans hi)

/-- A scan body from the probe of its candidate on. -/
theorem probe_inv {s : State} (h : State.Base s) (hi : s.init = true) (hs : s.ScanInProgress) (hle : s.cand.toNat ≤ 127) (hx : s.candAddr ∉ s.exc) :
    (((probeCandidate s).bind fun _ s => scanRest s).finish fun _ s => afterScan s).Inv := by
  rw [Run.finish_bind]
  refine Run.Sat.finish (probeCandidate_keeps hi hs hle hx) (fun _ k => h.scanWaits hi k) ?_
  rintro - t ⟨hb, hd, hj, ht, -, -⟩
  exact scanRestAfter_inv (h.same hb.cfg hd hb.exc hb.init hb.resp) (hb.init.trans hi) ht

/-- A scan body from a bus reset on. -/
theorem reset_inv {s : State} (h : State.Base s) (hi : s.init = true) (hs : s.ScanInProgress) :
    (((resetPhase s).bind fun _ s => scanRest s).finish fun _ s => afterScan s).Inv := by
  rw [Run.finish_bind]
  refine Run.Sat.finish (resetPhase_keeps hs) (fun _ k => h.scanWaits hi k) ?_
  rintro - t ⟨hb, hd, hj, ht⟩
  exact scanRestAfter_inv (h.same hb.cfg hd hb.exc hb.init hb.resp) (hb.init.trans hi) ht

/-- The frame of a class R command as an operation (R85). -/
def frameOf : RCmd → Instr
  | .readMeasurement => .frameReadMeasurement
  | .readVersion => .frameReadVersion
  | .getSampleRate => .frameGetSampleRate
  | .getStatus => .frameGetStatus
  | .getSlaveAddress => .frameGetSlaveAddress
  | .getAmpThreshold => .frameGetAmpThreshold
  | .getDistanceLimits => .frameGetDistanceLimits

theorem encode_frameOf (g : Cfg) (c : RCmd) : encode g (frameOf c) = .bus (frame g (.r c) []) := by cases c <;> rfl
theorem writes_frameOf {s : State} {c : RCmd} (hj : s.job = .read c) (ha : s.addr ≠ 0) : s.Writes (frameOf c) := by
  cases c <;> exact ⟨hj, ha⟩

theorem readReport_inv {t : State} (h : State.Base t) (g : Cfg) (c : RCmd) (st : BusStatus) (r : List Byte) : (readReport g c st r t).Inv := by
  unfold readReport
  split
  · exact h.complete _ _ (by simp)
  · exact h.plain _

theorem State.Base.scans {s t : State} (h : State.Base s) (k : s.GoesOn t) (hd : t.dir = s.dir) : State.Base t := h.same k.cfg hd k.exc k.init k.resp

/-- A class R command, in every environment. -/
theorem readCommand_inv {s : State} (c : RCmd) (h : State.Base s) : (readCommand c s).Inv := by
  have bw : ∀ q st, State.Base (s.written (.read c) (frame s.cfg (.r c) []) q st) := fun q st => h.scans (goesOn_written s _ _ q st) (by simp)
  have bd : ∀ q q', State.Base (s.delayed c q q') := fun q q' => h.scans (goesOn_delayed s c q q') (by simp)
  have br : ∀ q q' q'' st r, State.Base (s.readBack c q q' q'' st r) := fun q q' q'' st r => h.scans (goesOn_readBack s c q q' q'' st r) (by simp)
  rcases readCommand_cases c s with
    ⟨hi, e⟩ | ⟨hi, k, e⟩ | ⟨hi, k, ⟨q, e⟩ | ⟨q, e⟩ | ⟨q, q', e⟩ | ⟨q, q', q'', e⟩ | ⟨q, q', q'', st, r, -, e⟩⟩ <;> rw [e]
  · exact h.plain _
  · exact h.plain _
  · exact State.Base.waits (h.same (by simp) (by simp) (by simp) (by simp) (by simp)) (by simpa using hi) ⟨frameOf c, encode_frameOf _ c, writes_frameOf rfl k⟩
  · exact (bw _ _).plain _
  · exact State.Base.waits ((bw q .ok).same (by simp) (by simp) (by simp) (by simp) (by simp)) (by simpa using hi) ⟨c, by simp⟩
  · exact State.Base.waits ((bd q q').same (by simp) (by simp) (by simp) (by simp) (by simp)) (by simpa using hi) ⟨c, by simp⟩
  · exact readReport_inv (br _ _ _ _ _) _ _ _ _

/-- A class W command, in every environment. -/
theorem writeCommand_inv {s : State} {c : WCmd} {ps : List Byte} {legal : Bool} (h : State.Base s) {i : Instr} (he : encode s.cfg i = .bus (frame s.cfg (.w c) ps)) (hw : ∀ t : State, legal = true → t.job = .write c → t.Writes i) : (writeCommand c ps legal s).Inv := by
  rcases writeCommand_cases c ps legal s with ⟨hi, e⟩ | ⟨hi, k, e⟩ | ⟨hi, k, q, e⟩ | ⟨hi, k, q, st, e⟩ <;> rw [e]
  · exact h.plain _
  · exact h.plain _
  · exact State.Base.waits (h.same rfl rfl rfl rfl rfl) hi ⟨i, he, hw _ k rfl⟩
  · exact State.Base.plain (h.scans (goesOn_written s _ _ q st) (by simp)) _

/-- A class R command from its read on. -/
theorem readTail_inv {s : State} (c : RCmd) (h : State.Base s) (hi : s.init = true) (hj : s.job = .read c) :
    ((readPhase s.addr (s.cfg.rlen c) s).finish fun x s => finishRead c x s).Inv := by
  rcases readTail_cases c s with ⟨q, e⟩ | ⟨q, st, r, -, e⟩ <;> rw [e]
  · exact State.Base.waits (h.same rfl rfl rfl rfl rfl) hi ⟨c, hj⟩
  · exact readReport_inv (t := ((((s.enter .tRead).setReads q).record (.read s.addr (s.cfg.rlen c) st r)).received r)) (h.same rfl rfl rfl rfl rfl) _ _ _ _

/-- What the invariant says of an operation in progress. -/
theorem inv_base {s : State} (h : s.Inv) (hs : s.seq ≠ .idle) : State.Base s ∧ s.init = true := by
  refine ⟨⟨h.cfgOk, h.dirOk, h.excFits, fun k => (h.uninit k).1, ?_⟩, ?_⟩
  · cases hr : s.resp with
    | none => rfl
    | some r => exact absurd (h.respIdle r hr) hs
  · cases hi : s.init with
    | true => rfl
    | false => exact absurd (h.uninit hi).2 hs

/-- No operation stops (R13). -/
theorem exec_next (i : Instr) (s : State) : ∃ t, exec i s = .next t := by
  cases i
  case frameSetSlaveAddress a =>
    simp only [exec, execFrameSetSlaveAddress]
    split <;> exact ⟨_, rfl⟩
  all_goals exact ⟨_, rfl⟩

end Sys2Proof.Machine
end

