-- ==== Sys2Proof/Laws/Directory.lean ====
section
/-! SUPPORT. What each part of an operation leaves of the directory: where a scan body waits it is the old one, and where it is done
it is the list that was built (spec 10_state.md R26). -/

namespace Sys2Proof.Machine

/-- What a scanning operation can leave of the directory: it waits in the scan body it was in, with the old directory; or an
`ALLOCATE` has come to its reassignment and waits there; or it is done, and but for an `ALLOCATE` that ends with its first scan
body the directory is the list that was built. -/
def State.LeavesDirectory (s t : State) : Prop :=
  (t.seq ≠ .idle ∧ t.job = s.job ∧ t.dir = s.dir) ∨ (t.seq ≠ .idle ∧ s.job = .allocate false ∧ t.job = .allocate true) ∨
    (t.seq = .idle ∧ (s.job = .allocate false ∨ t.dir = t.new))

/-- The operation seen from an earlier state of the same scan body. -/
theorem State.LeavesDirectory.after {s t u : State} (hd : t.dir = s.dir) (hj : t.job = s.job) (h : t.LeavesDirectory u) :
    s.LeavesDirectory u := by
  simpa only [State.LeavesDirectory, hd, hj] using h

/-- The reassignment write and what follows it: it waits with the directory of the first scan body, or it is done with that of the
second. -/
theorem reassign_directory {s : State} (a : Addr) (hi : s.init = true) :
    ((reassign a s).seq ≠ .idle ∧ (reassign a s).job = .allocate true ∧ (reassign a s).dir = s.dir) ∨
      ((reassign a s).seq = .idle ∧ (reassign a s).dir = (reassign a s).new) := by
  unfold reassign
  have hw := writePhase_sat s.addr (reassignFrame s.cfg a) (s := s.withJob (.allocate true)) hi
  revert hw
  cases writePhase s.addr (reassignFrame s.cfg a) (s.withJob (.allocate true)) with
  | waiting t =>
    rintro ⟨q, rfl⟩
    exact .inl ⟨by simp [Run.finish, Run.bind], rfl, rfl⟩
  | done x t =>
    rintro ⟨st, q, -, rfl⟩
    rw [Run.bind_done]
    have hk := scanBody_keeps (s := ((((s.withJob (.allocate true)).enterWrite (reassignFrame s.cfg a)).setWrites q).record
      (.write s.addr (reassignFrame s.cfg a) st))) hi (.inr (.inr rfl))
    revert hk
    generalize scanBody _ = x
    cases x with
    | waiting u => exact fun k => .inl ⟨k.busy, k.job, k.dir⟩
    | done y u => exact fun k => .inr ⟨rfl, k.isNew⟩

/-- The allocator's search and what follows it: it waits at the reassignment or it is done. -/
theorem searchPhase_directory {s : State} (hi : s.init = true) :
    ((searchPhase s).seq ≠ .idle ∧ (searchPhase s).job = .allocate true) ∨ (searchPhase s).seq = .idle := by
  unfold searchPhase
  split
  · exact .inr rfl
  · exact (reassign_directory _ (s := (s.enter .aSearch).searched _) hi).elim (fun h => .inl ⟨h.1, h.2.1⟩) fun h => .inr h.1

/-- What follows a scan body that has left the directory it built: it waits only at the reassignment of an `ALLOCATE`. -/
theorem afterScan_directory {s : State} (hi : s.init = true) (hn : s.dir = s.new) :
    ((afterScan s).seq ≠ .idle ∧ s.job = .allocate false ∧ (afterScan s).job = .allocate true) ∨
      ((afterScan s).seq = .idle ∧ (s.job = .allocate false ∨ (afterScan s).dir = (afterScan s).new)) := by
  unfold afterScan
  split
  · rename_i hj
    split
    · exact (searchPhase_directory hi).imp (fun h => ⟨h.1, hj, h.2⟩) fun h => ⟨h, .inl hj⟩
    · exact .inr ⟨rfl, .inl hj⟩
  · exact .inr ⟨rfl, .inr hn⟩

/-- A piece of a scan body that runs to its end, and what follows the scan body. -/
theorem Run.Sat.scanDirectory {s : State} {x : Run Unit} (hi : s.init = true)
    (h : x.Sat (fun t => s.ScanWaits t) (fun _ t => s.ScanDone t)) : s.LeavesDirectory (x.finish fun _ t => afterScan t) :=
  Run.Sat.finish h (fun _ k => .inl ⟨k.busy, k.job, k.dir⟩) fun _ t k =>
    .inr (by rw [← k.job]; exact afterScan_directory (k.same.init.trans hi) k.isNew)

/-- A scan body and what follows it. -/
theorem scanBody_directory {s : State} (hi : s.init = true)
    (hj : s.job = .scan ∨ s.job = .allocate false ∨ s.job = .allocate true) :
    s.LeavesDirectory ((scanBody s).finish fun _ t => afterScan t) := (scanBody_keeps hi hj).scanDirectory hi

/-- A scan body from its next candidate on. -/
theorem scanRest_directory {s : State} (hi : s.init = true) (hs : s.ScanInProgress) :
    s.LeavesDirectory ((scanRest s).finish fun _ t => afterScan t) := (scanRest_keeps hi hs).scanDirectory hi

/-- A scan body from the probe of its candidate on. -/
theorem probe_directory {s : State} (hi : s.init = true) (hs : s.ScanInProgress) (hle : s.cand.toNat ≤ 127)
    (hx : s.candAddr ∉ s.exc) :
    s.LeavesDirectory (((probeCandidate s).bind fun _ t => scanRest t).finish fun _ t => afterScan t) := by
  rw [Run.finish_bind]
  refine Run.Sat.finish (probeCandidate_keeps hi hs hle hx) (fun _ k => .inl ⟨k.busy, k.job, k.dir⟩) ?_
  rintro - t ⟨hb, hd, hj, ht, -, -⟩
  exact (scanRest_directory (hb.init.trans hi) ht).after hd hj

/-- A scan body from a bus reset on. -/
theorem reset_directory {s : State} (hi : s.init = true) (hs : s.ScanInProgress) :
    s.LeavesDirectory (((resetPhase s).bind fun _ t => scanRest t).finish fun _ t => afterScan t) := by
  rw [Run.finish_bind]
  refine Run.Sat.finish (resetPhase_keeps hs) (fun _ k => .inl ⟨k.busy, k.job, k.dir⟩) ?_
  rintro - t ⟨hb, hd, hj, ht⟩
  exact (scanRest_directory (hb.init.trans hi) ht).after hd hj

/-- A scan body from its replacement of the directory on. -/
theorem replace_directory {s : State} (hi : s.init = true) : s.LeavesDirectory (afterScan s.replaceDir) :=
  .inr (afterScan_directory (s := s.replaceDir) hi rfl)

/-! The catalog. -/

/-- A class R command leaves the directory as it is. -/
theorem readCommand_dir (c : RCmd) (s : State) : (readCommand c s).dir = s.dir := by
  rcases readCommand_cases c s with
    ⟨-, e⟩ | ⟨-, -, e⟩ | ⟨-, -, ⟨q, e⟩ | ⟨q, e⟩ | ⟨q, q', e⟩ | ⟨q, q', q'', e⟩ | ⟨q, q', q'', st, r, -, e⟩⟩ <;> rw [e] <;> try simp
  unfold readReport
  split <;> simp

/-- A class W command leaves the directory as it is. -/
theorem writeCommand_dir (c : WCmd) (ps : List Byte) (legal : Bool) (s : State) : (writeCommand c ps legal s).dir = s.dir := by
  rcases writeCommand_cases c ps legal s with ⟨-, e⟩ | ⟨-, -, e⟩ | ⟨-, -, q, e⟩ | ⟨-, -, q, st, e⟩ <;> rw [e] <;> simp

/-- A class R command from its read on leaves the directory as it is. -/
theorem readTail_dir (c : RCmd) (s : State) :
    ((readPhase s.addr (s.cfg.rlen c) s).finish fun x t => finishRead c x t).dir = s.dir := by
  rcases readTail_cases c s with ⟨q, e⟩ | ⟨q, st, r, -, e⟩ <;> rw [e]
  · rfl
  · unfold readReport
    split <;> rfl

/-- A class R command from its delay on leaves the directory as it is. -/
theorem delayTail_dir (c : RCmd) (s : State) :
    ((delayPhase s.addr (s.cfg.rlen c) (s.cfg.delayMs.get c) s).finish fun x t => finishRead c x t).dir = s.dir := by
  rcases delayTail_cases c s with ⟨q, e⟩ | ⟨q, e⟩ <;> rw [e]
  · rfl
  · exact readTail_dir c (((s.enter .tDelay).setDelays q).record (.delay (s.cfg.delayMs.get c)))

end Sys2Proof.Machine
end

