-- ==== Sys2Proof/Laws/Waiting.lean ====
section
/-! SUPPORT. Operations that wait: from each program point, an operation taken up step after step comes to the same end as with the
same answers given at once. -/

namespace Sys2Proof.Machine

/-- From the point `K` on, the operation is done after some more steps, and it ends as with the same answers given at once. -/
def GoodAt (K : State → State) (s : State) : Prop := ∃ n, (goOn n (K s)).seq = .idle ∧ K (prompt s) = prompt (goOn n (K s))

/-- Points that do the same end alike. -/
theorem GoodAt.of {K K' : State → State} {s s' : State} (h : GoodAt K' s') (h1 : K s = K' s') (h2 : K (prompt s) = K' (prompt s')) : GoodAt K s := by
  obtain ⟨n, h3, h4⟩ := h
  exact ⟨n, by rw [h1]; exact h3, by rw [h1, h2]; exact h4⟩

/-- One step of an operation that waits. -/
theorem goOn_step {n : Nat} {s t : State} (hs : s.seq ≠ .idle) (h : step s = .next t) : goOn (n + 1) s = goOn n t := by
  simp only [goOn, if_neg hs, h]

/-- An operation that waits and then goes on from the same point ends as from where it waits. -/
theorem GoodAt.wait {K : State → State} {s w : State} (h : GoodAt K w) (h1 : K s = w) (hs : w.seq ≠ .idle) (hst : step w = .next (K w)) (h2 : K (prompt w) = K (prompt s)) : GoodAt K s := by
  obtain ⟨n, h3, h4⟩ := h
  exact ⟨n + 1, by rw [h1, goOn_step hs hst]; exact h3, by rw [h1, goOn_step hs hst, ← h2]; exact h4⟩

/-- An operation that is done at once. -/
theorem GoodAt.end {K : State → State} {s : State} (h : (K s).seq = .idle) (h2 : K (prompt s) = prompt (K s)) : GoodAt K s := ⟨0, h, h2⟩

/-- An answer that stands at the head of a queue stands there without the stalls before later answers too. -/
theorem turn_done {α : Type} [DecidableEq α] {f a : α} {l q : List (Completion α)} (h : takeAnswer f l = (some a, q)) :
    takeAnswer f (l.filter fun c => c != .notYet) = (some a, q.filter fun c => c != .notYet) := by
  cases l with
  | nil => cases h; rfl
  | cons c l => cases c <;> cases h; rfl

/-- A queue in which every call completes in the end: the call is not complete yet, or it has an answer. -/
theorem turn_cases {α : Type} (f : α) (l : List (Completion α)) (h : .never ∉ l) :
    (∃ q, l = .notYet :: q ∧ takeAnswer f l = (none, q) ∧ .never ∉ q) ∨ ∃ a q, takeAnswer f l = (some a, q) ∧ .never ∉ q := by
  cases l with
  | nil => exact .inr ⟨f, [], rfl, by simp⟩
  | cons c l =>
    have hq : .never ∉ l := fun k => h (List.mem_cons_of_mem _ k)
    cases c with
    | done a => exact .inr ⟨a, l, rfl, hq⟩
    | notYet => exact .inl ⟨l, rfl, rfl, hq⟩
    | never => exact absurd (List.mem_cons_self ..) h

/-- A state in which an operation can be in progress, in an environment that completes every call in the end. -/
structure Live (s : State) : Prop where
  cfg : s.cfg.Ok
  init : s.init = true
  fair : EventuallyCompletes s.env

theorem Live.same {s t : State} (h : Live s) (hc : t.cfg = s.cfg) (hi : t.init = s.init) (he : t.env = s.env) : Live t :=
  ⟨by rw [hc]; exact h.cfg, by rw [hi]; exact h.init, by rw [he]; exact h.fair⟩
theorem Live.setWrites {s : State} (h : Live s) {q : List (Completion BusStatus)} (hq : .never ∉ q) : Live (s.setWrites q) := ⟨h.cfg, h.init, ⟨hq, h.fair.reads, h.fair.resets, h.fair.delays⟩⟩
theorem Live.setReads {s : State} (h : Live s) {q} (hq : .never ∉ q) : Live (s.setReads q) := ⟨h.cfg, h.init, ⟨h.fair.writes, hq, h.fair.resets, h.fair.delays⟩⟩
theorem Live.setResets {s : State} (h : Live s) {q} (hq : .never ∉ q) : Live (s.setResets q) := ⟨h.cfg, h.init, ⟨h.fair.writes, h.fair.reads, hq, h.fair.delays⟩⟩
theorem Live.setDelays {s : State} (h : Live s) {q} (hq : .never ∉ q) : Live (s.setDelays q) := ⟨h.cfg, h.init, ⟨h.fair.writes, h.fair.reads, h.fair.resets, hq⟩⟩

/-- The state after a write phase. -/
def afterWrite (a : Addr) (b : List Byte) (q : List (Completion BusStatus)) (st : BusStatus) (s : State) : State :=
  ((s.enterWrite b).setWrites q).record (.write a b st)

theorem Live.afterWrite {s : State} (h : Live s) (a : Addr) (b : List Byte) {q : List (Completion BusStatus)} (st : BusStatus) (hq : .never ∉ q) : Live (afterWrite a b q st s) :=
  (Live.setWrites (h.same (t := s.enterWrite b) rfl rfl rfl) hq).same rfl rfl rfl

/-- A write phase waits, or it is done, and then so it is without the stalls. -/
theorem write_turn {s : State} (h : Live s) (a : Addr) (b : List Byte) :
    (∃ q, s.env.writes = .notYet :: q ∧ .never ∉ q ∧ writePhase a b s = .waiting ((s.enterWrite b).setWrites q)) ∨
    (∃ st q, .never ∉ q ∧ writePhase a b s = .done (writeStatus st) (afterWrite a b q st s) ∧ writePhase a b (prompt s) = .done (writeStatus st) (prompt (afterWrite a b q st s))) := by
  rcases turn_cases (Config.freeWriteAnswer s.env.seed s.history a b) s.env.writes h.fair.writes with ⟨q, h1, h2, h3⟩ | ⟨st, q, h2, h3⟩
  · refine .inl ⟨q, h1, h3, ?_⟩
    rw [writePhase_ready h.init, busWrite_eq]
    rw [show (s.enterWrite b).writeTurn a b = (none, q) from h2]; rfl
  · refine .inr ⟨st, q, h3, writePhase_answered h.init h2, ?_⟩
    have h4 : (prompt s).writeTurn a b = (some st, q.filter fun c => c != .notYet) := turn_done h2
    exact writePhase_answered (s := prompt s) h.init h4

/-- The state after a reset phase. -/
def afterReset (q : List (Completion Unit)) (s : State) : State := (((s.enter .sReset).setResets q).record .reset).enter .sNext

theorem Live.afterReset {s : State} (h : Live s) {q : List (Completion Unit)} (hq : .never ∉ q) : Live (afterReset q s) :=
  (Live.setResets (h.same (t := s.enter .sReset) rfl rfl rfl) hq).same rfl rfl rfl

@[simp] theorem afterReset_job (q : List (Completion Unit)) (s : State) : (afterReset q s).job = s.job := rfl
@[simp] theorem afterReset_cand (q : List (Completion Unit)) (s : State) : (afterReset q s).cand = s.cand := rfl
@[simp] theorem afterWrite_job (a : Addr) (b : List Byte) (q : List (Completion BusStatus)) (st : BusStatus) (s : State) : (afterWrite a b q st s).job = s.job := rfl
@[simp] theorem afterWrite_cand (a : Addr) (b : List Byte) (q : List (Completion BusStatus)) (st : BusStatus) (s : State) : (afterWrite a b q st s).cand = s.cand := rfl

/-- A reset phase waits, or it is done, and then so it is without the stalls. -/
theorem reset_turn {s : State} (h : Live s) :
    (∃ q, s.env.resets = .notYet :: q ∧ .never ∉ q ∧ resetPhase s = .waiting ((s.enter .sReset).setResets q)) ∨
    (∃ q, .never ∉ q ∧ resetPhase s = .done () (afterReset q s) ∧ resetPhase (prompt s) = .done () (prompt (afterReset q s))) := by
  rcases turn_cases () s.env.resets h.fair.resets with ⟨q, h1, h2, h3⟩ | ⟨⟨⟩, q, h2, h3⟩
  · refine .inl ⟨q, h1, h3, ?_⟩
    rw [resetPhase, busReset_eq]
    rw [show takeAnswer () (s.enter .sReset).env.resets = (none, q) from h2]; rfl
  · refine .inr ⟨q, h3, ?_, ?_⟩
    · rw [resetPhase, busReset_answered (s := s.enter .sReset) h2]; rfl
    · rw [resetPhase, busReset_answered (s := (prompt s).enter .sReset) (turn_done h2)]; rfl

/-! Scan bodies. -/
/-- The point at which a scan body looks for its next candidate. -/
def restPoint (s : State) : State := (scanRest s).finish fun _ s => afterScan s
/-- The point at which a scan body resets the bus. -/
def resetPoint (s : State) : State := ((resetPhase s).bind fun _ s => scanRest s).finish fun _ s => afterScan s
/-- The point at which a scan body probes its candidate. -/
def probePoint (s : State) : State := ((probeCandidate s).bind fun _ s => scanRest s).finish fun _ s => afterScan s

/-- A step in phase T_WRITE with the probe in TXBUF goes on at the point of the probe. -/
theorem step_probe {w : State} (hs : w.seq = .tWrite) (hb : w.txbuf = probeBytes w.cfg) (hi : w.init = true) : step w = .next (probePoint w) := by
  have : decodeBus w.cfg w.txbuf = .ok .probe := by rw [hb]; exact decodeBus_probe _
  simp only [step, hs, writeStep, this, exec, execProbe, hi, Bool.true_eq_false, if_false]; rfl

theorem resetPoint_good (n : Nat) : ∀ {s : State}, Live s → s.env.resets.length = n →
    (∀ q, .never ∉ q → GoodAt restPoint (afterReset q s)) → GoodAt resetPoint s := by
  induction n with
  | zero =>
    intro s h hn hr
    rcases reset_turn h with ⟨q, h1, h2, h3⟩ | ⟨q, h1, h2, h3⟩
    · rw [h1] at hn; cases hn
    · exact (hr q h1).of (by simp only [resetPoint, h2]; rfl) (by simp only [resetPoint, h3]; rfl)
  | succ n ih =>
    intro s h hn hr
    rcases reset_turn h with ⟨q, h1, h2, h3⟩ | ⟨q, h1, h2, h3⟩
    · have hw : GoodAt resetPoint ((s.enter .sReset).setResets q) := ih (Live.setResets (h.same (t := s.enter .sReset) rfl rfl rfl) h2) (by simpa [h1] using hn) (fun q' k => hr q' k)
      refine hw.wait (by simp only [resetPoint, h3]; rfl) (by simp) rfl ?_
      have : prompt s = { (prompt ((s.enter .sReset).setResets q)) with seq := s.seq } := by
        simp only [prompt, withoutStalls, State.enter, State.setResets, h1]
        rfl
      rw [this]; rfl
    · exact (hr q h1).of (by simp only [resetPoint, h2]; rfl) (by simp only [resetPoint, h3]; rfl)

/-- The state before a write phase that waits, without the stalls, is the state in which it waits, without the stalls, but for what the phase writes first. -/
theorem prompt_framed {s : State} {b : List Byte} {q : List (Completion BusStatus)} (h : s.env.writes = .notYet :: q) (j : Job) :
    prompt s = { prompt (s.framed j b q) with seq := s.seq, txbuf := s.txbuf, job := s.job } := by
  simp only [prompt, withoutStalls, State.framed, State.enterWrite, State.setWrites, State.withJob, h]
  rfl

theorem probePoint_eq {s : State} (hi : s.init = true) : probePoint s =
    ((((busWrite s.candAddr (probeBytes s.cfg) (s.enterWrite (probeBytes s.cfg))).bind fun st s => .done (writeStatus st) s).bind fun st s =>
    if st = .ok then .done () s.found.nextCand else resetPhase s.nextCand).bind fun _ s => scanRest s).finish fun _ s => afterScan s := by
  rw [probePoint, probeCandidate, writePhase_ready hi]

theorem probePoint_good (n : Nat) : ∀ {s : State}, Live s → s.env.writes.length = n →
    (∀ q, .never ∉ q → GoodAt restPoint ((afterWrite s.candAddr (probeBytes s.cfg) q .ok s).found.nextCand)) →
    (∀ q, .never ∉ q → GoodAt resetPoint ((afterWrite s.candAddr (probeBytes s.cfg) q .err s).nextCand)) → GoodAt probePoint s := by
  have fin : ∀ {s : State} {st : BusStatus} {q},
      (GoodAt restPoint ((afterWrite s.candAddr (probeBytes s.cfg) q .ok s).found.nextCand)) →
      (GoodAt resetPoint ((afterWrite s.candAddr (probeBytes s.cfg) q .err s).nextCand)) →
      writePhase s.candAddr (probeBytes s.cfg) s = .done (writeStatus st) (afterWrite s.candAddr (probeBytes s.cfg) q st s) → writePhase s.candAddr (probeBytes s.cfg) (prompt s) = .done (writeStatus st) (prompt (afterWrite s.candAddr (probeBytes s.cfg) q st s)) → GoodAt probePoint s := by
    intro s st q h1 h2 h3 h4
    cases st with
    | ok =>
      refine h1.of ?_ ?_
      · simp only [probePoint, probeCandidate, h3]; rfl
      · change ((probeCandidate (prompt s)).bind _).finish _ = _
        rw [probeCandidate]
        change (((writePhase s.candAddr (probeBytes s.cfg) (prompt s)).bind _).bind _).finish _ = _
        rw [h4]; rfl
    | err =>
      refine h2.of ?_ ?_
      · simp only [probePoint, probeCandidate, h3]; rfl
      · change ((probeCandidate (prompt s)).bind _).finish _ = _
        rw [probeCandidate]
        change (((writePhase s.candAddr (probeBytes s.cfg) (prompt s)).bind _).bind _).finish _ = _
        rw [h4]; rfl
  induction n with
  | zero =>
    intro s h hn ho he
    rcases write_turn h s.candAddr (probeBytes s.cfg) with ⟨q, h1, h2, h3⟩ | ⟨st, q, h1, h2, h3⟩
    · rw [h1] at hn; cases hn
    · exact fin (ho q h1) (he q h1) h2 h3
  | succ n ih =>
    intro s h hn ho he
    rcases write_turn h s.candAddr (probeBytes s.cfg) with ⟨q, h1, h2, h3⟩ | ⟨st, q, h1, h2, h3⟩
    · have hw : GoodAt probePoint ((s.enterWrite (probeBytes s.cfg)).setWrites q) := ih (Live.setWrites (h.same (t := s.enterWrite (probeBytes s.cfg)) rfl rfl rfl) h2) (by simpa [h1] using hn) (fun q' k => ho q' k) (fun q' k => he q' k)
      refine hw.wait (by simp only [probePoint, probeCandidate, h3]; rfl) (by simp) (step_probe rfl rfl h.init) ?_
      rw [probePoint_eq (s := prompt s) h.init, prompt_framed (b := probeBytes s.cfg) h1 s.job]
      rw [probePoint_eq (s := prompt ((s.enterWrite (probeBytes s.cfg)).setWrites q)) h.init]
      rfl
    · exact fin (ho q h1) (he q h1) h2 h3

/-- By induction on the candidates that are left. -/
theorem restPoint_good (j : Job) (hend : ∀ {t : State}, Live t → t.job = j → GoodAt afterScan t) (n : Nat) : ∀ {s : State}, Live s → s.job = j → n + s.cand.toNat = 128 → GoodAt restPoint s := by
  induction n with
  | zero =>
    intro s h hj hn
    have hl : s.candLeft = 0 := by simp only [State.candLeft]; omega
    refine (hend (t := (s.enter .sDone).replaceDir) (h.same rfl rfl rfl) hj).of ?_ ?_
    · simp only [restPoint, scanRest, hl]; rfl
    · simp only [restPoint, scanRest, show (prompt s).candLeft = 0 from hl]; rfl
  | succ n ih =>
    intro s h hj hn
    have hle : s.cand.toNat ≤ 127 := by omega
    have hc := cand_succ hle
    have hl : s.candLeft = n + 1 := by simp only [State.candLeft]; omega
    cases hm : member s.candAddr s.exc with
    | true =>
      have hl2 : (s.nextCand.enter .sNext).candLeft = n := by simp only [State.candLeft, State.enter_cand, State.nextCand_cand, hc]; omega
      refine (ih (s := s.nextCand.enter .sNext) (h.same rfl rfl rfl) hj (by simp only [State.enter_cand, State.nextCand_cand, hc]; omega)).of ?_ ?_
      · simp only [restPoint, scanRest, hl, hl2, scanLoop, hm, if_true]
      · simp only [restPoint, scanRest, show (prompt s).candLeft = n + 1 from hl, show (prompt (s.nextCand.enter .sNext)).candLeft = n from hl2, scanLoop]
        rw [show member (prompt s).candAddr (prompt s).exc = true from hm]
        rfl
    | false =>
      have key : ∀ u : State, u.cand = s.cand → u.exc = s.exc → u.init = true → restPoint u = probePoint u := by
        intro u hu he hi
        have hlu : u.candLeft = n + 1 := by rw [State.candLeft, hu]; exact hl
        have hmu : member u.candAddr u.exc = false := by rw [State.candAddr, hu, he]; exact hm
        have hk : u.cand.toNat ≤ 127 := by rw [hu]; exact hle
        simp only [restPoint, probePoint, scanRest, hlu, scanLoop, hmu, Bool.false_eq_true, if_false]
        have hp := probeCandidate_done hi
        revert hp
        cases probeCandidate u with
        | waiting v => intro _; rfl
        | done a v =>
          rintro ⟨st, e', rfl⟩
          simp only [Run.bind_done, State.candLeft, hu, hc]
          rw [show 128 - (s.cand.toNat + 1) = n by omega]
      have hrest : ∀ t : State, Live t → t.job = j → t.cand = s.cand + 1 → GoodAt restPoint t := fun t h1 h2 h3 => ih h1 h2 (by rw [h3, hc]; omega)
      have hp : GoodAt probePoint s := by
        refine probePoint_good _ h rfl ?_ ?_
        · intro q hq
          exact hrest _ ((h.afterWrite s.candAddr (probeBytes s.cfg) .ok hq).same rfl rfl rfl) (by simpa using hj) (by simp)
        · intro q hq
          have h2 := (h.afterWrite s.candAddr (probeBytes s.cfg) .err hq).same (t := (afterWrite s.candAddr (probeBytes s.cfg) q .err s).nextCand) rfl rfl rfl
          refine resetPoint_good _ h2 rfl ?_
          intro q' hq'
          exact hrest _ (h2.afterReset hq') (by simpa using hj) (by simp)
      exact hp.of (key s rfl rfl h.init) (key (prompt s) rfl rfl h.init)

theorem bodyPoint_good {j : Job} (hend : ∀ {t : State}, Live t → t.job = j → GoodAt afterScan t) {s : State} (h : Live s) (hj : s.job = j) :
    GoodAt (fun s => (scanBody s).finish fun _ s => afterScan s) s := by
  have : GoodAt resetPoint s.startScan := by
    refine resetPoint_good _ (h.same rfl rfl rfl) rfl fun q hq => ?_
    exact restPoint_good j hend 127 (Live.afterReset (h.same (t := s.startScan) rfl rfl rfl) hq) (by simpa using hj) (by simp)
  exact this.of rfl rfl

theorem respond_good (s : State) : GoodAt respondDirectory s := .end rfl rfl

theorem afterScan_plain {j : Job} (hj : j ≠ .allocate false) {t : State} (h : t.job = j) : GoodAt afterScan t := by
  have key : ∀ u : State, u.job = j → afterScan u = respondDirectory u := by
    intro u hu
    unfold afterScan
    split
    · rename_i k; rw [hu] at k; exact absurd k hj
    · rfl
  exact (respond_good t).of (key t h) (key (prompt t) h)

/-- In phase T_WRITE the word in TXBUF runs. -/
theorem step_word {w : State} {i : Instr} (hs : w.seq = .tWrite) (hd : decodeBus w.cfg w.txbuf = .ok i) : step w = exec i w := by
  simp only [step, hs, writeStep, hd]

/-- The point of a write phase of the operation `j`, followed by `k`. -/
def writePoint (j : Job) (a : Addr) (b : List Byte) (k : Status → State → State) (s : State) : State := (writePhase a b (s.withJob j)).finish k

theorem writePoint_eq {j : Job} {a : Addr} {b : List Byte} {k : Status → State → State} {s : State} (hi : s.init = true) :
   writePoint j a b k s = ((busWrite a b ((s.withJob j).enterWrite b)).bind fun st s => .done (writeStatus st) s).finish k := by
  rw [writePoint, writePhase_ready (s := s.withJob j) hi]

theorem writePoint_good (j : Job) (a : Addr) (b : List Byte) (k : Status → State → State) (n : Nat) : ∀ {s : State}, Live s → s.env.writes.length = n →
    (∀ q, .never ∉ q → step (s.framed j b q) = .next (writePoint j a b k (s.framed j b q))) →
    (∀ st q, .never ∉ q → GoodAt (k (writeStatus st)) (afterWrite a b q st (s.withJob j))) → GoodAt (writePoint j a b k) s := by
  induction n with
  | zero =>
    intro s h hn hstep hr
    have hl : Live (s.withJob j) := h.same rfl rfl rfl
    rcases write_turn hl a b with ⟨q, h1, h2, h3⟩ | ⟨st, q, h1, h2, h3⟩
    · rw [show s.env.writes = _ from h1] at hn; cases hn
    · exact (hr st q h1).of (by simp only [writePoint, h2]; rfl) (by
        change (writePhase a b (prompt (s.withJob j))).finish k = _
        rw [h3]; rfl)
  | succ n ih =>
    intro s h hn hstep hr
    have hl : Live (s.withJob j) := h.same rfl rfl rfl
    rcases write_turn hl a b with ⟨q, h1, h2, h3⟩ | ⟨st, q, h1, h2, h3⟩
    · have h1' : s.env.writes = .notYet :: q := h1
      have hw : GoodAt (writePoint j a b k) (s.framed j b q) := ih (Live.setWrites (h.same (t := (s.withJob j).enterWrite b) rfl rfl rfl) h2) (by
          rw [h1'] at hn; simpa [State.framed] using hn) (fun q' h => hstep q' h) (fun st q' h => hr st q' h)
      refine hw.wait (by simp only [writePoint, h3]; rfl) (by simp) (hstep q h2) ?_
      rw [writePoint_eq (s := prompt s) h.init, prompt_framed (b := b) h1' j]
      rw [writePoint_eq (s := prompt (s.framed j b q)) h.init]
      rfl
    · exact (hr st q h1).of (by simp only [writePoint, h2]; rfl) (by
        change (writePhase a b (prompt (s.withJob j))).finish k = _
        rw [h3]; rfl)

theorem plain_good (st : Status) (s : State) : GoodAt (fun s => s.completePlain st) s := .end rfl rfl

theorem reassign_good (a : Addr) {s : State} (h : Live s) : GoodAt (reassign a) s := by
  have e : ∀ u : State, u.init = true → reassign a u = writePoint (.allocate true) u.addr (reassignFrame u.cfg a) (fun _ s => (scanBody s).finish fun _ s => afterScan s) u := by
    intro u hu
    rw [reassign, writePoint, Run.finish_bind]
    have hp := writePhase_sat u.addr (reassignFrame u.cfg a) (s := u.withJob (.allocate true)) hu
    revert hp
    cases writePhase u.addr (reassignFrame u.cfg a) (u.withJob (.allocate true)) with
    | waiting v => intro _; rfl
    | done x v =>
      rintro ⟨st, q, -, rfl⟩
      rw [Run.finish_done, Run.finish_done]
      have hk := scanBody_keeps (s := (((u.withJob (.allocate true)).enterWrite (reassignFrame u.cfg a)).setWrites q).record (.write u.addr (reassignFrame u.cfg a) st)) hu (.inr (.inr rfl))
      revert hk
      cases scanBody ((((u.withJob (.allocate true)).enterWrite (reassignFrame u.cfg a)).setWrites q).record (.write u.addr (reassignFrame u.cfg a) st)) with
      | waiting v => intro _; rfl
      | done _ v =>
        intro hk
        have hj : v.job = .allocate true := State.ScanDone.job hk
        simp only [Run.finish_done, afterScan, hj]
  refine GoodAt.of (writePoint_good (.allocate true) s.addr (reassignFrame s.cfg a) (fun _ s => (scanBody s).finish fun _ s => afterScan s) _ h rfl ?_ ?_) (e s h.init) (e (prompt s) h.init)
  · intro q hq
    have hd : decodeBus s.cfg (reassignFrame s.cfg a) = .ok (.frameSetSlaveAddress a) :=
      (decodeBus_frame h.cfg (.w .setSlaveAddress) [addrByte a] rfl).trans (by simp [decodeParams, decodeWriteParams, byteParam, addrByte])
    rw [step_word (w := s.framed (.allocate true) (reassignFrame s.cfg a) q) (i := .frameSetSlaveAddress a) rfl hd]
    have hi : (s.framed (.allocate true) (reassignFrame s.cfg a) q).init = true := h.init
    have := e (s.framed (.allocate true) (reassignFrame s.cfg a) q) hi
    simp only [State.framed_addr, State.framed_cfg] at this
    rw [← this]
    simp only [exec, execFrameSetSlaveAddress, State.framed_job, hi, Bool.true_eq_false, if_false]
  · intro st q hq
    exact bodyPoint_good (j := .allocate true) (fun _ hj => afterScan_plain (by simp) hj) (Live.afterWrite (h.same (t := s.withJob (.allocate true)) rfl rfl rfl) _ _ _ hq) rfl

theorem search_good {s : State} (h : Live s) : GoodAt searchPhase s := by
  cases hf : freeAddress s with
  | none =>
    exact (respond_good ((s.enter .aSearch).searched 128)).of (by simp only [searchPhase, hf]) (by simp only [searchPhase, show freeAddress (prompt s) = none from hf]; rfl)
  | some a =>
    exact (reassign_good a (s := (s.enter .aSearch).searched (a.setWidth 8)) (h.same rfl rfl rfl)).of (by simp only [searchPhase, hf]) (by simp only [searchPhase, show freeAddress (prompt s) = some a from hf]; rfl)

theorem afterScan_good {s : State} (h : Live s) (hj : s.job = .allocate false) : GoodAt afterScan s := by
  cases hm : member s.addr s.dir with
  | true => exact (search_good h).of (by simp only [afterScan, hj, hm, if_true]) (by
      have e1 : (prompt s).job = .allocate false := hj
      have e2 : member (prompt s).addr (prompt s).dir = true := hm
      simp only [afterScan, e1, e2, if_true])
  | false => exact (respond_good s).of (by simp only [afterScan, hj, hm]; rfl) (by
      have e1 : (prompt s).job = .allocate false := hj
      have e2 : member (prompt s).addr (prompt s).dir = false := hm
      simp only [afterScan, e1, e2]; rfl)

theorem writeCommand_good {c : WCmd} {ps : List Byte} {legal : Bool} {i : Instr} {s : State} (h : Live s) (hd : decodeBus s.cfg (frame s.cfg (.w c) ps) = .ok i)
   (hx : ∀ u : State, u.job = .write c → exec i u = .next (writeCommand c ps legal u)) : GoodAt (writeCommand c ps legal) s := by
  cases legal with
  | false =>
    have e : ∀ u : State, u.init = true → writeCommand c ps false u = u.completePlain .badArg := fun u hu => by simp only [writeCommand, hu, Bool.true_eq_false, if_false, if_true]
    exact (plain_good .badArg s).of (e s h.init) (e (prompt s) h.init)
  | true =>
    have e : ∀ u : State, u.init = true → writeCommand c ps true u = writePoint (.write c) u.addr (frame u.cfg (.w c) ps) (fun st s => s.completePlain st) u := fun u hu => by
      simp only [writeCommand, hu, Bool.true_eq_false, if_false]; rfl
    refine GoodAt.of (writePoint_good (.write c) s.addr (frame s.cfg (.w c) ps) (fun st s => s.completePlain st) _ h rfl ?_ ?_) (e s h.init) (e (prompt s) h.init)
    · intro q hq
      rw [step_word (w := s.framed (.write c) (frame s.cfg (.w c) ps) q) (i := i) rfl hd, hx _ rfl]
      have := e (s.framed (.write c) (frame s.cfg (.w c) ps) q) h.init
      simp only [State.framed_addr, State.framed_cfg] at this
      rw [← this]
    · exact fun st q _ => plain_good _ _

theorem finishRead_good (c : RCmd) (x : Transacted) (s : State) : GoodAt (finishRead c x) s := by
  cases x with
  | notReady => exact plain_good _ _
  | fail => exact plain_good _ _
  | ok r =>
    cases hv : s.cfg.respValid c r with
    | true => exact GoodAt.of (K' := fun s => s.complete .ok (decodeResponse c r) []) (s' := s) (.end rfl rfl) (by simp only [finishRead, hv, if_true]) (by simp only [finishRead, show (prompt s).cfg.respValid c r = true from hv, if_true])
    | false => exact GoodAt.of (plain_good .fail s) (by simp only [finishRead, hv]; rfl) (by simp only [finishRead, show (prompt s).cfg.respValid c r = false from hv]; rfl)

/-- The point of the read of a class R command. -/
def readTail (c : RCmd) (s : State) : State := (readPhase s.addr (s.cfg.rlen c) s).finish fun x s => finishRead c x s
/-- The point of the delay of a class R command. -/
def delayTail (c : RCmd) (s : State) : State := (delayPhase s.addr (s.cfg.rlen c) (s.cfg.delayMs.get c) s).finish fun x s => finishRead c x s

/-- What follows the read of a class R command. -/
def readEnd (c : RCmd) (ans : BusStatus × List Byte) (s : State) : State :=
  ((if ans.1 = .ok ∧ ans.2.length = s.cfg.rlen c then Run.done (Transacted.ok ans.2) (s.received ans.2) else .done .fail (s.received ans.2))).finish fun x s => finishRead c x s

theorem readEnd_good (c : RCmd) (ans : BusStatus × List Byte) (s : State) : GoodAt (readEnd c ans) s := by
  by_cases h : ans.1 = .ok ∧ ans.2.length = s.cfg.rlen c
  · exact (finishRead_good c (.ok ans.2) (s.received ans.2)).of (by simp only [readEnd, if_pos h]; rfl) (by
      have h' : ans.1 = .ok ∧ ans.2.length = (prompt s).cfg.rlen c := h
      simp only [readEnd, if_pos h']; rfl)
  · exact (finishRead_good c .fail (s.received ans.2)).of (by simp only [readEnd, if_neg h]; rfl) (by
      have h' : ¬ (ans.1 = .ok ∧ ans.2.length = (prompt s).cfg.rlen c) := h
      simp only [readEnd, if_neg h']; rfl)

theorem readTail_eq (c : RCmd) (s : State) : readTail c s = match (s.readTurn s.addr (s.cfg.rlen c)).1 with
   | some ans => readEnd c (ans.1, ans.2.take (s.cfg.rlen c)) (((s.enter .tRead).setReads (s.readTurn s.addr (s.cfg.rlen c)).2).record (.read s.addr (s.cfg.rlen c) ans.1 (ans.2.take (s.cfg.rlen c))))
   | none => (s.enter .tRead).setReads (s.readTurn s.addr (s.cfg.rlen c)).2 := by
  rw [readTail, readPhase, busRead_eq]
  change (Run.bind (match (s.readTurn s.addr (s.cfg.rlen c)).1 with | some _ => _ | none => _) _).finish _ = _
  cases (s.readTurn s.addr (s.cfg.rlen c)).1 <;> rfl

theorem readTail_good (c : RCmd) (n : Nat) : ∀ {s : State}, Live s → s.job = .read c → s.env.reads.length = n → GoodAt (readTail c) s := by
  have fin : ∀ {s : State} {ans q}, s.readTurn s.addr (s.cfg.rlen c) = (some ans, q) → GoodAt (readTail c) s := by
    intro s ans q h
    have h' : (prompt s).readTurn (prompt s).addr ((prompt s).cfg.rlen c) = (some ans, q.filter fun c => c != .notYet) := turn_done h
    refine (readEnd_good c (ans.1, ans.2.take (s.cfg.rlen c)) (((s.enter .tRead).setReads q).record (.read s.addr (s.cfg.rlen c) ans.1 (ans.2.take (s.cfg.rlen c))))).of ?_ ?_
    · rw [readTail_eq, h]
    · rw [readTail_eq, h']; rfl
  induction n with
  | zero =>
    intro s h hj hn
    rcases turn_cases (Config.freeReadAnswer s.env.seed s.history s.addr (s.cfg.rlen c)) s.env.reads h.fair.reads with ⟨q, h1, h2, h3⟩ | ⟨ans, q, h2, h3⟩
    · rw [h1] at hn; cases hn
    · exact fin h2
  | succ n ih =>
    intro s h hj hn
    rcases turn_cases (Config.freeReadAnswer s.env.seed s.history s.addr (s.cfg.rlen c)) s.env.reads h.fair.reads with ⟨q, h1, h2, h3⟩ | ⟨ans, q, h2, h3⟩
    · have h2' : s.readTurn s.addr (s.cfg.rlen c) = (none, q) := h2
      have hw : GoodAt (readTail c) ((s.enter .tRead).setReads q) := ih (Live.setReads (h.same (t := s.enter .tRead) rfl rfl rfl) h3) hj (by rw [h1] at hn; simpa using hn)
      refine hw.wait (by rw [readTail_eq, h2']) (by simp) (by
        have : ((s.enter .tRead).setReads q).job = .read c := hj
        simp only [step, State.setReads_seq, State.enter_seq, readStep, this]; rfl) ?_
      have : prompt s = { (prompt ((s.enter .tRead).setReads q)) with seq := s.seq } := by
        simp only [prompt, withoutStalls, State.enter, State.setReads, h1]
        rfl
      rw [this]; rfl
    · exact fin h2

theorem delayTail_eq (c : RCmd) (s : State) : delayTail c s = match (takeAnswer () s.env.delays).1 with
   | some _ => readTail c (((s.enter .tDelay).setDelays (takeAnswer () s.env.delays).2).record (.delay (s.cfg.delayMs.get c)))
   | none => (s.enter .tDelay).setDelays (takeAnswer () s.env.delays).2 := by
  rw [delayTail, delayPhase, busDelay_eq]
  change (Run.bind (match (takeAnswer () s.env.delays).1 with | some _ => _ | none => _) _).finish _ = _
  cases (takeAnswer () s.env.delays).1 <;> rfl

theorem delayTail_good (c : RCmd) (n : Nat) : ∀ {s : State}, Live s → s.job = .read c → s.env.delays.length = n → GoodAt (delayTail c) s := by
  have fin : ∀ {s : State} {ans q}, Live s → s.job = .read c → .never ∉ q → takeAnswer () s.env.delays = (some ans, q) → GoodAt (delayTail c) s := by
    intro s ans q hl hj hq h
    have h' : takeAnswer () (prompt s).env.delays = (some ans, q.filter fun c => c != .notYet) := turn_done h
    refine (readTail_good c _ (s := (((s.enter .tDelay).setDelays q).record (.delay (s.cfg.delayMs.get c)))) ((Live.setDelays (hl.same (t := s.enter .tDelay) rfl rfl rfl) hq).same rfl rfl rfl) hj rfl).of ?_ ?_
    · rw [delayTail_eq, h]
    · rw [delayTail_eq, h']; rfl
  induction n with
  | zero =>
    intro s h hj hn
    rcases turn_cases () s.env.delays h.fair.delays with ⟨q, h1, h2, h3⟩ | ⟨ans, q, h2, h3⟩
    · rw [h1] at hn; cases hn
    · exact fin h hj h3 h2
  | succ n ih =>
    intro s h hj hn
    rcases turn_cases () s.env.delays h.fair.delays with ⟨q, h1, h2, h3⟩ | ⟨ans, q, h2, h3⟩
    · have hw : GoodAt (delayTail c) ((s.enter .tDelay).setDelays q) := ih (Live.setDelays (h.same (t := s.enter .tDelay) rfl rfl rfl) h3) hj (by rw [h1] at hn; simpa using hn)
      refine hw.wait (by rw [delayTail_eq, h2]) (by simp) (by
        have : ((s.enter .tDelay).setDelays q).job = .read c := hj
        simp only [step, State.setDelays_seq, State.enter_seq, delayStep, this]; rfl) ?_
      have : prompt s = { (prompt ((s.enter .tDelay).setDelays q)) with seq := s.seq } := by
        simp only [prompt, withoutStalls, State.enter, State.setDelays, h1]
        rfl
      rw [this]; rfl
    · exact fin h hj h3 h2

/-- What follows the write of a class R command. -/
def afterReadWrite (c : RCmd) (g : Cfg) (a : Addr) (st : Status) (s : State) : State :=
  (match st with
    | .ok => delayPhase a (g.rlen c) (g.delayMs.get c) s
    | .notReady => Run.done Transacted.notReady s
    | _ => .done .fail s).finish fun x s => finishRead c x s

theorem readCommand_good {c : RCmd} {i : Instr} {s : State} (h : Live s) (hd : decodeBus s.cfg (frame s.cfg (.r c) []) = .ok i)
   (hx : ∀ u : State, exec i u = .next (readCommand c u)) : GoodAt (readCommand c) s := by
  by_cases h0 : s.addr = 0
  · have e : ∀ u : State, u.init = true → u.addr = 0 → readCommand c u = u.completePlain .badArg := fun u hu ha => by simp only [readCommand, hu, Bool.true_eq_false, if_false, ha, if_true]
    exact (plain_good .badArg s).of (e s h.init h0) (e (prompt s) h.init h0)
  · have e : ∀ u : State, u.init = true → u.addr ≠ 0 → readCommand c u = writePoint (.read c) u.addr (frame u.cfg (.r c) []) (afterReadWrite c u.cfg u.addr) u := fun u hu ha => by
      simp only [readCommand, hu, Bool.true_eq_false, if_false, if_neg ha, transact, Run.finish_bind]; rfl
    refine GoodAt.of (writePoint_good (.read c) s.addr (frame s.cfg (.r c) []) (afterReadWrite c s.cfg s.addr) _ h rfl ?_ ?_) (e s h.init h0) (e (prompt s) h.init h0)
    · intro q hq
      rw [step_word (w := s.framed (.read c) (frame s.cfg (.r c) []) q) (i := i) rfl hd, hx _]
      have := e (s.framed (.read c) (frame s.cfg (.r c) []) q) h.init h0
      simp only [State.framed_addr, State.framed_cfg] at this
      rw [← this]
    · intro st q hq
      cases st with
      | err => exact plain_good .fail _
      | ok =>
        have hl : Live (afterWrite s.addr (frame s.cfg (.r c) []) q .ok (s.withJob (.read c))) := Live.afterWrite (h.same (t := s.withJob (.read c)) rfl rfl rfl) _ _ _ hq
        exact (delayTail_good c _ hl rfl rfl).of rfl rfl

end Sys2Proof.Machine
end

