-- ==== Sys2Proof/Tests/Slice0.lean ====
section
/-! SUPPORT. Tests: the decoding of one word of each row, written out from the spec's encodings; the well-formedness checks; one or
two steps per operation against the vectors of 95_test_vectors.md (the vector's id stands beside each); and, for each obligation
with hypotheses, a concrete state and operands that meet them. -/

namespace Sys2Proof.Tests

set_option Elab.async false

open Sys2Proof.Machine Sys2Proof.Claims

/-! Decoding. Request fields from R20, R81, R82; frames from R84, R85; the probe from R88. -/

theorem test_decode_init : decodeRequest { Request.zero with op := 0x00, caps := 0b0101 } = .ok (.init 0b0101) := by rfl
theorem test_decode_set_exclusions : decodeRequest { Request.zero with op := 0x01, count := 2, list := [0x30, 0x31, 0x32] } = .ok (.setExclusions 2 [0x30, 0x31]) := by rfl
theorem test_decode_scan : decodeRequest { Request.zero with op := 0x02 } = .ok (.scan) := by rfl
theorem test_decode_allocate : decodeRequest { Request.zero with op := 0x03, addr := 0x10 } = .ok (.allocate 0x10) := by rfl
theorem test_decode_get_directory : decodeRequest { Request.zero with op := 0x04 } = .ok (.getDirectory) := by rfl
theorem test_decode_get_exclusions : decodeRequest { Request.zero with op := 0x05 } = .ok (.getExclusions) := by rfl
theorem test_decode_read_measurement : decodeRequest { Request.zero with op := 0x10, addr := 0x11 } = .ok (.readMeasurement 0x11) := by rfl
theorem test_decode_read_version : decodeRequest { Request.zero with op := 0x11, addr := 0x11 } = .ok (.readVersion 0x11) := by rfl
theorem test_decode_soft_reset : decodeRequest { Request.zero with op := 0x12, addr := 0x11 } = .ok (.softReset 0x11) := by rfl
theorem test_decode_get_sample_rate : decodeRequest { Request.zero with op := 0x13, addr := 0x11 } = .ok (.getSampleRate 0x11) := by rfl
theorem test_decode_set_sample_rate : decodeRequest { Request.zero with op := 0x14, addr := 0x11, arg := 0xDEAD0064 } = .ok (.setSampleRate 0x11 0x0064) := by rfl
theorem test_decode_trigger : decodeRequest { Request.zero with op := 0x15, addr := 0x7F } = .ok (.trigger 0x7F) := by rfl
theorem test_decode_set_enable : decodeRequest { Request.zero with op := 0x16, addr := 0x11, arg := 0xFFFFFFFE } = .ok (.setEnable 0x11 0) := by rfl
theorem test_decode_get_status : decodeRequest { Request.zero with op := 0x17, addr := 0x11 } = .ok (.getStatus 0x11) := by rfl
theorem test_decode_set_slave_address : decodeRequest { Request.zero with op := 0x18, addr := 0x10, arg := 0x00000092 } = .ok (.setSlaveAddress 0x10 0x12) := by rfl
theorem test_decode_get_slave_address : decodeRequest { Request.zero with op := 0x19, addr := 0x11 } = .ok (.getSlaveAddress 0x11) := by rfl
theorem test_decode_restore_defaults : decodeRequest { Request.zero with op := 0x1A, addr := 0x12 } = .ok (.restoreDefaults 0x12) := by rfl
theorem test_decode_save_settings : decodeRequest { Request.zero with op := 0x1B, addr := 0x12 } = .ok (.saveSettings 0x12) := by rfl
theorem test_decode_get_amp_threshold : decodeRequest { Request.zero with op := 0x1C, addr := 0x11 } = .ok (.getAmpThreshold 0x11) := by rfl
theorem test_decode_set_amp_threshold : decodeRequest { Request.zero with op := 0x1D, addr := 0x11, arg := 0x00001234 } = .ok (.setAmpThreshold 0x11 0x1234) := by rfl
theorem test_decode_get_distance_limits : decodeRequest { Request.zero with op := 0x1E, addr := 0x11 } = .ok (.getDistanceLimits 0x11) := by rfl
theorem test_decode_set_distance_limits : decodeRequest { Request.zero with op := 0x1F, addr := 0x11, arg := 0x04B0001E } = .ok (.setDistanceLimits 0x11 30 1200) := by rfl
theorem test_decode_timestamp_sync : decodeRequest { Request.zero with op := 0x20, addr := 0, arg := 0x12345678 } = .ok (.timestampSync 0 0x12345678) := by rfl
theorem test_decode_frame_read_measurement : decodeBus Cfg.default [0x5A, 0x03, 0x00] = .ok (.frameReadMeasurement) := by rfl
theorem test_decode_frame_read_version : decodeBus Cfg.default [0x5A, 0x03, 0x01] = .ok (.frameReadVersion) := by rfl
theorem test_decode_frame_soft_reset : decodeBus Cfg.default [0x5A, 0x03, 0x02] = .ok (.frameSoftReset) := by rfl
theorem test_decode_frame_get_sample_rate : decodeBus Cfg.default [0x5A, 0x03, 0x03] = .ok (.frameGetSampleRate) := by rfl
theorem test_decode_frame_set_sample_rate : decodeBus Cfg.default [0x5A, 0x05, 0x04, 0xE8, 0x03] = .ok (.frameSetSampleRate 1000) := by rfl
theorem test_decode_frame_trigger : decodeBus Cfg.default [0x5A, 0x03, 0x05] = .ok (.frameTrigger) := by rfl
theorem test_decode_frame_set_enable : decodeBus Cfg.default [0x5A, 0x04, 0x06, 0x01] = .ok (.frameSetEnable 1) := by rfl
theorem test_decode_frame_get_status : decodeBus Cfg.default [0x5A, 0x03, 0x07] = .ok (.frameGetStatus) := by rfl
theorem test_decode_frame_set_slave_address : decodeBus Cfg.default [0x5A, 0x04, 0x08, 0x12] = .ok (.frameSetSlaveAddress 0x12) := by rfl
theorem test_decode_frame_get_slave_address : decodeBus Cfg.default [0x5A, 0x03, 0x09] = .ok (.frameGetSlaveAddress) := by rfl
theorem test_decode_frame_restore_defaults : decodeBus Cfg.default [0x5A, 0x03, 0x0A] = .ok (.frameRestoreDefaults) := by rfl
theorem test_decode_frame_save_settings : decodeBus Cfg.default [0x5A, 0x03, 0x0B] = .ok (.frameSaveSettings) := by rfl
theorem test_decode_frame_get_amp_threshold : decodeBus Cfg.default [0x5A, 0x03, 0x0C] = .ok (.frameGetAmpThreshold) := by rfl
theorem test_decode_frame_set_amp_threshold : decodeBus Cfg.default [0x5A, 0x05, 0x0D, 0x34, 0x12] = .ok (.frameSetAmpThreshold 0x1234) := by rfl
theorem test_decode_frame_get_distance_limits : decodeBus Cfg.default [0x5A, 0x03, 0x0E] = .ok (.frameGetDistanceLimits) := by rfl
theorem test_decode_frame_set_distance_limits : decodeBus Cfg.default [0x5A, 0x07, 0x0F, 0x1E, 0x00, 0xB0, 0x04] = .ok (.frameSetDistanceLimits 30 1200) := by rfl
theorem test_decode_frame_timestamp_sync : decodeBus Cfg.default [0x5A, 0x07, 0x10, 0x78, 0x56, 0x34, 0x12] = .ok (.frameTimestampSync 0x12345678) := by rfl
theorem test_decode_probe : decodeBus Cfg.default [0x00] = .ok .probe := by rfl

/-- Reserved codes and bytes that are no frame are rejected by name (R95, R97). -/
theorem test_decode_rejects :
    decodeRequest { Request.zero with op := 0x06 } = .error (.reservedOp 0x06) ∧ decodeRequest { Request.zero with op := 0x3F } = .error (.reservedOp 0x3F) ∧
    decodeBus Cfg.default [] = .error .empty ∧ decodeBus Cfg.default [0x01] = .error (.notProbeByte 0x01) ∧
    decodeBus Cfg.default [0x5B, 0x03, 0x00] = .error (.badMarker 0x5B) ∧
    decodeBus Cfg.default [0x5A, 0x04, 0x00] = .error (.badLength 4) ∧
    decodeBus Cfg.default [0x5A, 0x03, 0x11] = .error (.unknownCommand 0x11) ∧
    decodeBus Cfg.default [0x5A, 0x04, 0x06, 0x02] = .error (.badParameter [0x02]) :=
  ⟨rfl, rfl, rfl, rfl, rfl, rfl, rfl, rfl⟩

/-- Words of the opcode table, in its bit numbering (R93). -/
theorem test_table_words :
    decodeTableWord 8 0x00 = some (.init 0) ∧ decodeTableWord 8 0x1F = some (.setDistanceLimits 0 0 0) ∧
    decodeTableWord 24 0x5A0504 = some (.frameSetSampleRate 0) ∧ decodeTableWord 24 0x5A0408 = some (.frameSetSlaveAddress 0) ∧
    decodeTableWord 24 0x5A0411 = none := by decide +kernel

/-- A word placed for the next step is what the next step runs, as the first operation after reset. -/
theorem test_fetch_scan : step (State.reset.withFetchWord 8 0x02) = exec .scan ((State.reset.withFetchWord 8 0x02).accept []) := by rfl
theorem test_fetch_frame : step (State.reset.withFetchWord 24 0x5A0710) =
    exec (.frameTimestampSync 0) (State.reset.withFetchWord 24 0x5A0710) := by rfl
theorem test_fetch_probe : step (({ State.reset with seq := .tWrite } : State).withFetchWord 8 0x00) =
    exec .probe (({ State.reset with seq := .tWrite } : State).withFetchWord 8 0x00) := by rfl

/-! Well-formedness. -/

theorem test_wellFormed_refuses_short_list : (Instr.setExclusions 2 [0x10]).wellFormed = false := by decide +kernel
theorem test_wellFormed_refuses_long_list : (Instr.setExclusions 1 [0x10, 0x11]).wellFormed = false := by decide +kernel
theorem test_wellFormed_takes_its_list : (Instr.setExclusions 2 [0x10, 0x11]).wellFormed = true := by decide +kernel
theorem test_wellFormed_refuses_a_big_message :
    Request.wellFormed { Request.zero with list := List.replicate 128 0 } = false := by decide +kernel
theorem test_wellFormed_takes_a_full_message :
    Request.wellFormed { Request.zero with list := List.replicate 127 0 } = true := by decide +kernel

/-! States. -/

/-- The state an operation leaves. -/
def after (i : Instr) (s : State) : State :=
  match exec i s with
  | .next t => t
  | .fault _ => s
  | .refused _ => s

theorem after_eq (i : Instr) (s : State) : exec i s = .next (after i s) := by
  obtain ⟨t, h⟩ := exec_next i s
  rw [after, h]

/-- The state a step leaves. -/
def afterStep (s : State) : State :=
  match step s with
  | .next t => t
  | .fault _ => s
  | .refused _ => s

/-- After reset and `INIT(0b1111)`. -/
def ready : State := { State.reset with init := true }

/-- A ready state with answers on the bus-write and the bus-read port. -/
def answered (ws : List BusStatus) (rs : List (BusStatus × List Byte)) : State :=
  { ready with env := { Environment.free with writes := ws.map .done, reads := rs.map .done } }

/-- The answers to the probes of a scan where the addresses `occupied` answer. -/
def probeAnswers (exc occupied : List Addr) : List BusStatus :=
  (probed exc).map fun a => if member a occupied then .ok else .err

/-- The response; the writes of a trace and its resets, counted; its first three events; and its writes of more than one byte. -/
def summary (s : State) : Option Response × Nat × Nat × List BusEvent × List BusEvent :=
  (s.resp, (s.trace.filter fun e => (writeLength e).isSome).length, (s.trace.filter fun e => e == .reset).length, s.trace.take 3,
    s.trace.filter frameWrite)

/-! Operations without a bus event. -/

/-- I1, I2, I5. -/
theorem test_init : (after (.init 0b1111) State.reset).init = true ∧ (after (.init 0b0111) State.reset).init = false ∧
    (after (.init 0) ready).init = true ∧ (after (.init 0b0111) State.reset).resp = some (plainResponse .ok) := by decide +kernel

/-- E8, E4, E9. -/
theorem test_set_exclusions :
    (after (.setExclusions 4 [0x31, 0x30, 0x31, 0x00]) ready).exc = [0x31, 0x30, 0x31, 0x00] ∧
    (after (.setExclusions 1 [0x11]) { ready with dir := [0x10, 0x11] }).dir = [0x10, 0x11] := by decide +kernel
theorem test_set_exclusions_too_many :
    (after (.setExclusions 128 []) { ready with exc := [0x20] }).exc = [0x20] ∧
    (after (.setExclusions 128 []) { ready with exc := [0x20] }).resp = some (plainResponse .badArg) := by decide +kernel

/-- G1, G3. -/
theorem test_get_directory : (after .getDirectory { ready with dir := [0x10, 0x11] }).resp = some (listResponse [0x10, 0x11]) ∧
    (after .getDirectory State.reset).resp = some (plainResponse .notReady) := by decide +kernel

/-- G4, G5. -/
theorem test_get_exclusions : (after .getExclusions { ready with exc := [0x31, 0x30, 0x31, 0x00] }).resp =
      some (listResponse [0x31, 0x30, 0x31, 0x00]) ∧
    (after .getExclusions State.reset).resp = some (plainResponse .notReady) := by decide +kernel

/-! Scans. -/

/-- The start of SC4. -/
def sc4 : State := { answered (probeAnswers [0x20] [0x10, 0x11, 0x20]) [] with exc := [0x20], dir := [0x20] }

/-- SC4: the answer; 126 writes, 125 resets, and the first events. -/
theorem test_scan : summary (after .scan sc4) =
    (some (listResponse [0x10, 0x11]), 126, 125, [.reset, .write 0x01 [0x00] .err, .reset], []) := by decide +kernel

/-- The rest of a scan from its candidate 0x7E on, the probe of it standing in TXBUF (R151). -/
theorem test_probe :
    (after .probe { answered [.ok, .err] [] with job := .scan, cand := 0x7E, new := [0x10], seq := .tWrite, txbuf := [0x00] }).dir =
      [0x10, 0x7E] ∧
    (after .probe { answered [.ok, .err] [] with job := .scan, cand := 0x7E, new := [0x10], seq := .tWrite, txbuf := [0x00] }).trace =
      [.write 0x7E [0x00] .ok, .write 0x7F [0x00] .err, .reset] := by decide +kernel

/-! The allocator. -/

/-- The start of AL2: devices at 0x10 and 0x11. The reassignment write is left outstanding. -/
def al2 : State :=
  { answered [] [] with
    env := { Environment.free with writes := (probeAnswers [] [0x10, 0x11]).map .done ++ [.notYet] } }

/-- AL2 up to its reassignment write, which stands in TXBUF: the first directory, the frame and its target. -/
theorem test_allocate : (let t := after (.allocate 0x10) al2; (t.seq, t.txbuf, t.addr, t.dir)) =
    (.tWrite, [0x5A, 0x04, 0x08, 0x01], 0x10, [0x10, 0x11]) := by decide +kernel

/-- AL13: with `ALLOC_LO` = 0x10 the search gives 0x12. -/
theorem test_allocate_from_alloc_lo :
    freeAddress { ready with cfg := { Cfg.default with allocLo := 0x10 }, dir := [0x10, 0x11], addr := 0x10 } = some 0x12 := by
  decide +kernel

/-- AL2 from its reassignment write on: the frame, and the second scan. -/
theorem test_frame_set_slave_address_in_allocate :
    summary (after (.frameSetSlaveAddress 0x01) { answered ([.ok] ++ probeAnswers [] [0x01, 0x11]) [] with
      job := .allocate true, addr := 0x10, seq := .tWrite, txbuf := [0x5A, 0x04, 0x08, 0x01] }) =
    (some (listResponse [0x01, 0x11]), 128, 126, [.write 0x10 [0x5A, 0x04, 0x08, 0x01] .ok, .reset, .write 0x01 [0x00] .ok],
      [.write 0x10 [0x5A, 0x04, 0x08, 0x01] .ok]) := by decide +kernel

/-! Catalog commands: CM0 to CM16, with corner cases of CW and CR. -/

/-- The response of a class R command to a payload, with any header. -/
def readOf (i : Instr) (r : List Byte) : Option Response := (after i (answered [.ok] [(.ok, r)])).resp

/-- An `OK` response with an output value. -/
def value (v : Val) : Option Response := some { status := .ok, val := v, snap := [] }

/-- CM0. -/
theorem test_read_measurement : readOf (.readMeasurement 0x11) [0xAA, 0x55, 0x64, 0x00, 0x0A, 0x00, 0x01, 0x00, 0x00, 0x00] = value 0x00000001000A0064 ∧
    (after (.readMeasurement 0x11) (answered [.ok] [(.ok, [0xAA, 0x55, 0x64, 0x00, 0x0A, 0x00, 0x01, 0x00, 0x00, 0x00])])).trace =
      [.write 0x11 [0x5A, 0x03, 0x00] .ok, .delay 10, .read 0x11 10 .ok [0xAA, 0x55, 0x64, 0x00, 0x0A, 0x00, 0x01, 0x00, 0x00, 0x00]] := by decide +kernel
/-- CM0, from its frame in TXBUF on. -/
theorem test_frame_read_measurement : (after .frameReadMeasurement { answered [.ok] [(.ok, [0xAA, 0x55, 0x64, 0x00, 0x0A, 0x00, 0x01, 0x00, 0x00, 0x00])] with addr := 0x11 }).resp = value 0x00000001000A0064 := by decide +kernel

/-- CM1. -/
theorem test_read_version : readOf (.readVersion 0x11) [0xAA, 0x55, 0x01, 0x02, 0x03] = value 0x30201 ∧
    (after (.readVersion 0x11) (answered [.ok] [(.ok, [0xAA, 0x55, 0x01, 0x02, 0x03])])).trace =
      [.write 0x11 [0x5A, 0x03, 0x01] .ok, .delay 10, .read 0x11 5 .ok [0xAA, 0x55, 0x01, 0x02, 0x03]] := by decide +kernel
/-- CM1, from its frame in TXBUF on. -/
theorem test_frame_read_version : (after .frameReadVersion { answered [.ok] [(.ok, [0xAA, 0x55, 0x01, 0x02, 0x03])] with addr := 0x11 }).resp = value 0x30201 := by decide +kernel

/-- CM3. -/
theorem test_get_sample_rate : readOf (.getSampleRate 0x11) [0xAA, 0x55, 0xE8, 0x03] = value 1000 ∧
    (after (.getSampleRate 0x11) (answered [.ok] [(.ok, [0xAA, 0x55, 0xE8, 0x03])])).trace =
      [.write 0x11 [0x5A, 0x03, 0x03] .ok, .delay 10, .read 0x11 4 .ok [0xAA, 0x55, 0xE8, 0x03]] := by decide +kernel
/-- CM3, from its frame in TXBUF on. -/
theorem test_frame_get_sample_rate : (after .frameGetSampleRate { answered [.ok] [(.ok, [0xAA, 0x55, 0xE8, 0x03])] with addr := 0x11 }).resp = value 1000 := by decide +kernel

/-- CM7. -/
theorem test_get_status : readOf (.getStatus 0x11) [0xAA, 0x55, 0x01] = value 1 ∧
    (after (.getStatus 0x11) (answered [.ok] [(.ok, [0xAA, 0x55, 0x01])])).trace =
      [.write 0x11 [0x5A, 0x03, 0x07] .ok, .delay 10, .read 0x11 3 .ok [0xAA, 0x55, 0x01]] := by decide +kernel
/-- CM7, from its frame in TXBUF on. -/
theorem test_frame_get_status : (after .frameGetStatus { answered [.ok] [(.ok, [0xAA, 0x55, 0x01])] with addr := 0x11 }).resp = value 1 := by decide +kernel

/-- CM9. -/
theorem test_get_slave_address : readOf (.getSlaveAddress 0x11) [0xAA, 0x55, 0x11] = value 0x11 ∧
    (after (.getSlaveAddress 0x11) (answered [.ok] [(.ok, [0xAA, 0x55, 0x11])])).trace =
      [.write 0x11 [0x5A, 0x03, 0x09] .ok, .delay 10, .read 0x11 3 .ok [0xAA, 0x55, 0x11]] := by decide +kernel
/-- CM9, from its frame in TXBUF on. -/
theorem test_frame_get_slave_address : (after .frameGetSlaveAddress { answered [.ok] [(.ok, [0xAA, 0x55, 0x11])] with addr := 0x11 }).resp = value 0x11 := by decide +kernel

/-- CM12. -/
theorem test_get_amp_threshold : readOf (.getAmpThreshold 0x11) [0xAA, 0x55, 0x64, 0x00] = value 100 ∧
    (after (.getAmpThreshold 0x11) (answered [.ok] [(.ok, [0xAA, 0x55, 0x64, 0x00])])).trace =
      [.write 0x11 [0x5A, 0x03, 0x0C] .ok, .delay 10, .read 0x11 4 .ok [0xAA, 0x55, 0x64, 0x00]] := by decide +kernel
/-- CM12, from its frame in TXBUF on. -/
theorem test_frame_get_amp_threshold : (after .frameGetAmpThreshold { answered [.ok] [(.ok, [0xAA, 0x55, 0x64, 0x00])] with addr := 0x11 }).resp = value 100 := by decide +kernel

/-- CM14. -/
theorem test_get_distance_limits : readOf (.getDistanceLimits 0x11) [0xAA, 0x55, 0x1E, 0x00, 0xB0, 0x04] = value 0x4B0001E ∧
    (after (.getDistanceLimits 0x11) (answered [.ok] [(.ok, [0xAA, 0x55, 0x1E, 0x00, 0xB0, 0x04])])).trace =
      [.write 0x11 [0x5A, 0x03, 0x0E] .ok, .delay 10, .read 0x11 6 .ok [0xAA, 0x55, 0x1E, 0x00, 0xB0, 0x04]] := by decide +kernel
/-- CM14, from its frame in TXBUF on. -/
theorem test_frame_get_distance_limits : (after .frameGetDistanceLimits { answered [.ok] [(.ok, [0xAA, 0x55, 0x1E, 0x00, 0xB0, 0x04])] with addr := 0x11 }).resp = value 0x4B0001E := by decide +kernel

/-- CR2, CR4, CR5: the byte order of every field; a short read; `ERR` wins over a full buffer. -/
theorem test_read_measurement_corners :
    readOf (.readMeasurement 0x11) [0x5A, 0x0A, 0x34, 0x12, 0x78, 0x56, 0xEF, 0xCD, 0xAB, 0x89] = value 0x89ABCDEF56781234 ∧
    readOf (.readMeasurement 0x11) [0x00, 0x00, 0x64, 0x00, 0x0A, 0x00, 0x01, 0x00, 0x00] = some (plainResponse .fail) ∧
    (after (.readMeasurement 0x11) (answered [.ok] [(.err, [0, 0, 0x64, 0, 0x0A, 0, 1, 0, 0, 0])])).resp =
      some (plainResponse .fail) := by decide +kernel

/-- CR14: a configuration whose check requires byte 0 to be 0x5A. -/
theorem test_response_check :
    (after (.readMeasurement 0x11) { answered [.ok] [(.ok, [0, 0, 0x64, 0, 0x0A, 0, 1, 0, 0, 0])] with
      cfg := { Cfg.default with respCheck := .require [(0, 0x5A)] } }).resp = some (plainResponse .fail) := by decide +kernel

/-- CM-F1: a failed write, then no delay and no read. -/
theorem test_failed_write : (after (.readMeasurement 0x11) (answered [.err] [])).trace = [.write 0x11 [0x5A, 0x03, 0x00] .err] ∧
    (after (.readMeasurement 0x11) (answered [.err] [])).resp = some (plainResponse .fail) := by decide +kernel

/-- CM2, answered `OK` and answered `ERR`. -/
theorem test_soft_reset : (after (.softReset 0) (answered [.ok] [])).trace = [.write 0x00 [0x5A, 0x03, 0x02] .ok] ∧
    (after (.softReset 0) (answered [.ok] [])).resp = some (plainResponse .ok) ∧
    (after (.softReset 0) (answered [.err] [])).resp = some (plainResponse .fail) := by decide +kernel
/-- CM2, its frame in TXBUF. -/
theorem test_frame_soft_reset : (after (.frameSoftReset) { answered [.ok] [] with addr := 0x00 }).trace = [.write 0x00 [0x5A, 0x03, 0x02] .ok] := by decide +kernel

/-- CM4, answered `OK` and answered `ERR`. -/
theorem test_set_sample_rate : (after (.setSampleRate 0x11 1000) (answered [.ok] [])).trace = [.write 0x11 [0x5A, 0x05, 0x04, 0xE8, 0x03] .ok] ∧
    (after (.setSampleRate 0x11 1000) (answered [.ok] [])).resp = some (plainResponse .ok) ∧
    (after (.setSampleRate 0x11 1000) (answered [.err] [])).resp = some (plainResponse .fail) := by decide +kernel
/-- CM4, its frame in TXBUF. -/
theorem test_frame_set_sample_rate : (after (.frameSetSampleRate 1000) { answered [.ok] [] with addr := 0x11 }).trace = [.write 0x11 [0x5A, 0x05, 0x04, 0xE8, 0x03] .ok] := by decide +kernel

/-- CW20, answered `OK` and answered `ERR`. -/
theorem test_trigger : (after (.trigger 0x7F) (answered [.ok] [])).trace = [.write 0x7F [0x5A, 0x03, 0x05] .ok] ∧
    (after (.trigger 0x7F) (answered [.ok] [])).resp = some (plainResponse .ok) ∧
    (after (.trigger 0x7F) (answered [.err] [])).resp = some (plainResponse .fail) := by decide +kernel
/-- CW20, its frame in TXBUF. -/
theorem test_frame_trigger : (after (.frameTrigger) { answered [.ok] [] with addr := 0x7F }).trace = [.write 0x7F [0x5A, 0x03, 0x05] .ok] := by decide +kernel

/-- CM6, answered `OK` and answered `ERR`. -/
theorem test_set_enable : (after (.setEnable 0x11 1) (answered [.ok] [])).trace = [.write 0x11 [0x5A, 0x04, 0x06, 0x01] .ok] ∧
    (after (.setEnable 0x11 1) (answered [.ok] [])).resp = some (plainResponse .ok) ∧
    (after (.setEnable 0x11 1) (answered [.err] [])).resp = some (plainResponse .fail) := by decide +kernel
/-- CM6, its frame in TXBUF. -/
theorem test_frame_set_enable : (after (.frameSetEnable 1) { answered [.ok] [] with addr := 0x11 }).trace = [.write 0x11 [0x5A, 0x04, 0x06, 0x01] .ok] := by decide +kernel

/-- CM8, answered `OK` and answered `ERR`. -/
theorem test_set_slave_address : (after (.setSlaveAddress 0x10 0x12) (answered [.ok] [])).trace = [.write 0x10 [0x5A, 0x04, 0x08, 0x12] .ok] ∧
    (after (.setSlaveAddress 0x10 0x12) (answered [.ok] [])).resp = some (plainResponse .ok) ∧
    (after (.setSlaveAddress 0x10 0x12) (answered [.err] [])).resp = some (plainResponse .fail) := by decide +kernel
/-- CM8, its frame in TXBUF. -/
theorem test_frame_set_slave_address : (after (.frameSetSlaveAddress 0x12) { answered [.ok] [] with addr := 0x10 }).trace = [.write 0x10 [0x5A, 0x04, 0x08, 0x12] .ok] := by decide +kernel

/-- CM10, answered `OK` and answered `ERR`. -/
theorem test_restore_defaults : (after (.restoreDefaults 0x12) (answered [.ok] [])).trace = [.write 0x12 [0x5A, 0x03, 0x0A] .ok] ∧
    (after (.restoreDefaults 0x12) (answered [.ok] [])).resp = some (plainResponse .ok) ∧
    (after (.restoreDefaults 0x12) (answered [.err] [])).resp = some (plainResponse .fail) := by decide +kernel
/-- CM10, its frame in TXBUF. -/
theorem test_frame_restore_defaults : (after (.frameRestoreDefaults) { answered [.ok] [] with addr := 0x12 }).trace = [.write 0x12 [0x5A, 0x03, 0x0A] .ok] := by decide +kernel

/-- CM11, answered `OK` and answered `ERR`. -/
theorem test_save_settings : (after (.saveSettings 0x12) (answered [.ok] [])).trace = [.write 0x12 [0x5A, 0x03, 0x0B] .ok] ∧
    (after (.saveSettings 0x12) (answered [.ok] [])).resp = some (plainResponse .ok) ∧
    (after (.saveSettings 0x12) (answered [.err] [])).resp = some (plainResponse .fail) := by decide +kernel
/-- CM11, its frame in TXBUF. -/
theorem test_frame_save_settings : (after (.frameSaveSettings) { answered [.ok] [] with addr := 0x12 }).trace = [.write 0x12 [0x5A, 0x03, 0x0B] .ok] := by decide +kernel

/-- CW19, answered `OK` and answered `ERR`. -/
theorem test_set_amp_threshold : (after (.setAmpThreshold 0x11 0x1234) (answered [.ok] [])).trace = [.write 0x11 [0x5A, 0x05, 0x0D, 0x34, 0x12] .ok] ∧
    (after (.setAmpThreshold 0x11 0x1234) (answered [.ok] [])).resp = some (plainResponse .ok) ∧
    (after (.setAmpThreshold 0x11 0x1234) (answered [.err] [])).resp = some (plainResponse .fail) := by decide +kernel
/-- CW19, its frame in TXBUF. -/
theorem test_frame_set_amp_threshold : (after (.frameSetAmpThreshold 0x1234) { answered [.ok] [] with addr := 0x11 }).trace = [.write 0x11 [0x5A, 0x05, 0x0D, 0x34, 0x12] .ok] := by decide +kernel

/-- CW15, answered `OK` and answered `ERR`. -/
theorem test_set_distance_limits : (after (.setDistanceLimits 0x11 1200 30) (answered [.ok] [])).trace = [.write 0x11 [0x5A, 0x07, 0x0F, 0xB0, 0x04, 0x1E, 0x00] .ok] ∧
    (after (.setDistanceLimits 0x11 1200 30) (answered [.ok] [])).resp = some (plainResponse .ok) ∧
    (after (.setDistanceLimits 0x11 1200 30) (answered [.err] [])).resp = some (plainResponse .fail) := by decide +kernel
/-- CW15, its frame in TXBUF. -/
theorem test_frame_set_distance_limits : (after (.frameSetDistanceLimits 1200 30) { answered [.ok] [] with addr := 0x11 }).trace = [.write 0x11 [0x5A, 0x07, 0x0F, 0xB0, 0x04, 0x1E, 0x00] .ok] := by decide +kernel

/-- CM16, answered `OK` and answered `ERR`. -/
theorem test_timestamp_sync : (after (.timestampSync 0 0x12345678) (answered [.ok] [])).trace = [.write 0x00 [0x5A, 0x07, 0x10, 0x78, 0x56, 0x34, 0x12] .ok] ∧
    (after (.timestampSync 0 0x12345678) (answered [.ok] [])).resp = some (plainResponse .ok) ∧
    (after (.timestampSync 0 0x12345678) (answered [.err] [])).resp = some (plainResponse .fail) := by decide +kernel
/-- CM16, its frame in TXBUF. -/
theorem test_frame_timestamp_sync : (after (.frameTimestampSync 0x12345678) { answered [.ok] [] with addr := 0x00 }).trace = [.write 0x00 [0x5A, 0x07, 0x10, 0x78, 0x56, 0x34, 0x12] .ok] := by decide +kernel

/-! Refusals: ST1, ST4, ST5, ST10. -/

theorem test_reserved_before_init :
    (afterStep { State.reset with host := [{ Request.zero with op := 0x06 }] }).resp = some (plainResponse .badArg) := by decide +kernel
theorem test_not_ready_before_bad_arg : (after (.readMeasurement 0) State.reset).resp = some (plainResponse .notReady) := by decide +kernel
theorem test_read_of_address_zero : (after (.readMeasurement 0) ready).resp = some (plainResponse .badArg) := by decide +kernel
theorem test_new_address_zero :
    (afterStep { ready with host := [{ Request.zero with op := 0x18, addr := 0x10, arg := 0x00000080 }] }).resp = some (plainResponse .badArg) := by decide +kernel

/-! Witnesses: concrete states and operands that meet the hypotheses of each obligation. -/

theorem witness_configuration : Cfg.default.Ok := by
  refine ⟨by decide, ?_, ?_, by decide⟩ <;> (intro c; cases c <;> decide)

theorem witness_DecodingUndoesEncoding : Cfg.default.Ok ∧ (Instr.setExclusions 2 [0x10, 0x11]).wellFormed = true :=
  ⟨witness_configuration, by decide⟩

theorem witness_EveryDecodedBusWordIsTheEncodedOne :
    decodeBus Cfg.default [0x5A, 0x04, 0x06, 0x01] = .ok (.frameSetEnable 1) := by rfl

theorem witness_FramesAreMarkerLengthIdentifierParameters :
    busFrame Cfg.default (.frameSetDistanceLimits 30 1200) = some [0x5A, 7, 0x0F, 0x1E, 0x00, 0xB0, 0x04] ∧
    busCommand .frameGetStatus = some .getStatus := by decide

/-- A request with each operation code of the table. -/
theorem witness_OperandsComeFromTheirRequestFields :
    ([0x00, 0x01, 0x02, 0x03, 0x04, 0x05, 0x10, 0x11, 0x12, 0x13, 0x14, 0x15, 0x16, 0x17, 0x18, 0x19, 0x1A, 0x1B, 0x1C, 0x1D, 0x1E,
      0x1F, 0x20] : List (BitVec 6)).all (fun k => (Request.plain k 0x11).op == k) = true := by decide

/-- A full list, and one entry read past a shorter one. -/
theorem witness_exclusion_entries :
    (Request.entries { Request.zero with count := 0x7F, list := List.replicate 127 0x10 } 127).length = 127 ∧
    Request.entries { Request.zero with count := 2, list := [0x10] } 2 = [0x10, 0] := by decide +kernel

/-- A step in `IDLE` gives a next state. -/
theorem afterStep_idle {s : State} (h : s.seq = .idle) : step s = .next (afterStep s) := by
  have : ∃ t, step s = .next t := by
    simp only [step, h, idleStep]
    split
    · exact ⟨_, rfl⟩
    · split
      · exact exec_next _ _
      · exact ⟨_, rfl⟩
  obtain ⟨t, ht⟩ := this
  rw [afterStep, ht]

/-- A state with a request presented. -/
def asked (s : State) (r : Request) : State := { s with host := [r] }

theorem witness_StepRunsTheDecodedOperation :
    (asked ready (.plain 0x17 0x11)).seq = .idle ∧ (asked ready (.plain 0x17 0x11)).host = [.plain 0x17 0x11] ∧
    decodeRequest (.plain 0x17 0x11) = .ok (.getStatus 0x11) ∧
    ({ ready with seq := .tWrite, txbuf := [0x5A, 0x03, 0x07] } : State).seq = .tWrite ∧
    decodeBus Cfg.default [0x5A, 0x03, 0x07] = .ok .frameGetStatus := ⟨rfl, rfl, rfl, rfl, rfl⟩

/-- The ends of both ranges of reserved codes. -/
theorem witness_ReservedCodesAreRefused :
    (asked ready (.plain 0x06 0)).host = [.plain 0x06 0] ∧ (Request.plain 0x06 0).op.toNat = 0x06 ∧
    (Request.plain 0x0F 0).op.toNat = 0x0F ∧ (Request.plain 0x21 0).op.toNat = 0x21 ∧ (Request.plain 0x3F 0).op.toNat = 0x3F :=
  ⟨rfl, rfl, rfl, rfl, rfl⟩

theorem witness_IdleMachineWaitsForARequest : ready.seq = .idle ∧ ready.host = [] := ⟨rfl, rfl⟩

/-- A class R command whose write is outstanding. -/
def writing (c : Completion BusStatus) : State :=
  { ready with seq := .tWrite, job := .read .getStatus, addr := 0x11, txbuf := [0x5A, 0x03, 0x07],
               env := { Environment.free with writes := [c] } }

/-- The same command with its delay outstanding. -/
def delaying (c : Completion Unit) : State :=
  { writing .notYet with seq := .tDelay, env := { Environment.free with delays := [c] }, trace := [.write 0x11 [0x5A, 0x03, 0x07] .ok] }

/-- The same command with its read outstanding. -/
def reading (c : Completion (BusStatus × List Byte)) : State :=
  { delaying .notYet with seq := .tRead, env := { Environment.free with reads := [c] } }

/-- A scan with its first reset outstanding. -/
def resetting (c : Completion Unit) : State :=
  { ready with seq := .sReset, job := .scan, env := { Environment.free with resets := [c] } }

theorem ready_inv : ready.Inv :=
  ⟨witness_configuration, ⟨List.Pairwise.nil, by simp [ready, State.reset]⟩, by decide, by simp [ready],
    by simp [ready, State.reset], by simp [ready, State.reset], trivial⟩

theorem writing_inv (c : Completion BusStatus) : (writing c).Inv :=
  ⟨witness_configuration, ready_inv.dirOk, ready_inv.excFits, by simp [writing, ready], by simp [writing, ready, State.reset],
    by simp [writing, ready, State.reset], ⟨.frameGetStatus, rfl, rfl, by simp [writing]⟩⟩

theorem delaying_inv (c : Completion Unit) : (delaying c).Inv :=
  ⟨witness_configuration, ready_inv.dirOk, ready_inv.excFits, by simp [delaying, writing, ready],
    by simp [delaying, writing, ready, State.reset], by simp [delaying, writing, ready, State.reset], ⟨.getStatus, rfl⟩⟩

theorem reading_inv (c : Completion (BusStatus × List Byte)) : (reading c).Inv :=
  ⟨witness_configuration, ready_inv.dirOk, ready_inv.excFits, by simp [reading, delaying, writing, ready],
    by simp [reading, delaying, writing, ready, State.reset], by simp [reading, delaying, writing, ready, State.reset],
    ⟨.getStatus, rfl⟩⟩

theorem resetting_inv (c : Completion Unit) : (resetting c).Inv :=
  ⟨witness_configuration, ready_inv.dirOk, ready_inv.excFits, by simp [resetting, ready], by simp [resetting, ready, State.reset],
    by simp [resetting, ready, State.reset],
    ⟨.inl rfl, Nat.le_of_ble_eq_true rfl, Nat.le_of_ble_eq_true rfl, ⟨List.Pairwise.nil, by simp [resetting, ready, State.reset]⟩,
      by simp [resetting, ready, State.reset], by simp [resetting, ready, State.reset]⟩⟩

theorem witness_BusyMachineAcceptsNoRequest :
    (writing (.done .err)).seq ≠ .idle ∧ step (writing (.done .err)) = .next (afterStep (writing (.done .err))) := ⟨by decide, rfl⟩

theorem witness_ResponseStaysUntilTheNextRequest :
    ({ ready with resp := some (plainResponse .fail) } : State).Inv ∧ step { ready with resp := some (plainResponse .fail) } =
      .next { ready with resp := some (plainResponse .fail) } :=
  ⟨⟨witness_configuration, ready_inv.dirOk, ready_inv.excFits, by simp [ready], fun _ _ => rfl,
    by rintro r ⟨⟩; exact ⟨fun _ => ⟨rfl, rfl⟩, by decide⟩, trivial⟩, rfl⟩

/-- A state of a run with an operation in progress, and its step. -/
theorem witness_EveryStepKeepsTheInvariant :
    (writing (.done .err)).Inv ∧ step (writing (.done .err)) = .next (afterStep (writing (.done .err))) := ⟨writing_inv _, rfl⟩

theorem witness_NoStepOfARunStops : (delaying .notYet).Inv := delaying_inv _

theorem witness_OnlyACompleteInitSetsTheFlag :
    step (asked State.reset { Request.zero with caps := 15 }) = .next (afterStep (asked State.reset { Request.zero with caps := 15 })) ∧
    (afterStep (asked State.reset { Request.zero with caps := 15 })).init = true ∧
    step (asked ready Request.zero) = .next (afterStep (asked ready Request.zero)) := ⟨rfl, rfl, rfl⟩

theorem witness_OnlySetExclusionsWritesTheExclusionList :
    step (asked ready { Request.zero with op := 1, count := 1, list := [0x20] }) =
      .next (afterStep (asked ready { Request.zero with op := 1, count := 1, list := [0x20] })) ∧
    (afterStep (asked ready { Request.zero with op := 1, count := 1, list := [0x20] })).exc ≠ ready.exc := ⟨rfl, by decide⟩

/-- A ready state in which every probe is answered `OK`. -/
def full : State := answered (List.replicate 127 .ok) []

theorem witness_OnlyScansWriteTheDirectory :
    (asked full (.plain 0x02 0)).seq = .idle ∧
    step (asked full (.plain 0x02 0)) = .next (afterStep (asked full (.plain 0x02 0))) ∧
    (afterStep (asked full (.plain 0x02 0))).dir ≠ full.dir := ⟨rfl, afterStep_idle rfl, by decide +kernel⟩

/-- An operation in its scan body, with its first reset outstanding and every probe to be answered `OK`. -/
def scanningFull (j : Job) (c : Completion Unit) : State :=
  { full with seq := .sReset, job := j, env := { full.env with resets := [c] } }

theorem scanningFull_inv (j : Job) (hj : j = .scan ∨ j = .allocate false ∨ j = .allocate true) (c : Completion Unit) :
    (scanningFull j c).Inv :=
  ⟨witness_configuration, ready_inv.dirOk, ready_inv.excFits, by simp [scanningFull, full, answered, ready],
    by simp [scanningFull, full, answered, ready, State.reset], by simp [scanningFull, full, answered, ready, State.reset],
    ⟨hj, Nat.le_of_ble_eq_true rfl, Nat.le_of_ble_eq_true rfl,
      ⟨List.Pairwise.nil, by simp [scanningFull, full, answered, ready, State.reset]⟩,
      by simp [scanningFull, full, answered, ready, State.reset], by simp [scanningFull, full, answered, ready, State.reset]⟩⟩

theorem scanningFull_step (j : Job) (c : Completion Unit) : step (scanningFull j c) = .next (afterStep (scanningFull j c)) := rfl

/-- The clause of a step that goes on with an operation: the scan is done and the directory is another. -/
theorem witness_OnlyScansWriteTheDirectory_busy :
    (scanningFull .scan (.done ())).Inv ∧ (scanningFull .scan (.done ())).seq ≠ .idle ∧
    step (scanningFull .scan (.done ())) = .next (afterStep (scanningFull .scan (.done ()))) ∧
    (afterStep (scanningFull .scan (.done ()))).dir ≠ (scanningFull .scan (.done ())).dir :=
  ⟨scanningFull_inv _ (.inl rfl) _, by simp [scanningFull], scanningFull_step _ _, by decide +kernel⟩

theorem witness_NoStepWritesTheConfiguration : step ready = .next ready := rfl

theorem witness_NoBusEventBeforeInit : (asked State.reset (.plain 0x02 0)).Inv ∧ (asked State.reset (.plain 0x02 0)).init = false ∧
    step (asked State.reset (.plain 0x02 0)) = .next (afterStep (asked State.reset (.plain 0x02 0))) :=
  ⟨⟨witness_configuration, ready_inv.dirOk, ready_inv.excFits, fun _ => ⟨rfl, rfl⟩, by simp [asked, State.reset],
    by simp [asked, State.reset], trivial⟩, rfl, rfl⟩

/-- Each clause at a boundary of `COUNT`. -/
theorem witness_SetExclusionsReplacesTheListWhole :
    (Instr.setExclusions 127 (List.replicate 127 0x10)).wellFormed = true ∧ (127 : Byte).toNat ≤ 127 ∧
    (Instr.setExclusions 0 []).wellFormed = true ∧
    (Instr.setExclusions 128 (List.replicate 127 0x10)).wellFormed = true ∧ 127 < (128 : Byte).toNat ∧
    ready.init = true ∧ State.reset.init = false := by decide +kernel

theorem witness_UninitialisedOperationsAnswerNotReady : (∀ caps, Instr.scan ≠ .init caps) ∧ State.reset.init = false :=
  ⟨fun _ => by simp, rfl⟩

theorem witness_IllegalOperandsAreRefused : ready.init = true ∧ hostRead (.getStatus 0) = some (.getStatus, 0) ∧
    Instr.setSlaveAddress 0x10 0 = .setSlaveAddress 0x10 0 ∧ 127 < (128 : Byte).toNat := by decide

theorem witness_FramesWithIllegalOperandsAreRefused : ready.init = true ∧ busCommand .frameGetStatus = some .getStatus ∧
    ready.addr = 0 ∧ outsideScans ready.job (.frameSetSlaveAddress 0) := ⟨rfl, rfl, rfl, by decide, by decide⟩

theorem witness_WriteCommandsSendOneFrame :
    hostFrame Cfg.default (.setEnable 0 1) = some (0, [0x5A, 4, 0x06, 0x01]) ∧ newAddressGiven (.setEnable 0 1) ∧
    (answered [.err] []).init = true ∧ (answered [.err] []).writeTurn 0 [0x5A, 4, 0x06, 0x01] = (some .err, []) ∧
    State.reset.init = false ∧ hostFrame ready.cfg (.setSlaveAddress 0x10 0) = some (0x10, [0x5A, 4, 0x08, 0]) ∧
    ready.init = true ∧ ¬ newAddressGiven (.setSlaveAddress 0x10 0) :=
  ⟨rfl, trivial, rfl, rfl, rfl, rfl, rfl, by simp [newAddressGiven]⟩

/-- The clauses of the tests and of a failed write. -/
theorem witness_ReadCommandsAnswerTheirPayload_refused :
    State.reset.init = false ∧ hostRead (.getStatus 0) = some (.getStatus, 0) ∧ ready.init = true ∧
    (answered [.err] []).init = true ∧
    (answered [.err] []).writeTurn 0x11 (readFrame (answered [.err] []).cfg .getStatus) = (some .err, []) :=
  ⟨rfl, rfl, rfl, rfl, rfl⟩

/-- A read answered in full, and one answered short. -/
theorem witness_ReadCommandsAnswerTheirPayload :
    hostRead (.getStatus 0x11) = some (.getStatus, 0x11) ∧ (answered [.ok] [(.ok, [0, 0, 1])]).init = true ∧ (0x11 : Addr) ≠ 0 ∧
    (answered [.ok] [(.ok, [0, 0, 1])]).writeTurn 0x11 (readFrame Cfg.default .getStatus) = (some .ok, []) ∧
    takeAnswer () (answered [.ok] [(.ok, [0, 0, 1])]).env.delays = (some (), []) ∧
    readTurnAfter (answered [.ok] [(.ok, [0, 0, 1])])
      [.write 0x11 (readFrame Cfg.default .getStatus) .ok, .delay (Cfg.default.delayMs.get .getStatus)] 0x11
      (Cfg.default.rlen .getStatus) = (some (.ok, [0, 0, 1]), []) ∧
    [0, 0, (1 : Byte)].length ≤ Cfg.default.rlen .getStatus ∧ ([] : List Byte).length ≤ Cfg.default.rlen .getStatus :=
  ⟨rfl, rfl, by decide, rfl, rfl, rfl, by decide, by decide⟩

theorem witness_WriteFramesSendThemselves :
    busFrame Cfg.default (.frameSetSlaveAddress 0x12) = some [0x5A, 4, 0x08, 0x12] ∧
    outsideScans (answered [.ok] []).job (.frameSetSlaveAddress 0x12) ∧ newAddressGiven (.frameSetSlaveAddress 0x12) ∧
    (answered [.ok] []).init = true ∧ (answered [.ok] []).writeTurn (answered [.ok] []).addr [0x5A, 4, 0x08, 0x12] = (some .ok, []) :=
  ⟨rfl, ⟨by decide, by decide⟩, by simp [newAddressGiven], rfl, rfl⟩

/-- A ready state with a target in `ADDR`. -/
def aimed : State := { answered [.ok] [(.err, [])] with addr := 0x11 }

theorem witness_ReadFramesAnswerTheirPayload :
    busCommand .frameGetStatus = some .getStatus ∧ aimed.init = true ∧ aimed.addr ≠ 0 ∧
    aimed.writeTurn aimed.addr (readFrame aimed.cfg .getStatus) = (some .ok, []) ∧
    takeAnswer () aimed.env.delays = (some (), []) ∧
    readTurnAfter aimed [.write aimed.addr (readFrame aimed.cfg .getStatus) .ok, .delay (aimed.cfg.delayMs.get .getStatus)] aimed.addr
      (aimed.cfg.rlen .getStatus) = (some (.err, []), []) ∧ ([] : List Byte).length ≤ aimed.cfg.rlen .getStatus :=
  ⟨rfl, rfl, by decide, rfl, rfl, rfl, by decide⟩

/-- The clause of a failed write. -/
theorem witness_ReadFramesAnswerTheirPayload_failed :
    ({ answered [.err] [] with addr := 0x11 } : State).init = true ∧ ({ answered [.err] [] with addr := 0x11 } : State).addr ≠ 0 ∧
    ({ answered [.err] [] with addr := 0x11 } : State).writeTurn 0x11 (readFrame Cfg.default .getStatus) = (some .err, []) :=
  ⟨rfl, by decide, rfl⟩

theorem witness_FailedWriteFailsEveryCommand :
    (hostFrame Cfg.default (.trigger 0x11) = some (0x11, [0x5A, 3, 0x05]) ∧ newAddressGiven (.trigger 0x11)) ∧
    (answered [.err] []).writeTurn 0x11 [0x5A, 3, 0x05] = (some .err, []) ∧
    hostRead (.readVersion 0x11) = some (.readVersion, 0x11) ∧
    (answered [.err] []).writeTurn 0x11 (readFrame Cfg.default .readVersion) = (some .err, []) ∧ (answered [.err] []).init = true :=
  ⟨⟨rfl, trivial⟩, rfl, rfl, rfl, rfl⟩

theorem witness_CommandsWriteNoArchitecturalState : isCommand ready (.setSlaveAddress 0x10 0x12) ∧
    exec (.setSlaveAddress 0x10 0x12) ready = .next (after (.setSlaveAddress 0x10 0x12) ready) := ⟨.inl ⟨_, _, rfl⟩, rfl⟩

/-- A finished command of each class, and one that waits for its delay. -/
theorem witness_CommandTracesHaveTheirShapes :
    exec (.trigger 0x11) (answered [.ok] []) = .next (after (.trigger 0x11) (answered [.ok] [])) ∧
    (after (.getStatus 0x11) (answered [.err] [])).seq = .idle ∧
    (after (.getStatus 0x11) { answered [.ok] [] with env := { Environment.free with writes := [.done .ok], delays := [.notYet] } }).seq =
      .tDelay ∧
    exec (.getStatus 0x11) (answered [.err] []) = .next (after (.getStatus 0x11) (answered [.err] [])) := ⟨rfl, rfl, rfl, rfl⟩

theorem witness_NoResetOutsideScanAndAllocate : outsideScans ready.job (.trigger 0x11) ∧
    exec (.trigger 0x11) (answered [.ok] []) = .next (after (.trigger 0x11) (answered [.ok] [])) := ⟨trivial, rfl⟩

theorem witness_UnsuccessfulResponsesAreEmpty :
    (answered [.err] []).resp = none ∧ exec (.trigger 0x11) (answered [.err] []) = .next (after (.trigger 0x11) (answered [.err] [])) ∧
    (after (.trigger 0x11) (answered [.err] [])).resp = some (plainResponse .fail) ∧ (plainResponse .fail).status ≠ .ok :=
  ⟨rfl, rfl, rfl, by decide⟩

theorem witness_StatusesAreThoseOfTheOperation : State.reset.resp = none ∧
    exec .scan State.reset = .next (after .scan State.reset) ∧ (after .scan State.reset).resp = some (plainResponse .notReady) :=
  ⟨rfl, rfl, rfl⟩

/-! Scans and the allocator. -/

theorem free_completes : Environment.free.Completes :=
  ⟨by simp [Environment.free], by simp [Environment.free], by simp [Environment.free], by simp [Environment.free]⟩

theorem witness_ScanListsTheAddressesThatAnswer : ready.init = true ∧ ready.env.Completes ∧ State.reset.init = false :=
  ⟨rfl, free_completes, rfl⟩

theorem answered_completes (ws : List BusStatus) (rs : List (BusStatus × List Byte)) : (answered ws rs).env.Completes :=
  ⟨by simp [answered], fun c hc => by obtain ⟨a, -, rfl⟩ := List.mem_map.1 hc; exact ⟨a, rfl⟩, by simp [answered, Environment.free],
    by simp [answered, Environment.free]⟩

theorem answered_once (f : Addr → BusStatus) (l : List Addr) :
    (answered (l.map f) []).env.writes = (l.map fun a => Completion.done (f a)) ++ [] := by
  rw [List.append_nil]
  exact List.map_map

theorem answered_twice (f : Addr → BusStatus) (l : List Addr) : (answered (l.map f ++ l.map f) []).env.writes =
    (l.map fun a => Completion.done (f a)) ++ ((l.map fun a => Completion.done (f a)) ++ []) := by
  rw [List.append_nil]
  exact List.map_append.trans (congrArg₂ _ List.map_map List.map_map)

/-- Every probe is answered `OK`. -/
def allOk : Addr → BusStatus := fun _ => .ok

theorem witness_ScanTakesItsAnswersInOrder :
    (answered ((probed []).map allOk) []).init = true ∧ (answered ((probed []).map allOk) []).env.Completes ∧
    (answered ((probed []).map allOk) []).env.writes = ((probed []).map fun a => Completion.done (allOk a)) ++ [] :=
  ⟨rfl, answered_completes _ _, answered_once allOk (probed [])⟩

theorem witness_ScanningAlikeTwiceGivesOneDirectory :
    (answered ((probed []).map allOk ++ (probed []).map allOk) []).env.Completes ∧
    (answered ((probed []).map allOk ++ (probed []).map allOk) []).env.writes =
      ((probed []).map fun a => Completion.done (allOk a)) ++ (((probed []).map fun a => Completion.done (allOk a)) ++ []) :=
  ⟨answered_completes _ _, answered_twice allOk (probed [])⟩

/-- A scan that is done (for ScannedDirectoryIsAscendingAndAllowed, ScanEventCounts, OldDirectoryHasNoInfluence, and, the target not being
found, for AllocateOfAnAbsentAddressIsAScan). -/
theorem witness_scan_done : full.init = true ∧ exec .scan full = .next (after .scan full) ∧
    (after .scan full).seq = .idle ∧ (0 : Addr) ∉ (after .scan full).dir := ⟨rfl, after_eq _ _, by decide +kernel, by decide +kernel⟩

/-- The first waits of DirectoryIsReplacedAtOnce: an `ALLOCATE` that waits in its first scan body (a `SCAN` that waits is in
`witness_scan_waits`, one that is done in `witness_scan_done`). -/
theorem witness_DirectoryIsReplacedAtOnce_allocate :
    exec (.allocate 0x10) { ready with env := { Environment.free with resets := [.notYet] } } =
      .next (after (.allocate 0x10) { ready with env := { Environment.free with resets := [.notYet] } }) ∧
    (after (.allocate 0x10) { ready with env := { Environment.free with resets := [.notYet] } }).seq ≠ .idle ∧
    (after (.allocate 0x10) { ready with env := { Environment.free with resets := [.notYet] } }).job = .allocate false :=
  ⟨after_eq _ _, by decide +kernel, by decide +kernel⟩

/-- The later waits of DirectoryIsReplacedAtOnce, in each scan body. -/
theorem witness_DirectoryIsReplacedAtOnce_waits (j : Job) (hj : j = .scan ∨ j = .allocate false ∨ j = .allocate true) :
    (scanningFull j .notYet).Inv ∧ (scanningFull j .notYet).seq ≠ .idle ∧
    step (scanningFull j .notYet) = .next (afterStep (scanningFull j .notYet)) ∧
    (afterStep (scanningFull j .notYet)).seq ≠ .idle ∧
    ((scanningFull j .notYet).job = .allocate false → (afterStep (scanningFull j .notYet)).job = .allocate false) := by
  refine ⟨scanningFull_inv _ hj _, by simp [scanningFull], scanningFull_step _ _, ?_⟩
  rcases hj with rfl | rfl | rfl <;> decide +kernel

/-- The ends of DirectoryIsReplacedAtOnce. -/
theorem witness_DirectoryIsReplacedAtOnce_done (j : Job) (hj : j = .scan ∨ j = .allocate true) :
    (scanningFull j (.done ())).Inv ∧ (scanningFull j (.done ())).seq ≠ .idle ∧
    step (scanningFull j (.done ())) = .next (afterStep (scanningFull j (.done ()))) ∧
    (afterStep (scanningFull j (.done ()))).seq = .idle ∧
    ((scanningFull j (.done ())).job = .scan ∨ (scanningFull j (.done ())).job = .allocate true) := by
  refine ⟨scanningFull_inv _ (hj.imp_right .inr) _, by simp [scanningFull], scanningFull_step _ _, ?_, hj⟩
  rcases hj with rfl | rfl <;> decide +kernel

/-- A scan that waits for its first reset (for DirectoryIsReplacedAtOnce, ScanTouchesNoExcludedAddress). -/
theorem witness_scan_waits :
    exec .scan { ready with env := { Environment.free with resets := [.notYet] } } =
      .next (after .scan { ready with env := { Environment.free with resets := [.notYet] } }) ∧
    (after .scan { ready with env := { Environment.free with resets := [.notYet] } }).seq = .sReset :=
  ⟨after_eq _ _, by decide +kernel⟩

/-- A scan body whose next candidate is the last address, for each operation it can belong to. -/
def lastCandidate (j : Job) : State := { answered [.ok] [] with job := j, cand := 127, new := [0x10], addr := 0x10 }

theorem witness_ProbeGoesOnWithItsScan (j : Job) (hj : j = .scan ∨ j = .allocate false ∨ j = .allocate true) :
    (lastCandidate j).init = true ∧ (lastCandidate j).env.Completes ∧ (lastCandidate j).ScanInProgress ∧
    (lastCandidate j).cand.toNat ≤ 127 ∧ (lastCandidate j).candAddr ∉ (lastCandidate j).exc :=
  ⟨rfl, answered_completes _ _,
    ⟨hj, Nat.le_of_ble_eq_true rfl, Nat.le_of_ble_eq_true rfl,
      ⟨by simp [lastCandidate, Ascending], by simp [lastCandidate]⟩, by simp [lastCandidate],
      by simp [lastCandidate, answered, ready, State.reset]⟩,
    Nat.le_of_ble_eq_true rfl, by simp [lastCandidate, answered, ready, State.reset]⟩

/-- Both sides of the search: an address is found, and none is (AL5, AL6). -/
theorem witness_FreeAddressIsTheLowestOne :
    freeAddress { ready with dir := [0x01], addr := 0x01 } = some 0x02 ∧
    freeAddress { ready with dir := (List.range 127).map (BitVec.ofNat 7), addr := 0x7F } = none := by decide +kernel

/-- Every clause: without `INIT`, and with it, the target is not found (AL8), and it is found and an address is free (AL2). -/
theorem witness_AllocateMovesTheDefaultDevice :
    State.reset.init = false ∧ full.init = true ∧ full.env.Completes ∧ (0 : Addr) ∉ scanDirectory [] (fun _ => .err) ∧
    (0x10 : Addr) ∈ scanDirectory [] (fun _ => .ok) ∧ LowestFree 1 [0x10] [] 0x10 0x01 :=
  ⟨rfl, rfl, answered_completes _ _, by decide +kernel, by decide +kernel, by decide, by decide, by decide, by decide,
    fun b h1 h2 => absurd (Nat.lt_of_le_of_lt h1 h2) (by decide)⟩

theorem witness_AllocateWritesAtMostOneFrame : exec (.allocate 0x10) al2 = .next (after (.allocate 0x10) al2) := after_eq _ _

theorem witness_ReassignmentFrameIsFollowedByAScan (b : Bool) : ({ full with job := .allocate b } : State).init = true ∧
    ({ full with job := .allocate b } : State).env.Completes ∧ ({ full with job := .allocate b } : State).job = .allocate b :=
  ⟨rfl, answered_completes _ _, rfl⟩

theorem witness_ScansLeaveTheRestUnchanged : exec .scan ready = .next (after .scan ready) ∧
    exec (.allocate 0x10) ready = .next (after (.allocate 0x10) ready) ∧ exec .probe ready = .next (after .probe ready) :=
  ⟨after_eq _ _, after_eq _ _, after_eq _ _⟩

/-! Calls that do not complete at once. -/

/-- In each of the four phases in which a call is outstanding. -/
theorem witness_CallThatNeverCompletesHoldsThePhase :
    ((writing .never).Inv ∧ (writing .never).HangsForEver) ∧ ((delaying .never).Inv ∧ (delaying .never).HangsForEver) ∧
    ((reading .never).Inv ∧ (reading .never).HangsForEver) ∧ ((resetting .never).Inv ∧ (resetting .never).HangsForEver) :=
  ⟨⟨writing_inv _, rfl⟩, ⟨delaying_inv _, rfl⟩, ⟨reading_inv _, rfl⟩, ⟨resetting_inv _, rfl⟩⟩

/-- A ready state whose calls wait before they complete. -/
def slow : State :=
  { ready with env := { Environment.free with writes := [.notYet, .done .ok], delays := [.notYet], reads := [.done (.ok, [0, 0, 1])] } }

theorem witness_WaitingChangesNothingButTime : slow.cfg.Ok ∧ EventuallyCompletes slow.env ∧
    (∀ r, encode slow.cfg (.getStatus 0x11) ≠ .bus r) ∧ (after (.getStatus 0x11) slow).seq = .tWrite :=
  ⟨witness_configuration, ⟨by simp [slow], by simp [slow], by simp [slow, Environment.free], by simp [slow]⟩, (fun _ h => by cases h), rfl⟩

end Sys2Proof.Tests
end

/-! SUPPORT. The statements of 00_scope.md: the decoder undoes the encoder on both sides of TXC (R7, R81 to R88), the byte-order helpers
are little-endian (R10), and no step of a run stops (R13). -/

namespace Sys2Proof

/-! Decoding undoes encoding. -/

/-- A parameter byte that is the zero-extension of a narrower value decodes to that value (R206, R208). -/
theorem byteParam_setWidth {n : Nat} (h : n ≤ 8) (f : BitVec n → Instr) (v : BitVec n) :
    byteParam f [v.setWidth 8] = .ok (f v) := by
  have hv : (v.setWidth 8).setWidth n = v := by rw [BitVec.setWidth_setWidth_of_le v h, BitVec.setWidth_eq]
  simp only [byteParam, hv, if_true]

/-- The two parameter bytes of a 16-bit value decode to that value (R85, R86). -/
theorem halfParam_le16 (f : Half → Instr) (v : Half) : halfParam f (le16 v) = .ok (f v) := by
  simp only [le16, halfParam, join16_split]

/-- A host operation is what its request message decodes to: `OP` selects it and each operand stands in its field (R81, R82). -/
theorem decodeRequest_of_encode {g : Cfg} {i : Instr} {r : Request} (hw : i.wellFormed = true) (he : encode g i = .request r) :
    decodeRequest r = .ok i := by
  cases i
  case init | scan | allocate | getDirectory | getExclusions => cases he; rfl
  case readMeasurement | readVersion | softReset | getSampleRate | trigger | getStatus | getSlaveAddress | restoreDefaults
    | saveSettings | getAmpThreshold | getDistanceLimits | timestampSync => cases he; rfl
  case setExclusions count list =>
    cases he
    exact congrArg (Except.ok ∘ Instr.setExclusions count)
      (Request.entries_of_listFits (r := { Request.zero with op := 0x01, count := count, list := list }) hw)
  case setSampleRate addr rate =>
    cases he
    exact congrArg (Except.ok ∘ Instr.setSampleRate addr) (extractLsb'_setWidth (by decide) rate)
  case setEnable addr en =>
    cases he
    exact congrArg (Except.ok ∘ Instr.setEnable addr) (extractLsb'_setWidth (by decide) en)
  case setSlaveAddress addr new =>
    cases he
    exact congrArg (Except.ok ∘ Instr.setSlaveAddress addr) (extractLsb'_setWidth (by decide) new)
  case setAmpThreshold addr thr =>
    cases he
    exact congrArg (Except.ok ∘ Instr.setAmpThreshold addr) (extractLsb'_setWidth (by decide) thr)
  case setDistanceLimits addr min max =>
    cases he
    exact congrArg Except.ok (congrArg₂ (Instr.setDistanceLimits addr) (extractLsb'_append_low max min)
      (extractLsb'_append_high max min))
  -- frames and the probe are no request messages
  all_goals cases he

/-- A frame or the probe is what its bytes decode to: in a configuration that meets R7 the identifier and the length give the
command, and the command's parameter bytes give the operands (R84, R85, R88). -/
theorem decodeBus_of_encode {g : Cfg} (hg : g.Ok) {i : Instr} {b : List Byte} (he : encode g i = .bus b) :
    decodeBus g b = .ok i := by
  cases i
  case frameReadMeasurement => cases he; exact decodeBus_frame hg (.r .readMeasurement) [] rfl
  case frameReadVersion => cases he; exact decodeBus_frame hg (.r .readVersion) [] rfl
  case frameSoftReset => cases he; exact decodeBus_frame hg (.w .softReset) [] rfl
  case frameGetSampleRate => cases he; exact decodeBus_frame hg (.r .getSampleRate) [] rfl
  case frameTrigger => cases he; exact decodeBus_frame hg (.w .trigger) [] rfl
  case frameGetStatus => cases he; exact decodeBus_frame hg (.r .getStatus) [] rfl
  case frameGetSlaveAddress => cases he; exact decodeBus_frame hg (.r .getSlaveAddress) [] rfl
  case frameRestoreDefaults => cases he; exact decodeBus_frame hg (.w .restoreDefaults) [] rfl
  case frameSaveSettings => cases he; exact decodeBus_frame hg (.w .saveSettings) [] rfl
  case frameGetAmpThreshold => cases he; exact decodeBus_frame hg (.r .getAmpThreshold) [] rfl
  case frameGetDistanceLimits => cases he; exact decodeBus_frame hg (.r .getDistanceLimits) [] rfl
  case frameSetSampleRate rate =>
    cases he
    exact (decodeBus_frame hg (.w .setSampleRate) (le16 rate) rfl).trans (halfParam_le16 _ rate)
  case frameSetEnable en =>
    cases he
    exact (decodeBus_frame hg (.w .setEnable) [enableByte en] rfl).trans (byteParam_setWidth (by decide) _ en)
  case frameSetSlaveAddress new =>
    cases he
    exact (decodeBus_frame hg (.w .setSlaveAddress) [addrByte new] rfl).trans (byteParam_setWidth (by decide) _ new)
  case frameSetAmpThreshold thr =>
    cases he
    exact (decodeBus_frame hg (.w .setAmpThreshold) (le16 thr) rfl).trans (halfParam_le16 _ thr)
  case frameSetDistanceLimits min max =>
    cases he
    exact (decodeBus_frame hg (.w .setDistanceLimits) (le16 min ++ le16 max) rfl).trans
      (congrArg Except.ok (congrArg₂ Instr.frameSetDistanceLimits (join16_split min) (join16_split max)))
  case frameTimestampSync ts =>
    cases he
    exact (decodeBus_frame hg (.w .timestampSync) (le32 ts) rfl).trans
      (congrArg (Except.ok ∘ Instr.frameTimestampSync) (join32_split ts))
  case probe => cases he; exact decodeBus_probe g
  -- host operations are no bytes of the bus
  all_goals cases he

/-- Settles O2: by the kind of the encoded word, a request message or the bytes of one bus write. -/
theorem decodingUndoesEncoding : Obligations.DecodingUndoesEncoding := by
  intro g i hg hw
  cases he : encode g i with
  | request r => exact decodeRequest_of_encode hw he
  | bus b => exact decodeBus_of_encode hg he

/-! Byte order. -/

/-- The value of two joined words as a sum: the upper one is weighted by the width of the lower one. -/
theorem toNat_append_eq_add {m n : Nat} (hi : BitVec m) (lo : BitVec n) : (hi ++ lo).toNat = lo.toNat + 2 ^ n * hi.toNat := by
  rw [BitVec.toNat_append, ← Nat.shiftLeft_add_eq_or_of_lt lo.isLt, Nat.shiftLeft_eq, Nat.add_comm, Nat.mul_comm]

theorem toNat_join16 (b0 b1 : Byte) : (join16 b0 b1).toNat = b0.toNat + 256 * b1.toNat := toNat_append_eq_add b1 b0

theorem toNat_join32 (b0 b1 b2 b3 : Byte) :
    (join32 b0 b1 b2 b3).toNat = b0.toNat + 256 * b1.toNat + 65536 * b2.toNat + 16777216 * b3.toNat := by
  simp only [join32, toNat_append_eq_add]
  omega

/-- Settles O6: the sums are those of the joined bytes, and the bytes after the two of the header are those the value was split
into. -/
theorem littleEndianJoiningUndoesSplitting : Obligations.LittleEndianJoiningUndoesSplitting :=
  ⟨fun _ _ => toNat_join16 _ _, fun _ _ => toNat_join32 _ _ _ _, fun _ _ v => join16_split v, fun _ _ v => join32_split v⟩

end Sys2Proof

namespace Sys2Proof.Machine

/-! Progress. -/

/-- A step in `IDLE` waits, runs the operation presented, or refuses a reserved code (R273, R42, R95). -/
theorem idleStep_next (s : State) : ∃ t, idleStep s = .next t := by
  unfold idleStep
  split
  · exact ⟨_, rfl⟩
  · split
    · exact exec_next _ _
    · exact ⟨_, rfl⟩

/-- In phase T_WRITE of a run TXBUF holds the word of an operation, which the step runs (R97). -/
theorem writeStep_next {s : State} (hg : s.cfg.Ok) {i : Instr} (he : encode s.cfg i = .bus s.txbuf) : ∃ t, writeStep s = .next t := by
  rw [writeStep, decodeBus_of_encode hg he]
  exact exec_next i s

/-- Settles O15: by the phase of the sequencer, whose own condition gives phase T_WRITE its word and phases T_DELAY and T_READ their
class R command. -/
theorem noStepOfARunStops : Obligations.NoStepOfARunStops := by
  intro s h
  have hp := h.phaseOk
  cases hs : s.seq <;> simp only [step, State.PhaseOk, hs] at hp ⊢
  case idle => exact idleStep_next s
  case tWrite =>
    obtain ⟨i, he, -⟩ := hp
    exact writeStep_next h.cfgOk he
  case tDelay =>
    obtain ⟨c, hj⟩ := hp
    simp only [delayStep, hj]
    exact ⟨_, rfl⟩
  case tRead =>
    obtain ⟨c, hj⟩ := hp
    simp only [readStep, hj]
    exact ⟨_, rfl⟩
  case sReset | sNext | sDone | aSearch => exact ⟨_, rfl⟩

end Sys2Proof.Machine

/-! SUPPORT. The statements of 10_state.md: what runs an operation, the invariant and its steps, what a step leaves of the host port
and of the architectural state, and the operations that wait. -/

namespace Sys2Proof.Machine

/-! The catalog. Each of its operations, on the host side and on the bus side, runs one of the two builders. -/

/-- The state a catalog command runs in: a host operation has latched its target, a frame finds it in `ADDR` (R20). -/
def State.aimed (s : State) : Option Addr → State
  | some a => s.target a
  | none => s

@[simp] theorem State.aimed_cfg (s : State) (o : Option Addr) : (s.aimed o).cfg = s.cfg := by cases o <;> rfl
@[simp] theorem State.aimed_init (s : State) (o : Option Addr) : (s.aimed o).init = s.init := by cases o <;> rfl
@[simp] theorem State.aimed_dir (s : State) (o : Option Addr) : (s.aimed o).dir = s.dir := by cases o <;> rfl
@[simp] theorem State.aimed_exc (s : State) (o : Option Addr) : (s.aimed o).exc = s.exc := by cases o <;> rfl
@[simp] theorem State.aimed_resp (s : State) (o : Option Addr) : (s.aimed o).resp = s.resp := by cases o <;> rfl
@[simp] theorem State.aimed_env (s : State) (o : Option Addr) : (s.aimed o).env = s.env := by cases o <;> rfl
theorem State.aimed_prompt (s : State) (o : Option Addr) : (prompt s).aimed o = prompt (s.aimed o) := by cases o <;> rfl

/-- `w` is the bus-side word of the class W command `c` with the parameter bytes `ps`: its bytes are that frame, it is a word the
command writes if the argument test passes, and in the command's own state it runs the command (R33, R85, R97). -/
structure WriteWord (c : WCmd) (ps : List Byte) (legal : Bool) (w : Instr) : Prop where
  encode_eq : ∀ g, encode g w = .bus (frame g (.w c) ps)
  writes : ∀ s : State, legal = true → s.job = .write c → s.Writes w
  runs : ∀ s : State, s.job = .write c → exec w s = .next (writeCommand c ps legal s)

theorem writeWord_softReset : WriteWord .softReset [] true .frameSoftReset :=
  ⟨fun _ => rfl, fun _ _ hj => hj, fun _ _ => rfl⟩
theorem writeWord_setSampleRate (rate : Half) : WriteWord .setSampleRate (le16 rate) true (.frameSetSampleRate rate) :=
  ⟨fun _ => rfl, fun _ _ hj => hj, fun _ _ => rfl⟩
theorem writeWord_trigger : WriteWord .trigger [] true .frameTrigger :=
  ⟨fun _ => rfl, fun _ _ hj => hj, fun _ _ => rfl⟩
theorem writeWord_setEnable (en : BitVec 1) : WriteWord .setEnable [enableByte en] true (.frameSetEnable en) :=
  ⟨fun _ => rfl, fun _ _ hj => hj, fun _ _ => rfl⟩
theorem writeWord_restoreDefaults : WriteWord .restoreDefaults [] true .frameRestoreDefaults :=
  ⟨fun _ => rfl, fun _ _ hj => hj, fun _ _ => rfl⟩
theorem writeWord_saveSettings : WriteWord .saveSettings [] true .frameSaveSettings :=
  ⟨fun _ => rfl, fun _ _ hj => hj, fun _ _ => rfl⟩
theorem writeWord_setAmpThreshold (thr : Half) : WriteWord .setAmpThreshold (le16 thr) true (.frameSetAmpThreshold thr) :=
  ⟨fun _ => rfl, fun _ _ hj => hj, fun _ _ => rfl⟩
theorem writeWord_setDistanceLimits (min max : Half) :
    WriteWord .setDistanceLimits (le16 min ++ le16 max) true (.frameSetDistanceLimits min max) :=
  ⟨fun _ => rfl, fun _ _ hj => hj, fun _ _ => rfl⟩
theorem writeWord_timestampSync (ts : Word) : WriteWord .timestampSync (le32 ts) true (.frameTimestampSync ts) :=
  ⟨fun _ => rfl, fun _ _ hj => hj, fun _ _ => rfl⟩

/-- The frame of `SET_SLAVE_ADDRESS` is its command's word where no `ALLOCATE` is in progress. -/
theorem writeWord_setSlaveAddress (new : Addr) :
    WriteWord .setSlaveAddress [addrByte new] (newAddressLegal new) (.frameSetSlaveAddress new) := by
  refine ⟨fun _ => rfl, fun s hl hj => .inr ⟨hj, by simpa [newAddressLegal] using hl⟩, fun s hj => ?_⟩
  simp only [exec, execFrameSetSlaveAddress, hj]

theorem exec_frameOf (c : RCmd) (s : State) : exec (frameOf c) s = .next (readCommand c s) := by cases c <;> rfl

/-- The kinds of operations: a management operation, one of a scan, the frame that an `ALLOCATE` may have written, or a
catalog command, which runs one of the two builders. -/
inductive OpKind : Instr → Prop
  | init (caps : BitVec 4) : OpKind (.init caps)
  | setExclusions (count : Byte) (list : List Addr) : OpKind (.setExclusions count list)
  | getDirectory : OpKind .getDirectory
  | getExclusions : OpKind .getExclusions
  | scan : OpKind .scan
  | allocate (d : Addr) : OpKind (.allocate d)
  | probe : OpKind .probe
  | reassignment (new : Addr) : OpKind (.frameSetSlaveAddress new)
  | read {i : Instr} (c : RCmd) (o : Option Addr) (runs : ∀ s, exec i s = .next (readCommand c (s.aimed o))) : OpKind i
  | write {i : Instr} {c : WCmd} {ps : List Byte} {legal : Bool} {w : Instr} (word : WriteWord c ps legal w) (o : Option Addr)
      (runs : ∀ s, exec i s = .next (writeCommand c ps legal (s.aimed o))) : OpKind i

theorem opKind (i : Instr) : OpKind i := by
  cases i
  case init caps => exact .init caps
  case setExclusions count list => exact .setExclusions count list
  case getDirectory => exact .getDirectory
  case getExclusions => exact .getExclusions
  case scan => exact .scan
  case allocate d => exact .allocate d
  case probe => exact .probe
  case frameSetSlaveAddress new => exact .reassignment new
  case readMeasurement a => exact .read .readMeasurement (some a) fun _ => rfl
  case readVersion a => exact .read .readVersion (some a) fun _ => rfl
  case getSampleRate a => exact .read .getSampleRate (some a) fun _ => rfl
  case getStatus a => exact .read .getStatus (some a) fun _ => rfl
  case getSlaveAddress a => exact .read .getSlaveAddress (some a) fun _ => rfl
  case getAmpThreshold a => exact .read .getAmpThreshold (some a) fun _ => rfl
  case getDistanceLimits a => exact .read .getDistanceLimits (some a) fun _ => rfl
  case frameReadMeasurement => exact .read .readMeasurement none fun _ => rfl
  case frameReadVersion => exact .read .readVersion none fun _ => rfl
  case frameGetSampleRate => exact .read .getSampleRate none fun _ => rfl
  case frameGetStatus => exact .read .getStatus none fun _ => rfl
  case frameGetSlaveAddress => exact .read .getSlaveAddress none fun _ => rfl
  case frameGetAmpThreshold => exact .read .getAmpThreshold none fun _ => rfl
  case frameGetDistanceLimits => exact .read .getDistanceLimits none fun _ => rfl
  case softReset a => exact .write writeWord_softReset (some a) fun _ => rfl
  case setSampleRate a rate => exact .write (writeWord_setSampleRate rate) (some a) fun _ => rfl
  case trigger a => exact .write writeWord_trigger (some a) fun _ => rfl
  case setEnable a en => exact .write (writeWord_setEnable en) (some a) fun _ => rfl
  case setSlaveAddress a new => exact .write (writeWord_setSlaveAddress new) (some a) fun _ => rfl
  case restoreDefaults a => exact .write writeWord_restoreDefaults (some a) fun _ => rfl
  case saveSettings a => exact .write writeWord_saveSettings (some a) fun _ => rfl
  case setAmpThreshold a thr => exact .write (writeWord_setAmpThreshold thr) (some a) fun _ => rfl
  case setDistanceLimits a min max => exact .write (writeWord_setDistanceLimits min max) (some a) fun _ => rfl
  case timestampSync a ts => exact .write (writeWord_timestampSync ts) (some a) fun _ => rfl
  case frameSoftReset => exact .write writeWord_softReset none fun _ => rfl
  case frameSetSampleRate rate => exact .write (writeWord_setSampleRate rate) none fun _ => rfl
  case frameTrigger => exact .write writeWord_trigger none fun _ => rfl
  case frameSetEnable en => exact .write (writeWord_setEnable en) none fun _ => rfl
  case frameRestoreDefaults => exact .write writeWord_restoreDefaults none fun _ => rfl
  case frameSaveSettings => exact .write writeWord_saveSettings none fun _ => rfl
  case frameSetAmpThreshold thr => exact .write (writeWord_setAmpThreshold thr) none fun _ => rfl
  case frameSetDistanceLimits min max => exact .write (writeWord_setDistanceLimits min max) none fun _ => rfl
  case frameTimestampSync ts => exact .write (writeWord_timestampSync ts) none fun _ => rfl

/-- No request message decodes to a word of the bus side (R80, R81). -/
theorem decodeRequest_ne_bus {r : Request} {i : Instr} (h : decodeRequest r = .ok i) :
    i ≠ .probe ∧ ∀ a, i ≠ .frameSetSlaveAddress a := by
  unfold decodeRequest at h
  split at h <;> cases h <;> exact ⟨nofun, nofun⟩

/-! The invariant. -/

theorem State.Base.aimed {s : State} (h : State.Base s) (o : Option Addr) : State.Base (s.aimed o) :=
  h.same (by simp) (by simp) (by simp) (by simp) (by simp)

/-- An operation that tests `INIT` first keeps the invariant if it does so with `INIT` set. -/
theorem guarded_inv {s u : State} (h : State.Base s) (hu : s.init = true → u.Inv) :
    (if s.init = false then s.completePlain .notReady else u).Inv := by
  split
  · exact h.plain _
  · exact hu (eq_true_of_ne_false ‹_›)

/-- Every operation keeps the invariant: run in a state that has it but for the phase, it leaves a state that has it. The probe
needs its scan body beside that. -/
theorem exec_inv {i : Instr} {s t : State} (h : State.Base s)
    (hp : i = .probe → s.init = true → s.ScanInProgress ∧ s.cand.toNat ≤ 127 ∧ s.candAddr ∉ s.exc)
    (he : exec i s = .next t) : t.Inv := by
  cases opKind i with
  | init caps =>
    cases he
    have hb : State.Base { s with init := initAfter s.init caps } := by
      refine ⟨h.cfgOk, h.dirOk, h.excFits, fun hi => h.uninit ?_, h.resp⟩
      by_contra hs
      simp [initAfter, hs] at hi
    exact hb.plain .ok
  | setExclusions count list =>
    obtain ⟨rfl, -⟩ | ⟨rfl, -⟩ | ⟨rfl, -, hn⟩ := exec_setExclusions_cases he
    · exact h.plain _
    · exact h.plain _
    · have hb : State.Base { s with exc := list.take count.toNat } :=
        ⟨h.cfgOk, h.dirOk, (List.length_take_le _ _).trans hn, h.uninit, h.resp⟩
      exact hb.plain .ok
  | getDirectory =>
    cases he
    exact guarded_inv h fun _ => h.respondDirectory
  | getExclusions =>
    cases he
    exact guarded_inv h fun _ => h.complete _ _ h.excFits
  | scan =>
    cases he
    exact guarded_inv h fun hi => scanBodyAfter_inv (h.same rfl rfl rfl rfl rfl) hi (.inl rfl)
  | allocate d =>
    cases he
    exact guarded_inv h fun hi => scanBodyAfter_inv (h.same rfl rfl rfl rfl rfl) hi (.inr (.inl rfl))
  | probe =>
    cases he
    refine guarded_inv h fun hi => ?_
    obtain ⟨hs, hle, hx⟩ := hp rfl hi
    exact probe_inv h hi hs hle hx
  | reassignment new =>
    simp only [exec, execFrameSetSlaveAddress] at he
    split at he <;> cases he
    · exact guarded_inv h fun hi => reassign_inv new h hi
    · have hw := writeWord_setSlaveAddress new
      exact writeCommand_inv h (hw.encode_eq _) hw.writes
  | read c o runs =>
    cases (runs s).symm.trans he
    exact readCommand_inv c (h.aimed o)
  | write word o runs =>
    cases (runs s).symm.trans he
    exact writeCommand_inv (h.aimed o) (word.encode_eq _) word.writes

/-- What the invariant says of a state in which a request is accepted. -/
theorem State.Inv.accept {s : State} (h : s.Inv) (rest : List Request) : State.Base (s.accept rest) :=
  ⟨h.cfgOk, h.dirOk, h.excFits, fun hi => (h.uninit hi).1, rfl⟩

/-- A class R command from its delay on keeps the invariant. -/
theorem delayTail_inv {s : State} (c : RCmd) (h : State.Base s) (hi : s.init = true) (hj : s.job = .read c) :
    (delayTail c s).Inv := by
  rcases delayTail_cases c s with ⟨q, e⟩ | ⟨q, e⟩ <;> rw [delayTail, e]
  · exact State.Base.waits (h.same rfl rfl rfl rfl rfl) hi ⟨c, hj⟩
  · exact readTail_inv (s := ((s.enter .tDelay).setDelays q).record (.delay (s.cfg.delayMs.get c))) c
      (h.same rfl rfl rfl rfl rfl) hi hj

/-- Everything a step of an operation in progress can do in a run: it runs the word in TXBUF, which the operation writes; it goes on
with a transaction from its delay or its read on; it goes on with a scan body; or it searches a free address (R40, R97). -/
theorem busyStep_cases {s t : State} (h : s.Inv) (hs : s.seq ≠ .idle) (hst : step s = .next t) :
    (∃ i, s.Writes i ∧ exec i s = .next t) ∨
    (∃ c, s.job = .read c ∧ (t = delayTail c s ∨ t = readTail c s)) ∨
    (s.ScanInProgress ∧ (t = resetPoint s ∨ t = restPoint s ∨ t = afterScan s.replaceDir)) ∨
    (s.job = .allocate false ∧ t = searchPhase s) := by
  have hp := h.phaseOk
  cases hq : s.seq <;> simp only [State.PhaseOk, hq] at hp
  case idle => exact absurd hq hs
  case tWrite =>
    obtain ⟨i, he, hw⟩ := hp
    exact .inl ⟨i, hw, (step_word hq (decodeBus_of_encode h.cfgOk he)).symm.trans hst⟩
  all_goals simp only [step, hq] at hst
  case tDelay =>
    obtain ⟨c, hj⟩ := hp
    simp only [delayStep, hj] at hst
    cases hst
    exact .inr (.inl ⟨c, hj, .inl rfl⟩)
  case tRead =>
    obtain ⟨c, hj⟩ := hp
    simp only [readStep, hj] at hst
    cases hst
    exact .inr (.inl ⟨c, hj, .inr rfl⟩)
  case sReset =>
    cases hst
    exact .inr (.inr (.inl ⟨hp, .inl rfl⟩))
  case sNext =>
    cases hst
    exact .inr (.inr (.inl ⟨hp, .inr (.inl rfl)⟩))
  case sDone =>
    cases hst
    exact .inr (.inr (.inl ⟨hp.1, .inr (.inr rfl)⟩))
  case aSearch =>
    cases hst
    exact .inr (.inr (.inr ⟨hp, rfl⟩))

/-- A step of an operation in progress keeps the invariant. -/
theorem busyStep_inv {s t : State} (h : s.Inv) (hs : s.seq ≠ .idle) (hst : step s = .next t) : t.Inv := by
  obtain ⟨hb, hi⟩ := inv_base h hs
  obtain ⟨i, hw, he⟩ | ⟨c, hj, rfl | rfl⟩ | ⟨hsc, rfl | rfl | rfl⟩ | ⟨-, rfl⟩ := busyStep_cases h hs hst
  · exact exec_inv hb (fun k _ => by subst k; exact hw) he
  · exact delayTail_inv c hb hi hj
  · exact readTail_inv c hb hi hj
  · exact reset_inv hb hi hsc
  · exact scanRestAfter_inv hb hi hsc
  · have hr : State.Base s.replaceDir :=
      ⟨hb.cfgOk, hsc.newOk, hb.excFits, fun k => absurd (hi.symm.trans k) (by decide), hb.resp⟩
    exact afterScan_inv hr hi
  · exact searchPhase_inv hb hi

/-- Settles O14: a step waits, accepts a request and runs or refuses it, or goes on with the operation in progress, and each of
these keeps the invariant. -/
theorem everyStepKeepsTheInvariant : Obligations.EveryStepKeepsTheInvariant := by
  intro s t h hst
  obtain ⟨-, -, rfl⟩ | ⟨-, r, rest, -, ⟨i, hd, he⟩ | ⟨-, rfl⟩⟩ | ⟨hs, -⟩ := step_cases hst
  · exact h
  · exact exec_inv (h.accept rest) (fun k => absurd k (decodeRequest_ne_bus hd).1) he
  · exact (h.accept rest).plain _
  · exact busyStep_inv h hs hst

/-- The default column of R7 meets the constraints of R7. -/
theorem defaultCfg_ok : Cfg.default.Ok where
  pairsDiffer := by decide
  respLenEnough := by intro c; cases c <;> decide
  delayInRange := by intro c; cases c <;> decide
  allocLoInRange := by decide

/-- Settles O13: the default configuration is legal, and everything else is empty or `IDLE`. -/
theorem invariantHoldsAfterReset : Obligations.InvariantHoldsAfterReset where
  cfgOk := defaultCfg_ok
  dirOk := ⟨List.Pairwise.nil, nofun⟩
  excFits := Nat.zero_le _
  uninit := fun _ => ⟨rfl, rfl⟩
  respIdle := nofun
  respOk := nofun
  phaseOk := trivial

/-! What every step leaves. -/

/-- Everything an operation can do to the architectural state but for the directory: only `INIT` and a `SET_EXCLUSIONS` that is legal
do more than extend the state they run in (R22, R27). -/
theorem exec_effect {i : Instr} {s t : State} (h : exec i s = .next t) :
    (∃ caps, i = .init caps ∧ t = ({ s with init := initAfter s.init caps }).completePlain .ok) ∨
    (∃ n l, i = .setExclusions n l ∧ s.init = true ∧ n.toNat ≤ 127 ∧
      t = ({ s with exc := l.take n.toNat }).completePlain .ok) ∨
    s.Extends t := by
  by_cases hi : ∃ caps, i = .init caps
  · obtain ⟨caps, rfl⟩ := hi
    cases h
    exact .inl ⟨caps, rfl, rfl⟩
  by_cases hx : ∃ n l, i = .setExclusions n l
  · obtain ⟨n, l, rfl⟩ := hx
    obtain ⟨rfl, -⟩ | ⟨rfl, -⟩ | ⟨rfl, hs, hn⟩ := exec_setExclusions_cases h
    · exact .inr (.inr (s.extends_complete _ _ _))
    · exact .inr (.inr (s.extends_complete _ _ _))
    · exact .inr (.inl ⟨n, l, rfl, hs, hn, rfl⟩)
  · exact .inr (.inr (exec_extends (fun caps k => hi ⟨caps, k⟩) (fun n l k => hx ⟨n, l, k⟩) h))

/-- Everything a step can do to the flag, the exclusion list and the configuration: nothing, or it accepts a request of which the
operation is `INIT` or a legal `SET_EXCLUSIONS`. -/
theorem step_effect {s t : State} (hst : step s = .next t) :
    (t.init = s.init ∧ t.exc = s.exc ∧ t.cfg = s.cfg) ∨
    (s.seq = .idle ∧ ∃ r rest, s.host = r :: rest ∧ t.cfg = s.cfg ∧
      ((r.op = 0 ∧ t.init = initAfter s.init r.caps ∧ t.exc = s.exc) ∨
       (r.op = 1 ∧ s.init = true ∧ r.count.toNat ≤ 127 ∧ t.init = s.init))) := by
  obtain ⟨-, -, rfl⟩ | ⟨hq, r, rest, hh, ⟨i, hd, he⟩ | ⟨-, rfl⟩⟩ | ⟨-, hx⟩ := step_cases hst
  · exact .inl ⟨rfl, rfl, rfl⟩
  · obtain ⟨caps, rfl, rfl⟩ | ⟨n, l, rfl, hs, hn, rfl⟩ | hx := exec_effect he
    · obtain ⟨hop, rfl⟩ := op_of_init hd
      exact .inr ⟨hq, r, rest, hh, rfl, .inl ⟨hop, rfl, rfl⟩⟩
    · obtain ⟨hop, rfl, -⟩ := op_of_setExclusions hd
      exact .inr ⟨hq, r, rest, hh, rfl, .inr ⟨hop, hs, hn, rfl⟩⟩
    · exact .inl ⟨hx.init, hx.exc, hx.cfg⟩
  · exact .inl ⟨rfl, rfl, rfl⟩
  · exact .inl ⟨hx.init, hx.exc, hx.cfg⟩

/-- `INIT` after the operation is set if it was, and is newly set by a complete `CAPS` only (R22, R130). -/
theorem initAfter_eq_true (old : Bool) (caps : BitVec 4) : initAfter old caps = true ↔ caps = allCaps ∨ old = true := by
  unfold initAfter
  split <;> simp [*]

/-- Settles O16: of the steps that write the flag none clears it, and `INIT` sets it for a complete `CAPS` only. -/
theorem onlyACompleteInitSetsTheFlag : Obligations.OnlyACompleteInitSetsTheFlag := by
  intro s t hst
  obtain ⟨hi, -, -⟩ | ⟨hq, r, rest, hh, -, ⟨hop, hi, -⟩ | ⟨-, -, -, hi⟩⟩ := step_effect hst
  · exact ⟨hi.trans, fun h0 h1 => absurd (h0.symm.trans (hi.symm.trans h1)) (by decide)⟩
  · rw [hi, initAfter_eq_true]
    refine ⟨.inr, fun h0 h1 => ⟨hq, r, rest, hh, hop, ?_⟩⟩
    exact h1.resolve_right (by simp [h0])
  · exact ⟨hi.trans, fun h0 h1 => absurd (h0.symm.trans (hi.symm.trans h1)) (by decide)⟩

/-- Settles O17: a step that writes the list accepts a legal `SET_EXCLUSIONS`. -/
theorem onlySetExclusionsWritesTheExclusionList : Obligations.OnlySetExclusionsWritesTheExclusionList := by
  intro s t hst hne
  obtain ⟨-, hx, -⟩ | ⟨hq, r, rest, hh, -, ⟨-, -, hx⟩ | ⟨hop, hs, hn, -⟩⟩ := step_effect hst
  · exact absurd hx hne
  · exact absurd hx hne
  · exact ⟨hq, hs, r, rest, hh, hop, hn⟩

/-- Settles O19: in each case of a step the configuration is the old one. -/
theorem noStepWritesTheConfiguration : Obligations.NoStepWritesTheConfiguration := by
  intro s t hst
  obtain ⟨-, -, hc⟩ | ⟨-, -, -, -, hc, -⟩ := step_effect hst
  · exact hc
  · exact hc

/-- Settles O11: a step of an operation in progress extends the state. -/
theorem busyMachineAcceptsNoRequest : Obligations.BusyMachineAcceptsNoRequest := by
  intro s t hs hst
  have hx := busy_extends hs hst
  exact ⟨hx.host, hx.past, hx.trace⟩

/-- Settles O12: a response is valid in `IDLE` only, where a step without a request waits. -/
theorem responseStaysUntilTheNextRequest : Obligations.ResponseStaysUntilTheNextRequest := by
  intro s t r h hr hh hst
  obtain ⟨-, -, rfl⟩ | ⟨-, _, _, hc, -⟩ | ⟨hs, -⟩ := step_cases hst
  · exact hr
  · exact absurd (hh.symm.trans hc) nofun
  · exact absurd (h.respIdle r hr) hs

/-- Settles O7: `IDLE` fetches from the host port and phase T_WRITE from TXBUF. -/
theorem stepRunsTheDecodedOperation : Obligations.StepRunsTheDecodedOperation := by
  refine ⟨fun s r rest i hq hh hd => ?_, fun s i hq hd => step_word hq hd⟩
  have hr : step s = exec i (s.accept rest) := by simp only [step, hq, idleStep, hh, hd]
  exact hr

/-! The directory. -/

/-- The operation in progress is a `SCAN` or an `ALLOCATE`. -/
def State.Scanning (s : State) : Prop := s.job = .scan ∨ ∃ b, s.job = .allocate b

theorem State.ScanInProgress.scanning {s : State} (h : s.ScanInProgress) : s.Scanning := by
  obtain hj | hj | hj := h.job
  · exact .inl hj
  · exact .inr ⟨_, hj⟩
  · exact .inr ⟨_, hj⟩

/-- An operation that tests `INIT` first leaves the directory as it is without `INIT`. -/
theorem guarded_dir (s u : State) :
    (if s.init = false then s.completePlain .notReady else u).dir = s.dir ∨ s.init = true := by
  split
  · exact .inl rfl
  · exact .inr (eq_true_of_ne_false ‹_›)

/-- Only an operation that scans writes the directory: with `INIT` set, `SCAN`, `ALLOCATE`, the probe, or the reassignment frame of
an `ALLOCATE` (R23). -/
theorem exec_dir {i : Instr} {s t : State} (h : exec i s = .next t) :
    t.dir = s.dir ∨ (s.init = true ∧ (i = .scan ∨ (∃ d, i = .allocate d) ∨ i = .probe ∨
      ∃ a b, i = .frameSetSlaveAddress a ∧ s.job = .allocate b)) := by
  cases opKind i with
  | init caps => cases h; exact .inl rfl
  | setExclusions n l => obtain ⟨rfl, -⟩ | ⟨rfl, -⟩ | ⟨rfl, -⟩ := exec_setExclusions_cases h <;> exact .inl rfl
  | getDirectory => cases h; exact .inl (by split <;> rfl)
  | getExclusions => cases h; exact .inl (by split <;> rfl)
  | scan =>
    cases h
    exact (guarded_dir s _).imp_right fun hi => ⟨hi, .inl rfl⟩
  | allocate d =>
    cases h
    exact (guarded_dir s _).imp_right fun hi => ⟨hi, .inr (.inl ⟨d, rfl⟩)⟩
  | probe =>
    cases h
    exact (guarded_dir s _).imp_right fun hi => ⟨hi, .inr (.inr (.inl rfl))⟩
  | reassignment a =>
    simp only [exec, execFrameSetSlaveAddress] at h
    split at h <;> cases h
    · rename_i b hj
      exact (guarded_dir s _).imp_right fun hi => ⟨hi, .inr (.inr (.inr ⟨a, b, rfl, hj⟩))⟩
    · exact .inl (writeCommand_dir _ _ _ _)
  | read c o runs =>
    cases (runs s).symm.trans h
    exact .inl ((readCommand_dir c _).trans (by simp))
  | write word o runs =>
    cases (runs s).symm.trans h
    exact .inl ((writeCommand_dir _ _ _ _).trans (by simp))

/-- The words of an operation that scans: the probe, and the reassignment frame of an `ALLOCATE` (R97). -/
theorem State.Writes.ofScanning {s : State} {i : Instr} (hw : s.Writes i) (hs : s.Scanning) :
    i = .probe ∨ ∃ a, i = .frameSetSlaveAddress a ∧ s.job = .allocate true := by
  have hr (c : RCmd) : s.job ≠ .read c := by obtain k | ⟨b, k⟩ := hs <;> simp [k]
  have hc (c : WCmd) : s.job ≠ .write c := by obtain k | ⟨b, k⟩ := hs <;> simp [k]
  cases i
  case probe => exact .inl rfl
  case frameSetSlaveAddress a => exact .inr ⟨a, rfl, hw.resolve_right fun k => hc _ k.1⟩
  case frameReadMeasurement | frameReadVersion | frameGetSampleRate | frameGetStatus | frameGetSlaveAddress
    | frameGetAmpThreshold | frameGetDistanceLimits => exact absurd hw.1 (hr _)
  case frameSoftReset | frameSetSampleRate | frameTrigger | frameSetEnable | frameRestoreDefaults | frameSaveSettings
    | frameSetAmpThreshold | frameSetDistanceLimits | frameTimestampSync => exact absurd hw (hc _)
  -- an operation in progress writes no host operation
  all_goals exact hw.elim

/-- A step of a catalog command in progress leaves the directory as it is. -/
theorem commandStep_dir {s t : State} (h : s.Inv) (hs : s.seq ≠ .idle) (hj : ¬ s.Scanning) (hst : step s = .next t) :
    t.dir = s.dir := by
  obtain ⟨i, hw, he⟩ | ⟨c, -, rfl | rfl⟩ | ⟨hsc, -⟩ | ⟨k, -⟩ := busyStep_cases h hs hst
  · obtain hd | ⟨-, rfl | ⟨d, rfl⟩ | rfl | ⟨a, b, rfl, k⟩⟩ := exec_dir he
    · exact hd
    · exact hw.elim
    · exact hw.elim
    · exact absurd hw.1.scanning hj
    · exact absurd (.inr ⟨b, k⟩) hj
  · exact delayTail_dir c s
  · exact readTail_dir c s
  · exact absurd hsc.scanning hj
  · exact absurd (.inr ⟨_, k⟩) hj

/-- A step of a scanning operation in progress leaves the old directory where it waits, and the list that was built where it is
done, as `State.LeavesDirectory` says (R26). -/
theorem scanningStep_directory {s t : State} (h : s.Inv) (hs : s.seq ≠ .idle) (hj : s.Scanning) (hst : step s = .next t) :
    s.LeavesDirectory t := by
  obtain ⟨-, hi⟩ := inv_base h hs
  obtain ⟨i, hw, he⟩ | ⟨c, k, -⟩ | ⟨hsc, rfl | rfl | rfl⟩ | ⟨k, rfl⟩ := busyStep_cases h hs hst
  · obtain rfl | ⟨a, rfl, hja⟩ := hw.ofScanning hj
    · obtain ⟨hsc, hle, hx⟩ := hw
      simp only [exec, execProbe, hi, Bool.true_eq_false, if_false] at he
      cases he
      exact probe_directory hi hsc hle hx
    · simp only [exec, execFrameSetSlaveAddress, hja, hi, Bool.true_eq_false, if_false] at he
      cases he
      obtain ⟨hq, hja', hd⟩ | ⟨hq, hd⟩ := reassign_directory a hi
      · exact .inl ⟨hq, hja'.trans hja.symm, hd⟩
      · exact .inr (.inr ⟨hq, .inr hd⟩)
  · obtain k' | ⟨b, k'⟩ := hj <;> exact absurd (k.symm.trans k') nofun
  · exact reset_directory hi hsc
  · exact scanRest_directory hi hsc
  · exact replace_directory hi
  · obtain ⟨hq, hja⟩ | hq := searchPhase_directory hi
    · exact .inr (.inl ⟨hq, k, hja⟩)
    · exact .inr (.inr ⟨hq, .inl k⟩)

/-- Settles O18: a request that is accepted writes the directory only as a `SCAN` or an `ALLOCATE`, and an operation in progress only
if it is one of these. -/
theorem onlyScansWriteTheDirectory : Obligations.OnlyScansWriteTheDirectory := by
  refine ⟨fun s t hq hst hne => ?_, fun s t h hs hst hne => ?_⟩
  · obtain ⟨-, -, rfl⟩ | ⟨-, r, rest, hh, ⟨i, hd, he⟩ | ⟨-, rfl⟩⟩ | ⟨hs, -⟩ := step_cases hst
    · exact absurd rfl hne
    · obtain hdir | ⟨hi, rfl | ⟨d, rfl⟩ | rfl | ⟨a, b, rfl, -⟩⟩ := exec_dir he
      · exact absurd hdir hne
      · exact ⟨hi, r, rest, hh, .inl (op_of_scan hd)⟩
      · exact ⟨hi, r, rest, hh, .inr (op_of_allocate hd).1⟩
      · exact absurd rfl (decodeRequest_ne_bus hd).1
      · exact absurd rfl ((decodeRequest_ne_bus hd).2 a)
    · exact absurd rfl hne
    · exact absurd hq hs
  · by_contra hj
    exact hne (commandStep_dir h hs hj hst)

/-- `SCAN` with `INIT` set: it waits with the old directory, or it is done with the list that was built (R26). -/
theorem execScan_directory {s t : State} (hi : s.init = true) (h : exec .scan s = .next t) :
    (t.seq ≠ .idle ∧ t.dir = s.dir) ∨ (t.seq = .idle ∧ t.dir = t.new) := by
  simp only [exec, execScan, hi, Bool.true_eq_false, if_false] at h
  cases h
  obtain ⟨hq, -, hd⟩ | ⟨-, k, -⟩ | ⟨hq, k | hd⟩ := scanBody_directory (s := s.withJob .scan) hi (.inl rfl)
  · exact .inl ⟨hq, hd⟩
  · cases k
  · cases k
  · exact .inr ⟨hq, hd⟩

/-- `ALLOCATE` with `INIT` set waits with the old directory, or it has come to its reassignment or is done (R26, R170). -/
theorem execAllocate_directory {d : Addr} {s t : State} (hi : s.init = true) (h : exec (.allocate d) s = .next t) :
    (t.seq ≠ .idle ∧ t.dir = s.dir) ∨ t.job = .allocate true ∨ t.seq = .idle := by
  simp only [exec, execAllocate, hi, Bool.true_eq_false, if_false] at h
  cases h
  obtain ⟨hq, -, hd⟩ | ⟨-, -, hj⟩ | ⟨hq, -⟩ :=
    scanBody_directory (s := (s.target d).withJob (.allocate false)) hi (.inr (.inl rfl))
  · exact .inl ⟨hq, hd⟩
  · exact .inr (.inl hj)
  · exact .inr (.inr hq)

/-- Without `INIT` a `SCAN` and an `ALLOCATE` are done at once (R251). -/
theorem exec_scan_notReady {s : State} (hi : s.init = false) : exec .scan s = .next (s.completePlain .notReady) := by
  simp only [exec, execScan, hi, if_true]

theorem exec_allocate_notReady {d : Addr} {s : State} (hi : s.init = false) :
    exec (.allocate d) s = .next (s.completePlain .notReady) := by
  simp only [exec, execAllocate, hi, if_true]

/-- Settles O44: the operation that begins, and each step that goes on with one, leave the directory as `State.LeavesDirectory` says;
a step of a catalog command leaves it alone. -/
theorem directoryIsReplacedAtOnce : Obligations.DirectoryIsReplacedAtOnce := by
  refine ⟨fun s t he hq => ?_, fun d s t he hq hj => ?_, fun s t h hs hst hq hj => ?_, fun s t hi he hq => ?_,
    fun s t h hs hst hq hj => ?_⟩
  · cases hi : s.init with
    | false => cases (exec_scan_notReady hi).symm.trans he; exact absurd rfl hq
    | true => exact (execScan_directory hi he).elim (·.2) fun k => absurd k.1 hq
  · cases hi : s.init with
    | false => cases (exec_allocate_notReady hi).symm.trans he; exact absurd rfl hq
    | true =>
      obtain ⟨-, hd⟩ | k | k := execAllocate_directory hi he
      · exact hd
      · exact absurd (hj.symm.trans k) nofun
      · exact absurd k hq
  · by_cases hsc : s.Scanning
    · obtain ⟨-, -, hd⟩ | ⟨-, k, k'⟩ | ⟨k, -⟩ := scanningStep_directory h hs hsc hst
      · exact hd
      · exact absurd ((hj k).symm.trans k') nofun
      · exact absurd k hq
    · exact commandStep_dir h hs hsc hst
  · exact (execScan_directory hi he).elim (fun k => absurd hq k.1) (·.2)
  · obtain ⟨k, -⟩ | ⟨k, -⟩ | ⟨-, k | hd⟩ := scanningStep_directory h hs (hj.imp_right fun k => ⟨_, k⟩) hst
    · exact absurd hq k
    · exact absurd hq k
    · obtain k' | k' := hj <;> exact absurd (k.symm.trans k') nofun
    · exact hd

/-! Operations that wait. -/

/-- An operation that is `K` on every state, and is good there, comes to the same end as with its answers given at once. -/
theorem GoodAt.waits {i : Instr} {K : State → State} {s : State} (h : GoodAt K s) (hK : ∀ u, exec i u = .next (K u)) :
    ∃ n t, exec i s = .next t ∧ (goOn n t).seq = .idle ∧ exec i (prompt s) = .next (prompt (goOn n t)) := by
  obtain ⟨n, hn, hp⟩ := h
  exact ⟨n, K s, hK s, hn, (hK _).trans (congrArg _ hp)⟩

/-- An operation that answers `NOT_READY` without `INIT`, and is good with it. -/
theorem GoodAt.ofInit {K : State → State} {s : State} (hn : ∀ u : State, u.init = false → K u = u.completePlain .notReady)
    (hg : s.init = true → GoodAt K s) : GoodAt K s := by
  cases hi : s.init with
  | false => exact (plain_good .notReady s).of (hn s hi) (hn (prompt s) hi)
  | true => exact hg hi

/-- An operation that tests `INIT` before all else is good if it is so with `INIT` set. -/
theorem GoodAt.guarded {K : State → State} {s : State} (hg : s.init = true → GoodAt K s) :
    GoodAt (fun u => if u.init = false then u.completePlain .notReady else K u) s := by
  refine .ofInit (fun u hu => if_pos hu) fun hi => (hg hi).of (if_neg ?_) (if_neg ?_)
  · simp [hi]
  · simp [prompt, hi]

theorem setExclusions_good (n : Byte) (l : List Addr) (s : State) :
    GoodAt (fun u => if Config.listCap < n.toNat then u.completePlain .badArg
      else ({ u with exc := l.take n.toNat }).completePlain .ok) s := by
  by_cases hn : Config.listCap < n.toNat
  · exact (plain_good .badArg s).of (if_pos hn) (if_pos hn)
  · exact (plain_good .ok { s with exc := l.take n.toNat }).of (if_neg hn) (if_neg hn)

theorem readCommand_notReady {c : RCmd} {s : State} (hi : s.init = false) : readCommand c s = s.completePlain .notReady := by
  simp only [readCommand, hi, if_true]

theorem writeCommand_notReady {c : WCmd} {ps : List Byte} {legal : Bool} {s : State} (hi : s.init = false) :
    writeCommand c ps legal s = s.completePlain .notReady := by
  simp only [writeCommand, hi, if_true]

/-- A point of an operation that latches its target first. -/
theorem GoodAt.aimed {K : State → State} {s : State} (o : Option Addr) (h : GoodAt K (s.aimed o)) :
    GoodAt (fun u => K (u.aimed o)) s := h.of rfl (congrArg K (s.aimed_prompt o))

/-- Settles O54: by the kind of the operation, each of which is good at the point where it begins. -/
theorem waitingChangesNothingButTime : Obligations.WaitingChangesNothingButTime := by
  intro i s hc hf hb
  have live : s.init = true → Live s := fun hi => ⟨hc, hi, hf⟩
  cases opKind i with
  | init caps => exact (plain_good .ok { s with init := initAfter s.init caps } |>.of rfl rfl).waits fun _ => rfl
  | setExclusions n l => exact (GoodAt.guarded fun _ => setExclusions_good n l s).waits fun _ => rfl
  | getDirectory => exact (GoodAt.guarded fun _ => respond_good s).waits fun _ => rfl
  | getExclusions => exact (GoodAt.guarded (K := fun u => u.complete .ok 0 u.exc) fun _ => .end rfl rfl).waits fun _ => rfl
  | scan =>
    have hg (hi : s.init = true) : GoodAt (fun u => (scanBody u).finish fun _ t => afterScan t) (s.withJob .scan) :=
      bodyPoint_good (fun _ hj => afterScan_plain (j := .scan) nofun hj) ((live hi).same rfl rfl rfl) rfl
    exact (GoodAt.guarded fun hi => (hg hi).of rfl rfl).waits fun _ => rfl
  | allocate d =>
    have hg (hi : s.init = true) :
        GoodAt (fun u => (scanBody u).finish fun _ t => afterScan t) ((s.target d).withJob (.allocate false)) :=
      bodyPoint_good afterScan_good ((live hi).same rfl rfl rfl) rfl
    exact (GoodAt.guarded fun hi => (hg hi).of rfl rfl).waits fun _ => rfl
  | probe => exact absurd rfl (hb _)
  | reassignment a => exact absurd rfl (hb _)
  | read c o runs =>
    have hl (hi : (s.aimed o).init = true) : Live (s.aimed o) := (live (by simpa using hi)).same (by simp) (by simp) (by simp)
    have hg : GoodAt (readCommand c) (s.aimed o) := .ofInit (fun _ => readCommand_notReady) fun hi =>
      readCommand_good (hl hi) (decodeBus_of_encode (hl hi).cfg (encode_frameOf _ c)) (exec_frameOf c)
    exact (hg.aimed o).waits runs
  | write word o runs =>
    have hl (hi : (s.aimed o).init = true) : Live (s.aimed o) := (live (by simpa using hi)).same (by simp) (by simp) (by simp)
    have hg : GoodAt (writeCommand _ _ _) (s.aimed o) := .ofInit (fun _ => writeCommand_notReady) fun hi =>
      writeCommand_good (hl hi) (decodeBus_of_encode (hl hi).cfg (word.encode_eq _)) word.runs
    exact (hg.aimed o).waits runs

end Sys2Proof.Machine

/-! SUPPORT. The statements of 20_memory.md: no bus event without `INIT` (R55, R251), which operations reset the bus (R57, R72 (e)),
how many events of each kind a scan has (R72 (d)), and a call that never completes (R66, R289). -/

namespace Sys2Proof.Machine

section

open Sys2Proof.Claims

@[simp] theorem State.aimed_trace (s : State) (o : Option Addr) : (s.aimed o).trace = s.trace := by cases o <;> rfl
@[simp] theorem State.aimed_past (s : State) (o : Option Addr) : (s.aimed o).past = s.past := by cases o <;> rfl

/-! Operations without `INIT`. -/

/-- Without `INIT` every operation other than `INIT` is refused at once; a catalog command has latched its target before (R251). -/
theorem exec_notReady {i : Instr} {s : State} (hn : ∀ caps, i ≠ .init caps) (hi : s.init = false) :
    ∃ o, exec i s = .next ((s.aimed o).completePlain .notReady) := by
  cases opKind i with
  | init caps => exact absurd rfl (hn caps)
  | setExclusions n l => exact ⟨none, congrArg _ (if_pos hi)⟩
  | getDirectory => exact ⟨none, congrArg _ (if_pos hi)⟩
  | getExclusions => exact ⟨none, congrArg _ (if_pos hi)⟩
  | scan => exact ⟨none, exec_scan_notReady hi⟩
  | allocate d => exact ⟨none, exec_allocate_notReady hi⟩
  | probe => exact ⟨none, congrArg _ (if_pos hi)⟩
  | reassignment a =>
    refine ⟨none, ?_⟩
    simp only [exec, execFrameSetSlaveAddress]
    split
    · exact congrArg _ (if_pos hi)
    · exact congrArg _ (writeCommand_notReady hi)
  | read c o runs => exact ⟨o, (runs s).trans (congrArg _ (readCommand_notReady ((s.aimed_init o).trans hi)))⟩
  | write word o runs => exact ⟨o, (runs s).trans (congrArg _ (writeCommand_notReady ((s.aimed_init o).trans hi)))⟩

/-- Without `INIT` an operation puts no event on the bus: `INIT` has none, and every other one is refused. -/
theorem exec_uninit_history {i : Instr} {s t : State} (hi : s.init = false) (h : exec i s = .next t) : t.history = s.history := by
  by_cases hn : ∃ caps, i = .init caps
  · obtain ⟨caps, rfl⟩ := hn
    cases h
    rfl
  · obtain ⟨o, ho⟩ := exec_notReady (fun caps k => hn ⟨caps, k⟩) hi
    cases ho.symm.trans h
    exact congrArg₂ _ (s.aimed_past o) (s.aimed_trace o)

/-- Settles O20: without `INIT` a run is in `IDLE`, where it waits, runs the operation presented without `INIT`, or refuses a reserved
code. -/
theorem noBusEventBeforeInit : Obligations.NoBusEventBeforeInit := by
  intro s t h hi hst
  obtain ⟨-, -, rfl⟩ | ⟨-, r, rest, -, ⟨i, -, he⟩ | ⟨-, rfl⟩⟩ | ⟨hs, -⟩ := step_cases hst
  · rfl
  · exact (exec_uninit_history (s := s.accept rest) hi he).trans (s.history_accept rest)
  · exact s.history_accept rest
  · exact absurd (h.uninit hi).2 hs

/-! Operations outside the scans. -/

/-- The bus events of `t` are those of `s` and some more, none of them a `Reset`. -/
def State.NoReset (s t : State) : Prop := ∃ evs, added s t evs ∧ .reset ∉ evs

theorem State.NoReset.silent {s t : State} (h : t.trace = s.trace) : s.NoReset t := ⟨[], by simp [added, h], by simp⟩

/-- Latching a target first adds no event. -/
theorem State.NoReset.ofAimed {s t : State} {o : Option Addr} (h : (s.aimed o).NoReset t) : s.NoReset t := by
  obtain ⟨evs, he, hr⟩ := h
  exact ⟨evs, he.trans (by rw [State.aimed_trace]), hr⟩

@[simp] theorem readReport_trace (g : Cfg) (c : RCmd) (st : BusStatus) (r : List Byte) (t : State) :
    (readReport g c st r t).trace = t.trace := by
  unfold readReport
  split <;> rfl

/-- A class W command writes or does nothing on the bus (R72 (b)). -/
theorem writeCommand_noReset (c : WCmd) (ps : List Byte) (legal : Bool) (s : State) : s.NoReset (writeCommand c ps legal s) := by
  obtain ⟨-, e⟩ | ⟨-, -, e⟩ | ⟨-, -, q, e⟩ | ⟨-, -, q, st, e⟩ := writeCommand_cases c ps legal s <;> rw [e]
  · exact .silent rfl
  · exact .silent rfl
  · exact .silent rfl
  · exact ⟨[.write s.addr (frame s.cfg (.w c) ps) st], rfl, by simp⟩

/-- A class R command writes, delays and reads, as far as it comes (R72 (a)). -/
theorem readCommand_noReset (c : RCmd) (s : State) : s.NoReset (readCommand c s) := by
  obtain ⟨-, e⟩ | ⟨-, -, e⟩ | ⟨-, -, ⟨q, e⟩ | ⟨q, e⟩ | ⟨q, q', e⟩ | ⟨q, q', q'', e⟩ | ⟨q, q', q'', st, r, -, e⟩⟩ :=
    readCommand_cases c s <;> rw [e]
  · exact .silent rfl
  · exact .silent rfl
  · exact .silent rfl
  · exact ⟨[.write s.addr (frame s.cfg (.r c) []) .err], rfl, by simp⟩
  · exact ⟨[.write s.addr (frame s.cfg (.r c) []) .ok], rfl, by simp⟩
  · exact ⟨[.write s.addr (frame s.cfg (.r c) []) .ok, .delay (s.cfg.delayMs.get c)], by simp [added], by simp⟩
  · exact ⟨[.write s.addr (frame s.cfg (.r c) []) .ok, .delay (s.cfg.delayMs.get c), .read s.addr (s.cfg.rlen c) st r],
      by simp [added], by simp⟩

/-- Settles O35: the management operations have no bus event, and of the two builders of the catalog neither resets the bus. -/
theorem noResetOutsideScanAndAllocate : Obligations.NoResetOutsideScanAndAllocate := by
  intro i s t ho h
  change s.NoReset t
  cases opKind i with
  | init caps => cases h; exact .silent rfl
  | setExclusions n l => obtain ⟨rfl, -⟩ | ⟨rfl, -⟩ | ⟨rfl, -⟩ := exec_setExclusions_cases h <;> exact .silent rfl
  | getDirectory => cases h; exact .silent (by split <;> rfl)
  | getExclusions => cases h; exact .silent (by split <;> rfl)
  | scan => exact ho.elim
  | allocate d => exact ho.elim
  | probe => exact ho.elim
  | reassignment a =>
    obtain ⟨hf, ht⟩ := ho
    simp only [exec, execFrameSetSlaveAddress] at h
    split at h
    · rename_i b hj
      cases b
      · exact absurd hj hf
      · exact absurd hj ht
    · cases h
      exact writeCommand_noReset _ _ _ s
  | read c o runs =>
    cases (runs s).symm.trans h
    exact (readCommand_noReset c (s.aimed o)).ofAimed
  | write word o runs =>
    cases (runs s).symm.trans h
    exact (writeCommand_noReset _ _ _ (s.aimed o)).ofAimed

/-! The events of a scan. -/

/-- A `SCAN` that is done has the events of one scan body, for the answers its probes got (R151). -/
theorem execScan_events {s t : State} (hi : s.init = true) (h : exec .scan s = .next t) (hq : t.seq = .idle) :
    ∃ f, added s t (scanEvents s.cfg.probeByte s.exc f) := by
  simp only [exec, execScan, hi, Bool.true_eq_false, if_false] at h
  have hk := scanBody_keeps (s := s.withJob .scan) hi (.inl rfl)
  have hd := scanBody_done (s := s.withJob .scan) hi
  cases hb : scanBody (s.withJob .scan) <;> rw [hb] at h hk hd <;> cases h
  case waiting u => exact absurd hq hk.busy
  case done u =>
    obtain ⟨f, e', tx, rfl⟩ := hd
    exact ⟨f, rfl⟩

/-- A scan probes the addresses 1 to 127 less the excluded ones (R152). -/
theorem length_probed (exc : List Addr) : (probed exc).length + ((candidates 1).filter fun a => member a exc).length = 127 := by
  have hs := (candidates 1).length_eq_length_filter_add fun a => member a exc
  have hc : (candidates 1).length = 127 := by simp [candidates]
  rw [probed, Nat.add_comm, ← hs, hc]

/-- The events `p` of a scan body after its first `Reset`, counted probe by probe. -/
theorem length_filter_probes (p : BusEvent → Bool) (b : Byte) (f : Addr → BusStatus) (l : List Addr) :
    ((l.flatMap fun a => probeEvents b a (f a)).filter p).length = (l.map fun a => ((probeEvents b a (f a)).filter p).length).sum := by
  rw [List.filter_flatMap, List.length_flatMap]

/-- A probe is one write (R151 (5)). -/
theorem length_probe_writes (b : Byte) (a : Addr) (st : BusStatus) :
    ((probeEvents b a st).filter fun e => (writeLength e).isSome).length = 1 := by
  cases st <;> rfl

/-- A probe is followed by a reset exactly if it failed (R151 (7)). -/
theorem length_probe_resets (b : Byte) (a : Addr) (st : BusStatus) :
    ((probeEvents b a st).filter fun e => e == .reset).length = ((probeEvents b a st).filter failedWrite).length := by
  cases st <;> rfl

theorem length_scan_writes (b : Byte) (exc : List Addr) (f : Addr → BusStatus) :
    ((scanEvents b exc f).filter fun e => (writeLength e).isSome).length = (probed exc).length := by
  have hr : (writeLength .reset).isSome = false := rfl
  simp [scanEvents, hr, length_filter_probes, length_probe_writes]

theorem length_scan_resets (b : Byte) (exc : List Addr) (f : Addr → BusStatus) :
    ((scanEvents b exc f).filter fun e => e == .reset).length = 1 + ((scanEvents b exc f).filter failedWrite).length := by
  have hr : failedWrite .reset = false := rfl
  simp [scanEvents, hr, length_filter_probes, length_probe_resets, Nat.add_comm]

/-- A scan body has writes and resets only. -/
theorem scanEvents_kinds {b : Byte} {exc : List Addr} {f : Addr → BusStatus} {e : BusEvent} (h : e ∈ scanEvents b exc f) :
    ((writeLength e).isSome || e == .reset) = true := by
  obtain rfl | h := List.mem_cons.1 h
  · rfl
  · obtain ⟨a, -, he⟩ := List.mem_flatMap.1 h
    cases hf : f a <;> simp only [hf, probeEvents, List.mem_cons, List.not_mem_nil, or_false] at he
    · subst he; rfl
    · obtain rfl | rfl := he <;> rfl

/-- Settles O43: the events of a `SCAN` that is done are those of one scan body, counted by kind. -/
theorem scanEventCounts : Obligations.ScanEventCounts := by
  intro s t hi h hq
  obtain ⟨f, hf⟩ := execScan_events hi h hq
  refine ⟨_, hf, ?_, length_scan_resets _ _ _, ?_⟩
  · rw [length_scan_writes, length_probed]
  · rw [List.filter_eq_self.2 fun e => scanEvents_kinds]

/-! Calls that never complete. -/

/-- A call that never completes has no answer, and stays at the head of its queue (R66). -/
theorem takeAnswer_hangs {α : Type} {l : List (Completion α)} (h : l.head? = some .never) (d : α) : takeAnswer d l = (none, l) := by
  obtain ⟨rest, rfl⟩ := List.head?_eq_some_iff.1 h
  rfl

theorem busWrite_hangs {s : State} (h : s.env.writes.head? = some .never) (a : Addr) (b : List Byte) :
    busWrite a b s = .waiting s := by
  rw [busWrite_eq, State.writeTurn, takeAnswer_hangs h]
  rfl

theorem busRead_hangs {s : State} (h : s.env.reads.head? = some .never) (a : Addr) (n : Nat) : busRead a n s = .waiting s := by
  rw [busRead_eq, State.readTurn, takeAnswer_hangs h]
  rfl

theorem busReset_hangs {s : State} (h : s.env.resets.head? = some .never) : busReset s = .waiting s := by
  rw [busReset_eq, takeAnswer_hangs h]
  rfl

theorem busDelay_hangs {s : State} (h : s.env.delays.head? = some .never) (d : Word) : busDelay d s = .waiting s := by
  rw [busDelay_eq, takeAnswer_hangs h]
  rfl

theorem State.enter_self {s : State} {p : Phase} (h : s.seq = p) : s.enter p = s := by subst h; rfl
theorem State.withJob_self {s : State} {j : Job} (h : s.job = j) : s.withJob j = s := by subst h; rfl
theorem State.enterWrite_self {s : State} {b : List Byte} (hq : s.seq = .tWrite) (hb : s.txbuf = b) : s.enterWrite b = s := by
  subst hb
  exact State.enter_self hq

/-- The operation in progress has a write outstanding that never completes. -/
structure State.WriteHangs (s : State) : Prop where
  init : s.init = true
  seq : s.seq = .tWrite
  never : s.env.writes.head? = some .never

/-- Issued again, the write in TXBUF is still outstanding and changes nothing. -/
theorem State.WriteHangs.writePhase_waits {s : State} (h : s.WriteHangs) {b : List Byte} (hb : s.txbuf = b) (a : Addr) :
    writePhase a b s = .waiting s := by
  rw [writePhase_ready h.init, State.enterWrite_self h.seq hb, busWrite_hangs h.never, Run.bind_waiting]

/-- The words an operation in progress writes: the probe, the reassignment frame of an `ALLOCATE`, the frame of a class R command, and
that of a class W one (R97). -/
theorem State.Writes.cases {s : State} {i : Instr} (h : s.Writes i) :
    i = .probe ∨ (∃ a, i = .frameSetSlaveAddress a ∧ s.job = .allocate true) ∨
    (∃ c, i = frameOf c ∧ s.job = .read c ∧ s.addr ≠ 0) ∨ ∃ c ps, WriteWord c ps true i ∧ s.job = .write c := by
  cases i
  case probe => exact .inl rfl
  case frameReadMeasurement => exact .inr (.inr (.inl ⟨.readMeasurement, rfl, h⟩))
  case frameReadVersion => exact .inr (.inr (.inl ⟨.readVersion, rfl, h⟩))
  case frameGetSampleRate => exact .inr (.inr (.inl ⟨.getSampleRate, rfl, h⟩))
  case frameGetStatus => exact .inr (.inr (.inl ⟨.getStatus, rfl, h⟩))
  case frameGetSlaveAddress => exact .inr (.inr (.inl ⟨.getSlaveAddress, rfl, h⟩))
  case frameGetAmpThreshold => exact .inr (.inr (.inl ⟨.getAmpThreshold, rfl, h⟩))
  case frameGetDistanceLimits => exact .inr (.inr (.inl ⟨.getDistanceLimits, rfl, h⟩))
  case frameSoftReset => exact .inr (.inr (.inr ⟨_, _, writeWord_softReset, h⟩))
  case frameSetSampleRate rate => exact .inr (.inr (.inr ⟨_, _, writeWord_setSampleRate rate, h⟩))
  case frameTrigger => exact .inr (.inr (.inr ⟨_, _, writeWord_trigger, h⟩))
  case frameSetEnable en => exact .inr (.inr (.inr ⟨_, _, writeWord_setEnable en, h⟩))
  case frameRestoreDefaults => exact .inr (.inr (.inr ⟨_, _, writeWord_restoreDefaults, h⟩))
  case frameSaveSettings => exact .inr (.inr (.inr ⟨_, _, writeWord_saveSettings, h⟩))
  case frameSetAmpThreshold thr => exact .inr (.inr (.inr ⟨_, _, writeWord_setAmpThreshold thr, h⟩))
  case frameSetDistanceLimits min max => exact .inr (.inr (.inr ⟨_, _, writeWord_setDistanceLimits min max, h⟩))
  case frameTimestampSync ts => exact .inr (.inr (.inr ⟨_, _, writeWord_timestampSync ts, h⟩))
  case frameSetSlaveAddress a =>
    obtain hj | ⟨hj, ha⟩ := h
    · exact .inr (.inl ⟨a, rfl, hj⟩)
    · have hl : newAddressLegal a = true := by simpa [newAddressLegal] using ha
      exact .inr (.inr (.inr ⟨_, _, hl ▸ writeWord_setSlaveAddress a, hj⟩))
  -- an operation in progress writes no host operation
  all_goals exact h.elim

/-- The word in TXBUF, run while its write never completes, leaves the state as it is. -/
theorem State.WriteHangs.exec_stays {s : State} (h : s.WriteHangs) {i : Instr} (hw : s.Writes i)
    (he : encode s.cfg i = .bus s.txbuf) : exec i s = .next s := by
  have bytes {b : List Byte} (hb : encode s.cfg i = .bus b) : s.txbuf = b := Encoded.bus.inj (he.symm.trans hb)
  have hi := h.init
  obtain rfl | ⟨a, rfl, hj⟩ | ⟨c, rfl, hj, ha⟩ | ⟨c, ps, word, hj⟩ := hw.cases
  · have hb : s.txbuf = probeBytes s.cfg := bytes rfl
    simp only [exec, execProbe, hi, Bool.true_eq_false, if_false, probeCandidate, h.writePhase_waits hb, Run.bind_waiting,
      Run.finish_waiting]
  · have hb : s.txbuf = reassignFrame s.cfg a := bytes rfl
    simp only [exec, execFrameSetSlaveAddress, hj, hi, Bool.true_eq_false, if_false, reassign, State.withJob_self hj,
      h.writePhase_waits hb, Run.bind_waiting, Run.finish_waiting]
  · have hb := bytes (encode_frameOf s.cfg c)
    simp only [exec_frameOf, readCommand, hi, Bool.true_eq_false, if_false, ha, transact, State.withJob_self hj,
      h.writePhase_waits hb, Run.bind_waiting, Run.finish_waiting]
  · have hb := bytes (word.encode_eq s.cfg)
    simp only [word.runs s hj, writeCommand, hi, Bool.true_eq_false, if_false, State.withJob_self hj,
      h.writePhase_waits hb, Run.finish_waiting]

/-- Settles O53: by the phase of the sequencer, in each of which the outstanding call is issued again and has no answer. -/
theorem callThatNeverCompletesHoldsThePhase : Obligations.CallThatNeverCompletesHoldsThePhase := by
  intro s h hh
  have hp := h.phaseOk
  cases hs : s.seq <;> simp only [State.HangsForEver, State.PhaseOk, hs] at hh hp
  case tWrite =>
    obtain ⟨i, he, hw⟩ := hp
    have hi := (inv_base h (by simp [hs])).2
    rw [step_word hs (decodeBus_of_encode h.cfgOk he)]
    exact State.WriteHangs.exec_stays ⟨hi, hs, hh⟩ hw he
  case tDelay =>
    obtain ⟨c, hj⟩ := hp
    simp only [step, hs, delayStep, hj, delayPhase, State.enter_self hs, busDelay_hangs hh, Run.bind_waiting, Run.finish_waiting]
  case tRead =>
    obtain ⟨c, hj⟩ := hp
    simp only [step, hs, readStep, hj, readPhase, State.enter_self hs, busRead_hangs hh, Run.bind_waiting, Run.finish_waiting]
  case sReset =>
    simp only [step, hs, resetStep, resetPhase, State.enter_self hs, busReset_hangs hh, Run.bind_waiting, Run.finish_waiting]

end

end Sys2Proof.Machine

/-! SUPPORT. The statements of 30_encoding.md: what stands for an operation on each side of TXC (R81 to R88), that nothing else does
(R95, R97), and what becomes of reserved codes and illegal operands (R95, R96); and the probe as a bus-side word (R88). -/

namespace Sys2Proof

section

open Sys2Proof.Claims

/-! The words of the tables. -/

/-- Settles O1: each word is read by the decoder. -/
theorem wordsOfTheTablesDecode : Obligations.WordsOfTheTablesDecode :=
  ⟨rfl, rfl, rfl, rfl, rfl, rfl, rfl, rfl, rfl, rfl, rfl⟩

/-! The bytes of the bus side. -/

/-- The class R frames of the table are the frames of the class R commands (R85). -/
theorem eq_frameOf_of_busCommand {i : Instr} {c : RCmd} (h : busCommand i = some c) : i = Machine.frameOf c := by
  cases i <;> cases h <;> rfl

theorem enableByte_eq (en : BitVec 1) : enableByte en = if en = 1 then 0x01 else 0x00 := by
  revert en
  decide

theorem addrByte_eq (a : Addr) : addrByte a = BitVec.ofNat 8 a.toNat := (BitVec.ofNat_toNat 8 a).symm

/-- The class W frames written out byte for byte are the encoded words (R84, R85). -/
theorem encode_of_busFrame {g : Cfg} {i : Instr} {b : List Byte} (h : busFrame g i = some b) : encode g i = .bus b := by
  cases i
  case frameSetEnable en =>
    cases h
    rw [← enableByte_eq]
    rfl
  case frameSetSlaveAddress new =>
    cases h
    rw [← addrByte_eq]
    rfl
  all_goals cases h <;> rfl

/-- Byte 1 of a class W frame is the number of its bytes (R84). -/
theorem length_of_busFrame {g : Cfg} {i : Instr} {b : List Byte} (h : busFrame g i = some b) : b.length = (b.getD 1 0).toNat := by
  cases i <;> cases h <;> rfl

/-- Settles O4: the class W frames byte for byte, the class R frames as the three bytes they all have. -/
theorem framesAreMarkerLengthIdentifierParameters : Obligations.FramesAreMarkerLengthIdentifierParameters := by
  refine fun g i => ⟨fun b hb => ⟨encode_of_busFrame hb, length_of_busFrame hb⟩, fun c hc => ?_⟩
  rw [eq_frameOf_of_busCommand hc]
  exact Machine.encode_frameOf g c

/-! Parameter bytes. Each form of them decodes only from the bytes its operand is written as (R85, R97). -/

theorem noParam_eq_ok {i j : Instr} {ps : List Byte} (h : noParam i ps = .ok j) : ps = [] ∧ j = i := by
  unfold noParam at h
  split at h <;> cases h
  exact ⟨rfl, rfl⟩

theorem halfParam_eq_ok {f : Half → Instr} {ps : List Byte} {j : Instr} (h : halfParam f ps = .ok j) :
    ∃ v, ps = le16 v ∧ j = f v := by
  unfold halfParam at h
  split at h <;> cases h
  exact ⟨_, (le16_join16 _ _).symm, rfl⟩

theorem byteParam_eq_ok {n : Nat} {f : BitVec n → Instr} {ps : List Byte} {j : Instr} (h : byteParam f ps = .ok j) :
    ∃ v, ps = [v.setWidth 8] ∧ j = f v := by
  unfold byteParam at h
  split at h
  · split at h <;> cases h
    rename_i b hb
    exact ⟨b.setWidth n, by rw [hb], rfl⟩
  · cases h

theorem fourParams_eq_ok {f : Byte → Byte → Byte → Byte → Instr} {ps : List Byte} {j : Instr}
    (h : fourParams f ps = .ok j) :
    ∃ b0 b1 b2 b3, ps = [b0, b1, b2, b3] ∧ j = f b0 b1 b2 b3 := by
  unfold fourParams at h
  split at h <;> cases h
  exact ⟨_, _, _, _, rfl, rfl⟩

/-- Parameter bytes that decode for a class R command are none, and its operation is its frame (R85). -/
theorem decodeReadParams_eq_ok {c : RCmd} {ps : List Byte} {i : Instr} (h : decodeReadParams c ps = .ok i) :
    ps = [] ∧ i = Machine.frameOf c := by
  unfold decodeReadParams at h
  split at h
  · cases c <;> cases h <;> exact ⟨rfl, rfl⟩
  · cases h

/-- Parameter bytes that decode for a command are those of the frame of what they decode to (R85). -/
theorem encode_of_decodeParams {g : Cfg} {c : Cmd} {ps : List Byte} {i : Instr} (h : decodeParams c ps = .ok i) :
    encode g i = .bus (frame g c ps) := by
  cases c with
  | r c =>
    obtain ⟨rfl, rfl⟩ := decodeReadParams_eq_ok h
    exact Machine.encode_frameOf g c
  | w c =>
    cases c
    case softReset | trigger | restoreDefaults | saveSettings => obtain ⟨rfl, rfl⟩ := noParam_eq_ok h; rfl
    case setSampleRate | setAmpThreshold => obtain ⟨v, rfl, rfl⟩ := halfParam_eq_ok h; rfl
    case setEnable | setSlaveAddress => obtain ⟨v, rfl, rfl⟩ := byteParam_eq_ok h; rfl
    case setDistanceLimits =>
      obtain ⟨b0, b1, b2, b3, rfl, rfl⟩ := fourParams_eq_ok h
      simp only [encode, le16_join16, List.cons_append, List.nil_append]
    case timestampSync =>
      obtain ⟨b0, b1, b2, b3, rfl, rfl⟩ := fourParams_eq_ok h
      simp only [encode, le32_join32]

/-- What decodes on the bus side is the one byte of the probe, or a frame whose parameter bytes decode: its length byte is its
length, and its identifier is that of the command found (R84, R85, R88). -/
theorem decodeBus_eq_ok {g : Cfg} {bytes : List Byte} {i : Instr} (h : decodeBus g bytes = .ok i) :
    (bytes = probeBytes g ∧ i = .probe) ∨ ∃ c ps, bytes = frame g c ps ∧ decodeParams c ps = .ok i := by
  unfold decodeBus at h
  split at h
  · cases h
  · split at h <;> cases h
    rename_i b hb
    exact .inl ⟨congrArg (fun x => [x]) hb, rfl⟩
  · cases h
  · rename_i m l id ps
    split at h
    · cases h
    rename_i hm
    split at h
    · cases h
    rename_i hl
    split at h
    · cases h
    rename_i c hc
    obtain ⟨hid, -⟩ := idPair_of_findCmd hc
    have hb : BitVec.ofNat 8 (3 + ps.length) = l := by rw [← not_not.1 hl, BitVec.ofNat_toNat, BitVec.setWidth_eq]
    exact .inr ⟨c, ps, by rw [frame, hid, hb, ← not_not.1 hm]; rfl, h⟩

/-- Settles O3: the probe is one byte, and a frame whose parameter bytes decode is the frame of what they decode to. -/
theorem everyDecodedBusWordIsTheEncodedOne : Obligations.EveryDecodedBusWordIsTheEncodedOne := by
  intro g bytes i h
  obtain ⟨rfl, rfl⟩ | ⟨c, ps, rfl, hp⟩ := decodeBus_eq_ok h
  · rfl
  · exact encode_of_decodeParams hp

/-! Request messages. -/

/-- A request message decodes as its `OP` says (R80). -/
theorem decodeRequest_of_op {r : Request} {op : BitVec 6} (h : r.op = op) :
    decodeRequest r = decodeRequest { r with op := op } := by rw [← h]

/-- Settles O5: the operation code written into the request, the decoder answers by computation; a list of exclusions is read entry
by entry. -/
theorem operandsComeFromTheirRequestFields : Obligations.OperandsComeFromTheirRequestFields := by
  intro r
  refine ⟨decodeRequest_of_op, fun h => ⟨_, decodeRequest_of_op h, r.length_entries _, fun k hk => ?_⟩, ?_⟩
  · exact r.getElem?_entries (r.length_entries _ ▸ hk)
  · and_intros <;> exact decodeRequest_of_op

/-- The codes 0x06 to 0x0F and 0x21 to 0x3F select no operation (R95). -/
theorem decodeRequest_reserved {r : Request}
    (h : (0x06 ≤ r.op.toNat ∧ r.op.toNat ≤ 0x0F) ∨ (0x21 ≤ r.op.toNat ∧ r.op.toNat ≤ 0x3F)) :
    decodeRequest r = .error (.reservedOp r.op) := by
  unfold decodeRequest
  split
  case h_24 => rfl
  all_goals omega

end

end Sys2Proof

namespace Sys2Proof.Machine

section

open Sys2Proof.Claims

/-! Refusals. -/

/-- Settles O8: the request is accepted, and as its code selects no operation, refused. -/
theorem reservedCodesAreRefused : Obligations.ReservedCodesAreRefused := by
  intro s r rest hq hh hr
  have hs : step s = .next (refuseReserved (s.accept rest)) := by
    simp only [step, hq, idleStep, hh, decodeRequest_reserved hr]
  rw [hs, hq]
  rfl

/-- An operation that ends at once with a plain response, its target latched or not, has changed nothing else that a host or the bus
can see. -/
theorem refused_of_completePlain {i : Instr} {s : State} {o : Option Addr} {st : Status}
    (h : exec i s = .next ((s.aimed o).completePlain st)) :
    ∃ t, exec i s = .next t ∧ SameArchitecture s t ∧ t.trace = s.trace ∧ t.env = s.env ∧ t.seq = .idle ∧
      t.resp = some (plainResponse st) := by
  cases o <;> exact ⟨_, h, ⟨rfl, rfl, rfl, rfl, rfl, rfl⟩, rfl, rfl, rfl, State.completePlain_resp _ _⟩

theorem readCommand_badArg {c : RCmd} {s : State} (hi : s.init = true) (ha : s.addr = 0) :
    readCommand c s = s.completePlain .badArg := by
  simp only [readCommand, hi, ha, Bool.true_eq_false, if_false, if_true]

theorem writeCommand_badArg {c : WCmd} {ps : List Byte} {s : State} (hi : s.init = true) :
    writeCommand c ps false s = s.completePlain .badArg := by
  simp only [writeCommand, hi, Bool.true_eq_false, if_false, if_true]

/-- A class R host operation latches its target and runs its command (R194). -/
theorem exec_of_hostRead {i : Instr} {c : RCmd} {a : Addr} (h : hostRead i = some (c, a)) (s : State) :
    exec i s = .next (readCommand c (s.target a)) := by
  cases i <;> cases h <;> rfl

theorem exec_setExclusions_badArg {count : Byte} {list : List Addr} {s : State} (hi : s.init = true) (hn : 127 < count.toNat) :
    exec (.setExclusions count list) s = .next (s.completePlain .badArg) := by
  simp only [exec, execSetExclusions, Config.listCap, hi, hn, Bool.true_eq_false, if_false, if_true]

/-- Settles O26: each of the three operations ends at its argument test, which follows that of `INIT`. -/
theorem illegalOperandsAreRefused : Obligations.IllegalOperandsAreRefused := by
  intro i s hi hx
  obtain ⟨c, hc⟩ | ⟨a, rfl⟩ | ⟨count, list, rfl, hn⟩ := hx
  · exact refused_of_completePlain (o := some 0) ((exec_of_hostRead hc s).trans (congrArg _ (readCommand_badArg hi rfl)))
  · exact refused_of_completePlain (o := some a) (congrArg _ (writeCommand_badArg (s := s.target a) hi))
  · exact refused_of_completePlain (o := none) (exec_setExclusions_badArg hi hn)

/-- The frame of `SET_SLAVE_ADDRESS` outside an `ALLOCATE` runs its command (R208). -/
theorem exec_frameSetSlaveAddress_outside {new : Addr} {s : State} (hj : outsideScans s.job (.frameSetSlaveAddress new)) :
    exec (.frameSetSlaveAddress new) s = .next (writeCommand .setSlaveAddress [addrByte new] (newAddressLegal new) s) := by
  obtain ⟨hf, ht⟩ := hj
  simp only [exec, execFrameSetSlaveAddress]
  split
  · rename_i b hb
    cases b
    · exact absurd hb hf
    · exact absurd hb ht
  · rfl

/-- Settles O27: both frames run their command, which ends at its argument test. -/
theorem framesWithIllegalOperandsAreRefused : Obligations.FramesWithIllegalOperandsAreRefused := by
  intro i s hi hx
  refine refused_of_completePlain (o := none) (?_ : exec i s = .next (s.completePlain .badArg))
  obtain ⟨c, hc, ha⟩ | ⟨rfl, hj⟩ := hx
  · rw [eq_frameOf_of_busCommand hc, exec_frameOf, readCommand_badArg hi ha]
  · exact (exec_frameSetSlaveAddress_outside hj).trans (congrArg _ (writeCommand_badArg hi))

/-! The probe. -/

/-- A scan body from a candidate that is not excluded on begins with the probe of that candidate (R151 (5)). -/
theorem scanRest_eq_probe {s : State} (hi : s.init = true) (hle : s.cand.toNat ≤ 127) (hx : s.candAddr ∉ s.exc) :
    scanRest s = (probeCandidate s).bind fun _ t => scanRest t := by
  have hm : ¬ member s.candAddr s.exc = true := by rwa [member_iff]
  have hl : s.candLeft = (127 - s.cand.toNat) + 1 := by simp only [State.candLeft]; omega
  rw [scanRest, hl, scanLoop, if_neg hm, Run.bind_bind]
  have hp := probeCandidate_done hi
  revert hp
  cases probeCandidate s with
  | waiting t => exact fun _ => rfl
  | done x t =>
    rintro ⟨st, e', rfl⟩
    have hn : (s.cand + 1).toNat = s.cand.toNat + 1 := cand_succ hle
    simp only [Run.bind_done, scanRest, State.candLeft, hn]
    rw [show 128 - (s.cand.toNat + 1) = 127 - s.cand.toNat by omega]

/-- The candidates from `CAND` on (R41). -/
theorem candidates_candAddr {s : State} (hle : s.cand.toNat ≤ 127) : candidates s.candAddr = lastCandidates s.candLeft := by
  rw [candidates_eq, candAddr_toNat hle, State.candLeft]

/-- What a scan body computes from its next candidate on (R151) when the environment completes every call, `f a` being the answer to
the probe of `a`. -/
theorem scanRest_completes {s : State} (hi : s.init = true) (hc : s.env.Completes) (hle : s.cand.toNat ≤ 127) :
    ∃ (f : Addr → BusStatus) (t : State), scanRest s = .done () t ∧ s.Scans t ∧ t.env.Completes ∧ t.job = s.job ∧
      t.dir = s.new ++ (((candidates s.candAddr).filter fun a => !member a s.exc).filter fun a => f a == .ok) ∧
      t.trace = s.trace ++
        ((candidates s.candAddr).filter fun a => !member a s.exc).flatMap fun a => probeEvents s.cfg.probeByte a (f a) := by
  obtain ⟨f, e', tx, ha, -, hl⟩ := scanLoop_completes s.candLeft hi hc (by simp only [State.candLeft]; omega)
  have hr := scan_scanRest s
  rw [candidates_candAddr hle]
  rw [scanRest, hl, Run.bind_done] at hr ⊢
  exact ⟨f, _, rfl, hr, ha.completes, rfl, rfl, rfl⟩

/-- An `ALLOCATE` that has found a free address ends with the directory of its second scan body (R170 (5) to (7)). -/
theorem reassign_completes (a : Addr) {s : State} (hi : s.init = true) (hc : s.env.Completes) :
    ∃ t, s.Scans t ∧ reassign a s = respondDirectory t := by
  obtain ⟨st, q, ht, hq, -⟩ := State.writeTurn_completes (s := s.withJob (.allocate true)) hc s.addr (reassignFrame s.cfg a)
  have hw : writePhase s.addr (reassignFrame s.cfg a) (s.withJob (.allocate true)) =
    .done (writeStatus st) (s.written (.allocate true) (reassignFrame s.cfg a) q st) := writePhase_answered hi ht
  obtain ⟨f, e', tx, -, -, hb⟩ :=
    scanBody_completes (s := s.written (.allocate true) (reassignFrame s.cfg a) q st) hi (hc.ofWrites hq)
  have hs := Run.Scan.bind ((scan_writePhase s.addr (reassignFrame s.cfg a) _).after (scans_withJob s (.allocate true)))
    fun _ t => scan_scanBody t
  rw [hw, Run.bind_done, hb] at hs
  exact ⟨_, hs, by rw [reassign, hw, Run.bind_done, hb, Run.finish_done]⟩

/-- The allocator's search ends with the directory, whether it finds a free address or none (R170 (3) to (7)). -/
theorem searchPhase_completes {s : State} (hi : s.init = true) (hc : s.env.Completes) :
    ∃ t, s.Scans t ∧ searchPhase s = respondDirectory t := by
  have hs (c : BitVec 8) : s.Scans ((s.enter .aSearch).searched c) := (scans_enter s .aSearch).trans (scans_searched _ c)
  unfold searchPhase
  split
  · exact ⟨_, hs 128, rfl⟩
  · rename_i a _
    obtain ⟨t, ht, hr⟩ := reassign_completes a (s := (s.enter .aSearch).searched (a.setWidth 8)) hi hc
    exact ⟨t, (hs _).trans ht, hr⟩

/-- What follows a scan body ends with the directory (R150, R170); it does nothing else where no `ALLOCATE` finds its default
address in its first scan body (R171). -/
theorem afterScan_completes {s : State} (hi : s.init = true) (hc : s.env.Completes) :
    ∃ t, s.Scans t ∧ afterScan s = respondDirectory t ∧ (s.job ≠ .allocate false ∨ s.addr ∉ s.dir → t = s) := by
  unfold afterScan
  split
  · rename_i hj
    split
    · rename_i hm
      obtain ⟨t, ht, hr⟩ := searchPhase_completes hi hc
      exact ⟨t, ht, hr, fun h => Or.elim h (absurd hj) (absurd ((member_iff _ _).1 hm))⟩
    · exact ⟨s, .refl s, rfl, fun _ => rfl⟩
  · exact ⟨s, .refl s, rfl, fun _ => rfl⟩

/-- The response of an operation that returns the directory leaves the rest as the operation has (R83). -/
theorem doneWith_respondDirectory {s t : State} (h : s.Scans t) : DoneWith s (respondDirectory t) (listResponse t.dir) :=
  ⟨h.cfg, h.host, h.init, h.exc, h.past, h.rxbuf, rfl, rfl⟩

/-- Settles O46: the probe is the first one of the rest of its scan body, which computes the directory and the events, and what
follows the scan body ends with the directory. -/
theorem probeGoesOnWithItsScan : Obligations.ProbeGoesOnWithItsScan := by
  intro s hi hc _ hle hx
  obtain ⟨f, u, hr, hsu, hcu, hju, hdu, htu⟩ := scanRest_completes hi hc hle
  obtain ⟨t, hut, ha, hsame⟩ := afterScan_completes (hsu.init.trans hi) hcu
  obtain ⟨evs, hevs⟩ := hut.trace
  have he : exec .probe s = .next (respondDirectory t) := by
    simp only [exec, execProbe, hi, Bool.true_eq_false, if_false]
    rw [← scanRest_eq_probe hi hle hx, hr, Run.finish_done, ha]
  refine ⟨f, respondDirectory t, evs, he, doneWith_respondDirectory (hsu.trans hut), (hsu.trans hut).addr, ?_, fun h => ?_⟩
  · exact hevs.trans (by rw [htu])
  · have hd : u.dir = s.new ++ (candidates s.candAddr).filter fun a => !member a s.exc && f a == .ok := by
      rw [hdu, List.filter_filter]
      simp only [Bool.and_comm]
    obtain rfl := hsame (by rwa [hju, hsu.addr, hd])
    exact ⟨hd, List.append_right_eq_self.1 hevs.symm⟩

end

end Sys2Proof.Machine

/-! SUPPORT. The statements of 40_transaction.md: the traces that the transaction primitive leaves (R112). -/

namespace Sys2Proof.Machine

section

open Sys2Proof.Claims

/-- A class W host operation latches its target and runs its command, whose frame is the one of the table and whose argument test
is that of the new address (R85, R96 (b), R192). -/
theorem exec_of_hostFrame {g : Cfg} {i : Instr} {a : Addr} {bytes : List Byte} (h : hostFrame g i = some (a, bytes)) :
    ∃ c ps legal, frame g (.w c) ps = bytes ∧ (legal = true ↔ newAddressGiven i) ∧
      ∀ s, exec i s = .next (writeCommand c ps legal (s.target a)) := by
  cases i
  case setEnable _ en =>
    cases h
    rw [← enableByte_eq]
    exact ⟨_, _, _, rfl, iff_of_true rfl trivial, fun _ => rfl⟩
  case setSlaveAddress _ new =>
    cases h
    rw [← addrByte_eq]
    exact ⟨_, _, _, rfl, by simp [newAddressLegal, newAddressGiven], fun _ => rfl⟩
  all_goals cases h <;> exact ⟨_, _, _, rfl, iff_of_true rfl trivial, fun _ => rfl⟩

@[simp] theorem readReport_seq (g : Cfg) (c : RCmd) (st : BusStatus) (r : List Byte) (t : State) :
    (readReport g c st r t).seq = .idle := by
  unfold readReport
  split <;> rfl

/-- A class W command adds nothing, or its one write (R72 (b)). -/
theorem writeCommand_trace (c : WCmd) (ps : List Byte) (legal : Bool) (s : State) :
    added s (writeCommand c ps legal s) [] ∨ ∃ st, added s (writeCommand c ps legal s) [.write s.addr (frame s.cfg (.w c) ps) st] := by
  obtain ⟨-, e⟩ | ⟨-, -, e⟩ | ⟨-, -, q, e⟩ | ⟨-, -, q, st, e⟩ := writeCommand_cases c ps legal s <;> rw [e]
  · exact .inl (by simp [added])
  · exact .inl (by simp [added])
  · exact .inl (by simp [added])
  · exact .inr ⟨st, by simp [added]⟩

/-- What a class R command adds: nothing, its failed write, or its write, delay and read where it is done; where it waits, the part
before the outstanding call (R72 (a), R112). -/
def State.AddsTransaction (s : State) (c : RCmd) (t : State) : Prop :=
  let w := readFrame s.cfg c
  let d := BusEvent.delay (s.cfg.delayMs.get c)
  (t.seq = .idle → added s t [] ∨ added s t [.write s.addr w .err] ∨
    ∃ st r, r.length ≤ s.cfg.rlen c ∧ added s t [.write s.addr w .ok, d, .read s.addr (s.cfg.rlen c) st r]) ∧
  (t.seq ≠ .idle → added s t [] ∨ added s t [.write s.addr w .ok] ∨ added s t [.write s.addr w .ok, d])

/-- The frame of a class R command has no parameter bytes (R85). -/
theorem frame_read (g : Cfg) (c : RCmd) : frame g (.r c) [] = readFrame g c := rfl

theorem readCommand_trace (c : RCmd) (s : State) : s.AddsTransaction c (readCommand c s) := by
  obtain ⟨-, e⟩ | ⟨-, -, e⟩ | ⟨-, -, ⟨q, e⟩ | ⟨q, e⟩ | ⟨q, q', e⟩ | ⟨q, q', q'', e⟩ | ⟨q, q', q'', st, r, hr, e⟩⟩ :=
    readCommand_cases c s <;> rw [e]
  · exact ⟨fun _ => .inl (by simp [added]), absurd rfl⟩
  · exact ⟨fun _ => .inl (by simp [added]), absurd rfl⟩
  · exact ⟨nofun, fun _ => .inl (by simp [added])⟩
  · exact ⟨fun _ => .inr (.inl (by simp [added, frame_read])), absurd rfl⟩
  · exact ⟨nofun, fun _ => .inr (.inl (by simp [added, frame_read]))⟩
  · exact ⟨nofun, fun _ => .inr (.inr (by simp [added, frame_read]))⟩
  · exact ⟨fun _ => .inr (.inr ⟨st, r, hr, by simp [added, frame_read]⟩), absurd (readReport_seq ..)⟩

/-- Settles O34: a host operation latches its target, which adds no event, and runs one of the two builders. -/
theorem commandTracesHaveTheirShapes : Obligations.CommandTracesHaveTheirShapes := by
  refine ⟨fun i s t a bytes hf h => ?_, fun i s t c a hr h => ?_⟩
  · obtain ⟨c, ps, legal, rfl, -, runs⟩ := exec_of_hostFrame hf
    cases (runs s).symm.trans h
    exact writeCommand_trace c ps legal (s.target a)
  · cases (exec_of_hostRead hr s).symm.trans h
    exact readCommand_trace c (s.target a)

end

end Sys2Proof.Machine

/-! SUPPORT. The statements of 41_init_directory_exclusion.md: the operations without a bus event (R130, R133, R135, R136). -/

namespace Sys2Proof.Machine

section

open Sys2Proof.Claims

/-! The two ends of these operations. -/

/-- An end with neither an output value nor a list writes `SEQ` and the response only (R83, R255). -/
theorem State.completePlain_eq (s : State) (st : Status) :
    s.completePlain st = { s with seq := .idle, job := .none, resp := some (plainResponse st) } := by
  cases st <;> rfl

/-- An operation that answers a snapshot has written nothing else, with `INIT` or without (R83, R251). -/
theorem snapshot_eq (s : State) (l : List Addr) :
    (if s.init = false then s.completePlain .notReady else s.complete .ok 0 l) = { s with
      seq := .idle
      job := .none
      resp := some (if s.init = true then listResponse l else plainResponse .notReady) } := by
  by_cases hi : s.init = false
  · rw [if_pos hi, if_neg (Bool.eq_false_iff.1 hi), State.completePlain_eq]
  · rw [if_neg hi, if_pos (Bool.eq_true_of_not_eq_false hi)]
    rfl

/-! `SET_EXCLUSIONS`. -/

/-- The list of a well-formed `SET_EXCLUSIONS` has no more than `COUNT` entries, so it is stored whole (R133). -/
theorem take_of_listFits {count : Byte} {list : List Addr} (h : listFits count list = true) :
    list.take count.toNat = list := by
  rw [listFits, beq_iff_eq] at h
  exact List.take_of_length_le (h.le.trans (Nat.min_le_left _ _))

theorem exec_setExclusions_notReady {count : Byte} {list : List Addr} {s : State} (hi : s.init = false) :
    exec (.setExclusions count list) s = .next (s.completePlain .notReady) := congrArg _ (if_pos hi)

theorem exec_setExclusions_ok {count : Byte} {list : List Addr} {s : State} (hi : s.init = true) (hn : count.toNat ≤ 127) :
    exec (.setExclusions count list) s = .next (({ s with exc := list.take count.toNat }).completePlain .ok) := by
  simp only [exec, execSetExclusions, Config.listCap, hi, hn.not_gt, Bool.true_eq_false, if_false]

/-! The statements. -/

/-- Settles O21: `INIT` is `initAfter`, and the end of the operation writes the rest. -/
theorem initNeedsAllFourPorts : Obligations.InitNeedsAllFourPorts := fun caps s =>
  (exec_init caps s).trans (congrArg _ (State.completePlain_eq _ .ok))

/-- Settles O22: by the outcome of the test of `INIT` and of that of `COUNT`. -/
theorem setExclusionsReplacesTheListWhole : Obligations.SetExclusionsReplacesTheListWhole := by
  intro count list s hw
  refine ⟨fun hi hn => ?_, fun hi hn => ?_, fun hi => ?_⟩
  · rw [exec_setExclusions_ok hi hn, take_of_listFits hw, State.completePlain_eq]
  · rw [exec_setExclusions_badArg hi hn, State.completePlain_eq]
  · rw [exec_setExclusions_notReady hi, State.completePlain_eq]

/-- Settles O23: the snapshot is `DIR`. -/
theorem getDirectoryAnswersACopy : Obligations.GetDirectoryAnswersACopy := fun s => congrArg _ (snapshot_eq s s.dir)

/-- Settles O24: the snapshot is `EXC`. -/
theorem getExclusionsAnswersACopy : Obligations.GetExclusionsAnswersACopy := fun s => congrArg _ (snapshot_eq s s.exc)

end

end Sys2Proof.Machine

/-! SUPPORT. The statements of 42_scanner.md: what a `SCAN` does in an environment that completes every call (R150, R151, R154 (f)),
what it guarantees in every environment (R154 (a), (b), (d), (e)), and what the operations that scan leave unchanged. -/

namespace Sys2Proof.Machine

section

open Sys2Proof.Claims

/-! `SCAN` as its scan body and the response. -/

/-- The scan body of a `SCAN` is followed by the response: no `ALLOCATE` is in progress (R150). -/
theorem afterScan_of_scan {t : State} (h : t.job = .scan) : afterScan t = respondDirectory t := by
  simp only [afterScan, h]

theorem exec_scan_ready {s : State} (hi : s.init = true) :
    exec .scan s = .next ((scanBody (s.withJob .scan)).finish fun _ t => afterScan t) := by
  simp only [exec, execScan, hi, Bool.true_eq_false, if_false]

/-- A `SCAN` whose scan body is done answers the directory. -/
theorem exec_scan_of_done {s u : State} (hi : s.init = true) (hb : scanBody (s.withJob .scan) = .done () u) :
    exec .scan s = .next (respondDirectory u) := by
  have hk := scanBody_keeps (s := s.withJob .scan) hi (.inl rfl)
  rw [hb, Run.sat_done] at hk
  rw [exec_scan_ready hi, hb, Run.finish_done, afterScan_of_scan hk.job]

/-- Everything a `SCAN` with `INIT` set can do: it waits where its scan body waits, or its scan body is done and it answers the
directory. -/
theorem exec_scan_cases {s t : State} (hi : s.init = true) (h : exec .scan s = .next t) :
    (scanBody (s.withJob .scan) = .waiting t ∧ t.seq ≠ .idle) ∨
      ∃ u, scanBody (s.withJob .scan) = .done () u ∧ (s.withJob .scan).ScanDone u ∧ t = respondDirectory u := by
  have hk := scanBody_keeps (s := s.withJob .scan) hi (.inl rfl)
  cases hb : scanBody (s.withJob .scan) with
  | waiting u =>
    rw [hb] at hk
    rw [exec_scan_ready hi, hb] at h
    cases h
    exact .inl ⟨rfl, hk.busy⟩
  | done _ u =>
    rw [hb] at hk
    cases (exec_scan_of_done hi hb).symm.trans h
    exact .inr ⟨u, rfl, hk, rfl⟩

/-- A `SCAN` that is done has run its scan body to the end and has answered the directory. -/
theorem exec_scan_done {s t : State} (hi : s.init = true) (h : exec .scan s = .next t) (hq : t.seq = .idle) :
    ∃ u, scanBody (s.withJob .scan) = .done () u ∧ (s.withJob .scan).ScanDone u ∧ t = respondDirectory u :=
  (exec_scan_cases hi h).resolve_left fun k => k.2 hq

/-! Environments that complete every call. -/

/-- The scan body of a `SCAN` that begins in `s` ends in `u`, `f a` being the answer to the probe of `a`. -/
structure State.ScannedTo (s u : State) (f : Addr → BusStatus) : Prop where
  answers : exec .scan s = .next (respondDirectory u)
  scans : s.Scans u
  completes : u.env.Completes
  dir : u.dir = scanDirectory s.exc f
  trace : u.trace = s.trace ++ scanEvents s.cfg.probeByte s.exc f

/-- The probes have some answers, and these are the answers in the bus-write port's queue, if it has one for each probe (R65). -/
theorem exec_scan_completes {s : State} (hi : s.init = true) (hc : s.env.Completes) :
    ∃ f u, s.ScannedTo u f ∧ ∀ (g : Addr → BusStatus) w, s.env.writes = ((probed s.exc).map fun a => .done (g a)) ++ w →
      (∀ a ∈ probed s.exc, f a = g a) ∧ u.env.writes = w := by
  obtain ⟨f, e', tx, ha, hg, hb⟩ := scanBody_completes (s := s.withJob .scan) hi hc
  have hs := (scan_scanBody _).after (scans_withJob s .scan)
  rw [hb] at hs
  exact ⟨f, _, ⟨exec_scan_of_done hi hb, hs, ha.completes, rfl, rfl⟩, hg⟩

/-- The directory depends on the answers to the probes only. -/
theorem scanDirectory_congr {exc : List Addr} {f g : Addr → BusStatus} (h : ∀ a ∈ probed exc, f a = g a) :
    scanDirectory exc f = scanDirectory exc g := List.filter_congr fun a ha => by rw [h a ha]

/-- The bus events of a scan body depend on the answers to the probes only. -/
theorem scanEvents_congr {b : Byte} {exc : List Addr} {f g : Addr → BusStatus} (h : ∀ a ∈ probed exc, f a = g a) :
    scanEvents b exc f = scanEvents b exc g :=
  congrArg (List.cons BusEvent.reset) (List.flatMap_congr fun a ha => congrArg (probeEvents b a) (h a ha))

/-- A `SCAN` takes the answers of its probes from the bus-write port's queue, in ascending order of address (R65, R151). -/
theorem exec_scan_answered {s : State} {f : Addr → BusStatus} {rest : List (Completion BusStatus)} (hi : s.init = true)
    (hc : s.env.Completes) (hw : s.env.writes = ((probed s.exc).map fun a => .done (f a)) ++ rest) :
    ∃ u, s.ScannedTo u f ∧ u.env.writes = rest := by
  obtain ⟨g, u, hu, hq⟩ := exec_scan_completes hi hc
  obtain ⟨hg, hr⟩ := hq f rest hw
  exact ⟨u, ⟨hu.answers, hu.scans, hu.completes, hu.dir.trans (scanDirectory_congr hg), by rw [hu.trace, scanEvents_congr hg]⟩, hr⟩

/-- Settles O38: without `INIT` the operation is refused; with it the answers are those `exec_scan_completes` gives. -/
theorem scanListsTheAddressesThatAnswer : Obligations.ScanListsTheAddressesThatAnswer := by
  refine fun s => ⟨fun hi => ?_, fun hi hc => ?_⟩
  · rw [exec_scan_notReady hi, State.completePlain_eq]
  · obtain ⟨f, u, hu, -⟩ := exec_scan_completes hi hc
    have hd := doneWith_respondDirectory hu.scans
    rw [hu.dir] at hd
    exact ⟨f, respondDirectory u, hu.answers, hu.dir, hu.trace, hd, hu.scans.addr⟩

/-- Settles O39: the scan body takes its answers from the queue, and the response is its directory. -/
theorem scanTakesItsAnswersInOrder : Obligations.ScanTakesItsAnswersInOrder := by
  intro s f rest hi hc hw
  obtain ⟨u, hu, hr⟩ := exec_scan_answered hi hc hw
  have hd := doneWith_respondDirectory hu.scans
  rw [hu.dir] at hd
  exact ⟨respondDirectory u, hu.answers, hu.dir, hr, hu.trace, hd.resp⟩

/-- Settles O40: the first scan leaves the exclusion list and the second scan's answers, and the directory is that of the answers. -/
theorem scanningAlikeTwiceGivesOneDirectory : Obligations.ScanningAlikeTwiceGivesOneDirectory := by
  intro s f rest hi hc hw
  obtain ⟨u, hu, hr⟩ := exec_scan_answered hi hc hw
  have hx : (respondDirectory u).exc = s.exc := hu.scans.exc
  obtain ⟨v, hv, -⟩ := exec_scan_answered (s := respondDirectory u) (f := f) (rest := rest) (hu.scans.init.trans hi) hu.completes
    (by rw [hx]; exact hr)
  have hd : v.dir = u.dir := by rw [hv.dir, hu.dir, hx]
  exact ⟨respondDirectory u, respondDirectory v, hu.answers, hv.answers, hd, congrArg (fun l => some (listResponse l)) hd⟩

/-! Every environment. -/

/-- Settles O41: a scan body that is done leaves such a directory. -/
theorem scannedDirectoryIsAscendingAndAllowed : Obligations.ScannedDirectoryIsAscendingAndAllowed := by
  intro s t hi h hq
  obtain ⟨u, -, hk, rfl⟩ := exec_scan_done hi h hq
  have hx : u.exc = s.exc := hk.same.exc
  exact ⟨hk.dirOk, fun a ha => hx ▸ hk.dirAllowed a ha, rfl⟩

/-- What follows a scan body in a `SCAN` adds no event, so that the events of a `SCAN` are those of its scan body (R62, R151). -/
theorem exec_scan_probes {s t : State} (hi : s.init = true) (h : exec .scan s = .next t) : (s.withJob .scan).Probes t := by
  have hp := scanBody_probes (s := s.withJob .scan) hi
  obtain ⟨hb, -⟩ | ⟨u, hb, -, rfl⟩ := exec_scan_cases hi h <;> rw [hb] at hp
  · exact hp
  · exact hp.trans (.silent rfl rfl rfl rfl)

/-- Settles O42: without `INIT` there is no event, and with it the events are those of a scan body. -/
theorem scanTouchesNoExcludedAddress : Obligations.ScanTouchesNoExcludedAddress := by
  intro s t h
  cases hi : s.init with
  | false =>
    cases (exec_scan_notReady hi).symm.trans h
    exact ⟨[], (List.append_nil _).symm, nofun⟩
  | true => exact (exec_scan_probes hi h).trace

/-- Settles O45: a scan body does not read the directory, and where it is done it has replaced it. -/
theorem oldDirectoryHasNoInfluence : Obligations.OldDirectoryHasNoInfluence := by
  intro s t d hi h hq
  obtain ⟨u, hb, hk, rfl⟩ := exec_scan_done hi h hq
  have hu : u.over u.dir s.addr .scan = u := by
    have ha : u.addr = s.addr := hk.same.addr
    have hj : u.job = .scan := hk.job
    rw [← ha, ← hj]
    rfl
  have hd : scanBody (({ s with dir := d } : State).withJob .scan) = .done () (u.over u.dir s.addr .scan) :=
    scanBody_over (s := s.withJob .scan) d s.addr .scan hb
  rw [hu] at hd
  exact exec_scan_of_done hi hd

/-! What the operations that scan leave unchanged. -/

/-- What `SCAN`, `ALLOCATE` and the probe leave unchanged. -/
structure State.SameRest (s t : State) : Prop where
  init : t.init = s.init
  exc : t.exc = s.exc
  cfg : t.cfg = s.cfg
  host : t.host = s.host
  past : t.past = s.past
  rxbuf : t.rxbuf = s.rxbuf
  reads : t.env.reads = s.env.reads
  delays : t.env.delays = s.env.delays
  seed : t.env.seed = s.env.seed

theorem State.Scans.sameRest {s t : State} (h : s.Scans t) : s.SameRest t :=
  ⟨h.init, h.exc, h.cfg, h.host, h.past, h.rxbuf, h.reads, h.delays, h.seed⟩

/-- Latching another target first makes no difference to the rest. -/
theorem State.SameRest.ofTarget {s t : State} {d : Addr} (h : (s.target d).SameRest t) : s.SameRest t :=
  ⟨h.init, h.exc, h.cfg, h.host, h.past, h.rxbuf, h.reads, h.delays, h.seed⟩

theorem State.SameRest.complete {s u : State} (h : s.SameRest u) (st : Status) (v : Val) (l : List Addr) :
    s.SameRest (u.complete st v l) :=
  ⟨h.init, h.exc, h.cfg, h.host, h.past, h.rxbuf, h.reads, h.delays, h.seed⟩

/-- Where an operation waits and where it has answered, what its parts leave unchanged is unchanged. -/
theorem State.Ends.sameRest {s t : State} {R : State → Prop} {A : Status → Prop} (h : State.Ends R A t)
    (hr : ∀ u, R u → s.SameRest u) : s.SameRest t := by
  obtain h | ⟨u, st, v, l, hu, -, rfl⟩ := h
  · exact hr t h
  · exact (hr u hu).complete st v l

/-- The response leaves the target address too. -/
theorem State.Ends.addr {s t : State} {A : Status → Prop} (h : State.Ends s.Scans A t) : t.addr = s.addr := by
  obtain h | ⟨u, st, v, l, hu, -, rfl⟩ := h
  · exact h.addr
  · exact hu.addr

/-- Settles O52: each part of these operations uses the bus-write and the bus-reset port only, and an `ALLOCATE` latches its target
before. -/
theorem scansLeaveTheRestUnchanged : Obligations.ScansLeaveTheRestUnchanged := by
  intro i s t hi h
  have key : s.SameRest t ∧ ((∀ d, i ≠ .allocate d) → t.addr = s.addr) := by
    obtain rfl | rfl | ⟨d, rfl⟩ := hi
    · have he := ends_execScan h
      exact ⟨he.sameRest fun _ => State.Scans.sameRest, fun _ => he.addr⟩
    · have he := ends_execProbe h
      exact ⟨he.sameRest fun _ => State.Scans.sameRest, fun _ => he.addr⟩
    · have he := ends_execAllocate h
      refine ⟨he.sameRest fun _ k => ?_, fun hn => absurd rfl (hn d)⟩
      exact k.elim (fun k => k.sameRest) fun k => k.sameRest.ofTarget
  obtain ⟨k, ha⟩ := key
  exact ⟨k.init, k.exc, k.cfg, k.host, k.past, k.rxbuf, k.reads, k.delays, k.seed, ha⟩

end

end Sys2Proof.Machine

/-! SUPPORT. The statements of 43_allocator.md: the free-address search (R172), what an `ALLOCATE` does in an environment that
completes every call (R170, R171, R173), and the writes it makes in every environment (R174). -/

namespace Sys2Proof.Machine

section

open Sys2Proof.Claims

/-! The free-address search. -/

/-- The first entry of a strictly ascending list that passes a test is the lowest one that does. -/
theorem find?_eq_some_of_ascending {l : List Addr} (hl : Ascending l) (p : Addr → Bool) (a : Addr) :
    l.find? p = some a ↔ a ∈ l ∧ p a = true ∧ ∀ b ∈ l, b.toNat < a.toNat → p b = false := by
  induction l with
  | nil => simp
  | cons x xs ih =>
    obtain ⟨hx, hxs⟩ := List.pairwise_cons.1 hl
    cases hp : p x with
    | true =>
      rw [List.find?_cons_of_pos hp]
      constructor
      · rintro ⟨⟩
        refine ⟨List.mem_cons_self, hp, fun b hb hlt => ?_⟩
        obtain rfl | hb := List.mem_cons.1 hb
        · exact absurd hlt (Nat.lt_irrefl _)
        · exact absurd hlt (hx b hb).not_gt
      · rintro ⟨hm, -, hlow⟩
        obtain rfl | hm := List.mem_cons.1 hm
        · rfl
        · exact absurd hp (Bool.eq_false_iff.1 (hlow x List.mem_cons_self (hx a hm)))
    | false =>
      have hne : p a = true → a ≠ x := fun ha e => Bool.eq_false_iff.1 hp (e ▸ ha)
      rw [List.find?_cons_of_neg (Bool.eq_false_iff.1 hp), ih hxs]
      simp only [List.mem_cons, forall_eq_or_imp]
      constructor
      · rintro ⟨hm, ha, hlow⟩
        exact ⟨.inr hm, ha, fun _ => hp, hlow⟩
      · rintro ⟨hm, ha, -, hlow⟩
        exact ⟨hm.resolve_left (hne ha), ha, hlow⟩

theorem ascending_candidates (lo : Addr) : Ascending (candidates lo) := by
  rw [candidates_eq]
  exact ascending_lastCandidates (Nat.sub_le _ _)

/-- The allocator's test of a candidate (R172). -/
def State.isFree (s : State) (a : Addr) : Bool := !member a s.dir && !member a s.exc && !(a == s.addr)

theorem freeAddress_eq (s : State) : freeAddress s = (candidates s.cfg.allocLo).find? s.isFree := rfl

theorem State.isFree_eq_true {s : State} {a : Addr} : s.isFree a = true ↔ a ∉ s.dir ∧ a ∉ s.exc ∧ a ≠ s.addr := by
  simp [State.isFree, member, and_assoc]

theorem State.isFree_eq_false {s : State} {a : Addr} : s.isFree a = false ↔ a ∈ s.dir ∨ a ∈ s.exc ∨ a = s.addr := by
  rw [← Bool.not_eq_true, State.isFree_eq_true]
  tauto

theorem freeAddress_eq_some {s : State} {a : Addr} :
    freeAddress s = some a ↔ LowestFree s.cfg.allocLo s.dir s.exc s.addr a := by
  rw [freeAddress_eq, find?_eq_some_of_ascending (ascending_candidates _)]
  simp only [mem_candidates, State.isFree_eq_true, State.isFree_eq_false, LowestFree, and_assoc]

theorem freeAddress_eq_none {s : State} : freeAddress s = none ↔ NoneFree s.cfg.allocLo s.dir s.exc s.addr := by
  rw [freeAddress_eq, List.find?_eq_none]
  simp only [mem_candidates, Bool.not_eq_true, State.isFree_eq_false, NoneFree]

/-- Settles O47: the search finds the first of the ascending candidates that is free. -/
theorem freeAddressIsTheLowestOne : Obligations.FreeAddressIsTheLowestOne :=
  fun _ => ⟨fun _ => freeAddress_eq_some, freeAddress_eq_none⟩

/-! What follows the first scan body of an `ALLOCATE`. -/

theorem exec_allocate_ready {d : Addr} {s : State} (hi : s.init = true) :
    exec (.allocate d) s = .next ((scanBody ((s.target d).withJob (.allocate false))).finish fun _ t => afterScan t) := by
  simp only [exec, execAllocate, hi, Bool.true_eq_false, if_false]

theorem exec_allocate_of_done {d : Addr} {s u : State} (hi : s.init = true)
    (hb : scanBody ((s.target d).withJob (.allocate false)) = .done () u) : exec (.allocate d) s = .next (afterScan u) := by
  rw [exec_allocate_ready hi, hb, Run.finish_done]

/-- A default address that the scan did not find: there is no conflict (R171). -/
theorem afterScan_of_absent {s : State} (hj : s.job = .allocate false) (ha : s.addr ∉ s.dir) :
    afterScan s = respondDirectory s := by
  have hm : ¬ member s.addr s.dir = true := by rwa [member_iff]
  simp only [afterScan, hj, if_neg hm]

/-- A default address that the scan found, and no free one: the directory is answered as it is (R170 (4), R176 (c)). -/
theorem afterScan_of_full {s : State} (hj : s.job = .allocate false) (ha : s.addr ∈ s.dir) (hf : freeAddress s = none) :
    afterScan s = respondDirectory ((s.enter .aSearch).searched 128) := by
  simp only [afterScan, hj, if_pos ((member_iff _ _).2 ha), searchPhase, hf]

/-- A default address that the scan found, and a free one: the device is moved there (R170 (5)). -/
theorem afterScan_of_free {s : State} {a : Addr} (hj : s.job = .allocate false) (ha : s.addr ∈ s.dir)
    (hf : freeAddress s = some a) : afterScan s = reassign a ((s.enter .aSearch).searched (a.setWidth 8)) := by
  simp only [afterScan, hj, if_pos ((member_iff _ _).2 ha), searchPhase, hf]

/-- Settles O49: the scan body does the same in an `ALLOCATE` as in a `SCAN`, and no conflict follows it. -/
theorem allocateOfAnAbsentAddressIsAScan : Obligations.AllocateOfAnAbsentAddressIsAScan := by
  intro d s t h hq hd hi
  obtain ⟨u, hb, -, rfl⟩ := exec_scan_done hi h hq
  have hb' : scanBody ((s.target d).withJob (.allocate false)) = .done () (u.over u.dir d (.allocate false)) :=
    scanBody_over (s := s.withJob .scan) s.dir d (.allocate false) hb
  have ha : (u.over u.dir d (.allocate false)).addr ∉ (u.over u.dir d (.allocate false)).dir := hd
  rw [exec_allocate_of_done hi hb', afterScan_of_absent rfl ha]
  rfl

/-! The reassignment. -/

/-- The reassignment frame, byte for byte (R85, R208). -/
theorem reassignFrame_eq (g : Cfg) (a : Addr) :
    reassignFrame g a = [0x5A, 4, g.cmdId.setSlaveAddress, BitVec.ofNat 8 a.toNat] := by
  rw [← addrByte_eq]
  rfl

/-- A reassignment whose write is answered goes on with a scan body, whatever the answer is (R173). -/
theorem reassign_answered {a : Addr} {s : State} {st : BusStatus} {q : List (Completion BusStatus)} (hi : s.init = true)
    (ht : s.writeTurn s.addr (reassignFrame s.cfg a) = (some st, q)) :
    reassign a s = (scanBody (s.written (.allocate true) (reassignFrame s.cfg a) q st)).finish fun _ t => respondDirectory t := by
  rw [reassign, writePhase_answered (s := s.withJob (.allocate true)) hi ht]
  rfl

/-- What a reassignment comes to when the environment completes every call: its write gets some answer `st`, a scan with answers
`f` follows, and its directory is answered (R170 (5) to (7)). -/
theorem reassign_rescans (a : Addr) {s : State} (hi : s.init = true) (hc : s.env.Completes) :
    ∃ (f : Addr → BusStatus) (st : BusStatus),
      DoneWith s (reassign a s) (listResponse (reassign a s).dir) ∧ (reassign a s).addr = s.addr ∧
      (reassign a s).dir = scanDirectory s.exc f ∧
      (reassign a s).trace = s.trace ++ [.write s.addr [0x5A, 4, s.cfg.cmdId.setSlaveAddress, BitVec.ofNat 8 a.toNat] st] ++
        scanEvents s.cfg.probeByte s.exc f := by
  obtain ⟨st, q, ht, hq, -⟩ := State.writeTurn_completes hc s.addr (reassignFrame s.cfg a)
  obtain ⟨f, e', tx, -, -, hb⟩ :=
    scanBody_completes (s := s.written (.allocate true) (reassignFrame s.cfg a) q st) hi (hc.ofWrites hq)
  refine ⟨f, st, ?_⟩
  rw [reassign_answered hi ht, hb, Run.finish_done, ← reassignFrame_eq]
  exact ⟨⟨rfl, rfl, rfl, rfl, rfl, rfl, rfl, rfl⟩, rfl, rfl, rfl⟩

/-- The `SET_SLAVE_ADDRESS` frame in an `ALLOCATE` is its reassignment (R173). -/
theorem exec_frameSetSlaveAddress_inside {new : Addr} {b : Bool} {s : State} (hi : s.init = true) (hj : s.job = .allocate b) :
    exec (.frameSetSlaveAddress new) s = .next (reassign new s) := by
  simp only [exec, execFrameSetSlaveAddress, hj, hi, Bool.true_eq_false, if_false]

/-- Settles O51: the frame is the reassignment, which comes to the write and a scan. -/
theorem reassignmentFrameIsFollowedByAScan : Obligations.ReassignmentFrameIsFollowedByAScan := by
  intro new b s hi hc hj
  obtain ⟨f, st, hdone, haddr, hdir, htrace⟩ := reassign_rescans new hi hc
  exact ⟨f, st, reassign new s, exec_frameSetSlaveAddress_inside hi hj, hdir, htrace, hdone, haddr⟩

/-! `ALLOCATE` in an environment that completes every call. -/

/-- Without a conflict, or without a free address, an `ALLOCATE` answers the directory of its first scan body and writes no frame
(R171, R176 (c)). -/
theorem afterScan_of_unmoved {s : State} (hj : s.job = .allocate false)
    (h : s.addr ∉ s.dir ∨ NoneFree s.cfg.allocLo s.dir s.exc s.addr) :
    ∃ c, afterScan s = respondDirectory (s.searched c) := by
  by_cases ha : s.addr ∈ s.dir
  · exact ⟨128, afterScan_of_full hj ha (freeAddress_eq_none.2 (h.resolve_left (absurd ha)))⟩
  · exact ⟨s.cand, afterScan_of_absent hj ha⟩

/-- The first scan body of an `ALLOCATE` of `d` that begins in `s` ends in `u`, `f a` being the answer to the probe of `a`. -/
structure State.AllocateScannedTo (s : State) (d : Addr) (u : State) (f : Addr → BusStatus) : Prop where
  answers : exec (.allocate d) s = .next (afterScan u)
  scans : (s.target d).Scans u
  completes : u.env.Completes
  job : u.job = .allocate false
  dir : u.dir = scanDirectory s.exc f
  trace : u.trace = s.trace ++ scanEvents s.cfg.probeByte s.exc f

theorem exec_allocate_completes (d : Addr) {s : State} (hi : s.init = true) (hc : s.env.Completes) :
    ∃ f u, s.AllocateScannedTo d u f := by
  obtain ⟨f, e', tx, ha, -, hb⟩ := scanBody_completes (s := (s.target d).withJob (.allocate false)) hi hc
  have hs := (scan_scanBody _).after (scans_withJob (s.target d) (.allocate false))
  rw [hb] at hs
  exact ⟨f, _, exec_allocate_of_done hi hb, hs, ha.completes, rfl, rfl, rfl⟩

/-- Latching another target first makes no difference to what a response leaves unchanged. -/
theorem doneWith_of_target {s t : State} {d : Addr} {r : Response} (h : DoneWith (s.target d) t r) : DoneWith s t r :=
  ⟨h.cfg, h.host, h.init, h.exc, h.past, h.rxbuf, h.idle, h.resp⟩

/-- Settles O48: what follows the first scan body ends with the directory; it is nothing else, or the reassignment to the address that
the search gives. -/
theorem allocateMovesTheDefaultDevice : Obligations.AllocateMovesTheDefaultDevice := by
  refine fun d s => ⟨fun hi => ?_, fun hi hc => ?_⟩
  · rw [exec_allocate_notReady hi, State.completePlain_eq]
  obtain ⟨f, u, hu⟩ := exec_allocate_completes d hi hc
  have hiu : u.init = true := hu.scans.init.trans hi
  have haddr : u.addr = d := hu.scans.addr
  have hexc : u.exc = s.exc := hu.scans.exc
  have hcfg : u.cfg = s.cfg := hu.scans.cfg
  obtain ⟨t, ht, hr, -⟩ := afterScan_completes hiu hu.completes
  have hdone : DoneWith s (afterScan u) (listResponse (afterScan u).dir) := by
    rw [hr]
    exact doneWith_of_target (doneWith_respondDirectory (hu.scans.trans ht))
  have hlatched : (afterScan u).addr = d := by
    rw [hr]
    exact (hu.scans.trans ht).addr
  refine ⟨f, afterScan u, hu.answers, hdone, hlatched, fun h => ?_, fun a hd ha => ?_⟩
  · obtain ⟨c, hu'⟩ := afterScan_of_unmoved hu.job (by rwa [haddr, hexc, hcfg, hu.dir])
    rw [hu']
    exact ⟨hu.dir, hu.trace⟩
  · have hfree : freeAddress u = some a := freeAddress_eq_some.2 (by rwa [haddr, hexc, hcfg, hu.dir])
    rw [afterScan_of_free hu.job (by rwa [haddr, hu.dir]) hfree]
    obtain ⟨g, st, -, -, hdir, htrace⟩ :=
      reassign_rescans a (s := (u.enter .aSearch).searched (a.setWidth 8)) hiu hu.completes
    exact ⟨g, st, hdir.trans (by simp [hexc]), htrace.trans (by simp [hu.trace, haddr, hcfg, hexc])⟩

/-! The writes of an `ALLOCATE`, whatever the environment does. -/

/-- `t` comes after `s` with at most `n` writes of a length other than 1, every write being a probe or a `SET_SLAVE_ADDRESS` frame
written to `d`. -/
structure State.WritesFrames (d : Addr) (n : Nat) (s t : State) : Prop where
  cfg : t.cfg = s.cfg
  trace : ∃ evs, added s t evs ∧ (evs.filter frameWrite).length ≤ n ∧
    ∀ a b st, .write a b st ∈ evs → b = [s.cfg.probeByte] ∨
      (a = d ∧ ∃ new, b = [0x5A, 4, s.cfg.cmdId.setSlaveAddress, BitVec.ofNat 8 new])

section WritesFrames
variable {d : Addr} {m n : Nat} {s t u : State}

theorem State.WritesFrames.silent (hg : t.cfg = s.cfg) (ht : t.trace = s.trace) : s.WritesFrames d n t :=
  ⟨hg, [], by rw [added, ht, List.append_nil], Nat.zero_le n, nofun⟩

theorem State.WritesFrames.trans (h : s.WritesFrames d m t) (k : t.WritesFrames d n u) : s.WritesFrames d (m + n) u := by
  obtain ⟨hg, evs, ht, hl, hw⟩ := h
  obtain ⟨kg, fvs, kt, kl, kw⟩ := k
  refine ⟨kg.trans hg, evs ++ fvs, ?_, ?_, fun a b st hm => ?_⟩
  · rw [added, kt, ht, List.append_assoc]
  · rw [List.filter_append, List.length_append]
    exact Nat.add_le_add hl kl
  · rw [hg] at kw
    exact (List.mem_append.1 hm).elim (hw a b st) (kw a b st)

/-- What only probes writes no frame (R151 (5)). -/
theorem State.Probes.writesFrames (h : s.Probes t) : s.WritesFrames d n t := by
  obtain ⟨evs, ht, hp⟩ := h.trace
  refine ⟨h.cfg, evs, ht, ?_, fun a b st hm => ?_⟩
  · suffices hn : evs.filter frameWrite = [] by rw [hn]; exact Nat.zero_le n
    refine List.filter_eq_nil_iff.2 fun e he => ?_
    obtain rfl | ⟨a, st, rfl, -, -⟩ := hp e he
    · simp [frameWrite]
    · simp [frameWrite, probeBytes]
  · obtain k | ⟨a', st', k, -, -⟩ := hp _ hm
    · cases k
    · cases k
      exact .inl rfl

/-- The write of a reassignment is one frame, written to the target (R173). -/
theorem writesFrames_written (s : State) (a : Addr) (j : Job) (q : List (Completion BusStatus)) (st : BusStatus) :
    s.WritesFrames s.addr 1 (s.written j (reassignFrame s.cfg a) q st) := by
  refine ⟨rfl, [.write s.addr (reassignFrame s.cfg a) st], rfl, List.length_filter_le _ _, fun a' b st' hm => ?_⟩
  cases List.mem_singleton.1 hm
  exact .inr ⟨rfl, _, reassignFrame_eq s.cfg a⟩

end WritesFrames

/-- A reassignment waits in its write, or it has written its frame and a scan body follows (R170 (5), (6)). -/
theorem reassign_writesFrames (a : Addr) {s : State} (hi : s.init = true) : s.WritesFrames s.addr 1 (reassign a s) := by
  rw [reassign, Run.finish_bind]
  refine Run.Sat.finish (writePhase_sat s.addr (reassignFrame s.cfg a) (s := s.withJob (.allocate true)) hi) ?_ ?_
  · rintro t ⟨q, rfl⟩
    exact .silent rfl rfl
  · rintro - t ⟨st, q, -, rfl⟩
    have hw := writesFrames_written s a (.allocate true) q st
    refine Run.Sat.finish (scanBody_probes (s := s.written (.allocate true) (reassignFrame s.cfg a) q st) hi) ?_ ?_
    · exact fun t ht => hw.trans (n := 0) ht.writesFrames
    · exact fun _ t ht => (hw.trans (n := 0) ht.writesFrames).trans (n := 0) (u := respondDirectory t) (.silent rfl rfl)

/-- What follows the first scan body of an `ALLOCATE` writes a frame only where it reassigns (R174). -/
theorem afterScan_writesFrames {s : State} (hi : s.init = true) (hj : s.job = .allocate false) :
    s.WritesFrames s.addr 1 (afterScan s) := by
  by_cases ha : s.addr ∈ s.dir
  · cases hf : freeAddress s with
    | none =>
      rw [afterScan_of_full hj ha hf]
      exact .silent rfl rfl
    | some a =>
      rw [afterScan_of_free hj ha hf]
      have hs : s.WritesFrames s.addr 0 ((s.enter .aSearch).searched (a.setWidth 8)) := .silent rfl rfl
      exact hs.trans (reassign_writesFrames a (s := (s.enter .aSearch).searched (a.setWidth 8)) hi)
  · rw [afterScan_of_absent hj ha]
    exact .silent rfl rfl

theorem Run.Sat.and {α : Type} {x : Run α} {W W' : State → Prop} {Q Q' : α → State → Prop} (h : x.Sat W Q)
    (k : x.Sat W' Q') : x.Sat (fun t => W t ∧ W' t) (fun a t => Q a t ∧ Q' a t) := by
  cases x with
  | done a t => exact ⟨h, k⟩
  | waiting t => exact ⟨h, k⟩

/-- An `ALLOCATE` writes no frame in its first scan body, and at most one in what follows it (R174). -/
theorem exec_allocate_writesFrames {d : Addr} {s t : State} (h : exec (.allocate d) s = .next t) : s.WritesFrames d 1 t := by
  cases hi : s.init with
  | false =>
    cases (exec_allocate_notReady hi).symm.trans h
    exact .silent rfl rfl
  | true =>
    cases (exec_allocate_ready hi).symm.trans h
    have hs : s.WritesFrames d 0 ((s.target d).withJob (.allocate false)) := .silent rfl rfl
    have hp := scanBody_probes (s := (s.target d).withJob (.allocate false)) hi
    have hk := scanBody_keeps (s := (s.target d).withJob (.allocate false)) hi (.inr (.inl rfl))
    refine (hp.and hk).finish ?_ ?_
    · rintro u ⟨hu, -⟩
      exact hs.trans (n := 1) hu.writesFrames
    · rintro - u ⟨hu, hk⟩
      have hd : u.addr = d := hk.same.addr
      have ha := afterScan_writesFrames (hu.init.trans hi) hk.job
      rw [hd] at ha
      exact (hs.trans (n := 0) hu.writesFrames).trans ha

/-- Settles O50: it says what `exec_allocate_writesFrames` does of the events that are added. -/
theorem allocateWritesAtMostOneFrame : Obligations.AllocateWritesAtMostOneFrame :=
  fun _ _ _ h => (exec_allocate_writesFrames h).trace

end

end Sys2Proof.Machine

/-! SUPPORT. The statements of 44_command_catalog.md: what the commands of the two classes do, as host operations and as frames
(R192, R194, R221), what none of them writes (R196), and the responses that are not `OK` (R195). -/

namespace Sys2Proof.Machine

section

open Sys2Proof.Claims

/-! The commands of class W. -/

/-- The frame of a class W command runs its command outside an `ALLOCATE`, with the bytes of the table and the argument test of the
new address (R85, R96 (b), R192). -/
theorem exec_of_busFrame {g : Cfg} {i : Instr} {bytes : List Byte} (h : busFrame g i = some bytes) :
    ∃ c ps legal, frame g (.w c) ps = bytes ∧ (legal = true ↔ newAddressGiven i) ∧
      ∀ s, outsideScans s.job i → exec i s = .next (writeCommand c ps legal s) := by
  cases i
  case frameSetEnable en =>
    cases h
    rw [← enableByte_eq]
    exact ⟨_, _, _, rfl, iff_of_true rfl trivial, fun _ _ => rfl⟩
  case frameSetSlaveAddress new =>
    cases h
    rw [← addrByte_eq]
    exact ⟨_, _, _, rfl, by simp [newAddressLegal, newAddressGiven], fun _ => exec_frameSetSlaveAddress_outside⟩
  all_goals cases h <;> exact ⟨_, _, _, rfl, iff_of_true rfl trivial, fun _ _ => rfl⟩

/-- A class W command whose write is answered changes TXBUF, the trace and the answers used, and answers the status of the write
(R192, R113). -/
theorem writeCommand_answered_eq {c : WCmd} {ps bytes : List Byte} {s : State} {st : BusStatus}
    {q : List (Completion BusStatus)} (hf : frame s.cfg (.w c) ps = bytes) (hi : s.init = true)
    (hw : s.writeTurn s.addr bytes = (some st, q)) : writeCommand c ps true s = { s with
      txbuf := bytes
      seq := .idle
      job := .none
      env := { s.env with writes := q }
      trace := s.trace ++ [.write s.addr bytes st]
      resp := some (plainResponse (if st = .ok then .ok else .fail)) } := by
  subst hf
  rw [writeCommand_answered hi hw, State.completePlain_eq]
  cases st <;> rfl

/-- Settles O28: the operation latches its target and runs its command, by the outcome of the test of `INIT` and of the argument
test. -/
theorem writeCommandsSendOneFrame : Obligations.WriteCommandsSendOneFrame := by
  intro i s a bytes h
  obtain ⟨c, ps, legal, hf, hl, runs⟩ := exec_of_hostFrame h
  refine ⟨fun hi => ?_, fun hi hn => ?_, fun st q hi hn hw => ?_⟩
  · rw [runs, writeCommand_notReady (s := s.target a) hi, State.completePlain_eq]
    rfl
  · obtain rfl : legal = false := eq_false_of_ne_true (mt hl.1 hn)
    rw [runs, writeCommand_badArg (s := s.target a) hi, State.completePlain_eq]
    rfl
  · obtain rfl := hl.2 hn
    rw [runs, writeCommand_answered_eq (s := s.target a) hf hi hw]
    rfl

/-- Settles O30: outside an `ALLOCATE` the frame runs its command, which ends with the answer to its write. -/
theorem writeFramesSendThemselves : Obligations.WriteFramesSendThemselves := by
  intro i s bytes st q h ho hn hi hw
  obtain ⟨c, ps, legal, hf, hl, runs⟩ := exec_of_busFrame h
  obtain rfl := hl.2 hn
  rw [runs s ho, writeCommand_answered_eq hf hi hw]

/-! The commands of class R. -/

theorem toNat_measurementVal (distance amplitude : Half) (timestamp : Word) : (measurementVal distance amplitude timestamp).toNat =
    distance.toNat + 65536 * amplitude.toNat + 4294967296 * timestamp.toNat := by
  simp only [measurementVal, toNat_append_eq_add]
  omega

theorem toNat_versionVal (major minor revision : Byte) :
    (versionVal major minor revision).toNat = major.toNat + 256 * minor.toNat + 65536 * revision.toNat := by
  simp only [versionVal, BitVec.toNat_setWidth_of_le, Nat.reduceLeDiff, toNat_append_eq_add]
  omega

theorem toNat_limitsVal (min max : Half) : (limitsVal min max).toNat = min.toNat + 65536 * max.toNat := by
  simp only [limitsVal, BitVec.toNat_setWidth_of_le, Nat.reduceLeDiff, toNat_append_eq_add, Nat.reducePow]

/-- The output value as a number is the sum over the bytes of the payload (R83, R86, R90). -/
theorem toNat_decodeResponse (c : RCmd) (r : List Byte) : (decodeResponse c r).toNat = readVal c r := by
  cases c with
  | readMeasurement => simp only [decodeResponse, readVal, toNat_measurementVal, u16le, u32le, u8at, toNat_join16, toNat_join32]
  | readVersion => exact toNat_versionVal _ _ _
  | getSampleRate | getAmpThreshold => exact (BitVec.toNat_setWidth_of_le (by decide)).trans (toNat_join16 _ _)
  | getStatus | getSlaveAddress => exact BitVec.toNat_setWidth_of_le (by decide)
  | getDistanceLimits => simp only [decodeResponse, readVal, toNat_limitsVal, u16le, u8at, toNat_join16]

theorem decodeResponse_eq (c : RCmd) (r : List Byte) : decodeResponse c r = BitVec.ofNat 64 (readVal c r) := by
  rw [← toNat_decodeResponse, BitVec.ofNat_toNat, BitVec.setWidth_eq]

/-- What a class R command reports of its read (R91, R194, R195). -/
theorem readReport_eq (g : Cfg) (c : RCmd) (st : BusStatus) (r : List Byte) (t : State) :
    readReport g c st r t = { t with
      seq := .idle
      job := .none
      resp := some (
        if st = .ok ∧ r.length = g.rlen c ∧ g.respCheck.accepts c r = true then
          { status := .ok, val := BitVec.ofNat 64 (readVal c r), snap := [] }
        else plainResponse .fail) } := by
  unfold readReport
  split
  · rw [decodeResponse_eq]
    rfl
  · rfl

/-- The events of a class R command up to its delay follow the history (R65, R71). -/
theorem State.delayed_readTurn (s : State) (c : RCmd) (q : List (Completion BusStatus)) (q' : List (Completion Unit)) (a : Addr)
    (n : Nat) : (s.delayed c q q').readTurn a n =
      readTurnAfter s [.write s.addr (readFrame s.cfg c) .ok, .delay (s.cfg.delayMs.get c)] a n := by
  have hh : (s.delayed c q q').history =
      s.history ++ [.write s.addr (readFrame s.cfg c) .ok, .delay (s.cfg.delayMs.get c)] := by
    simp [State.history, frame_read]
  rw [State.readTurn, hh]
  rfl

/-- A class R command whose write is answered `ERR` ends there with `FAIL` (R111 (3), R194). -/
theorem readCommand_writeFails_eq {c : RCmd} {s : State} {q : List (Completion BusStatus)} (hi : s.init = true)
    (ha : s.addr ≠ 0) (hw : s.writeTurn s.addr (readFrame s.cfg c) = (some .err, q)) : readCommand c s = { s with
      txbuf := readFrame s.cfg c
      seq := .idle
      job := .none
      env := { s.env with writes := q }
      trace := s.trace ++ [.write s.addr (readFrame s.cfg c) .err]
      resp := some (plainResponse .fail) } := by
  rw [readCommand_writeFails hi ha hw, State.completePlain_eq]
  rfl

@[simp] theorem State.readBack_txbuf (s : State) (c : RCmd) (q : List (Completion BusStatus)) (q' : List (Completion Unit))
    (q'' : List (Completion (BusStatus × List Byte))) (st : BusStatus) (r : List Byte) :
    (s.readBack c q q' q'' st r).txbuf = readFrame s.cfg c := rfl

@[simp] theorem State.readBack_rxbuf (s : State) (c : RCmd) (q : List (Completion BusStatus)) (q' : List (Completion Unit))
    (q'' : List (Completion (BusStatus × List Byte))) (st : BusStatus) (r : List Byte) :
    (s.readBack c q q' q'' st r).rxbuf = r := rfl

@[simp] theorem State.readBack_env (s : State) (c : RCmd) (q : List (Completion BusStatus)) (q' : List (Completion Unit))
    (q'' : List (Completion (BusStatus × List Byte))) (st : BusStatus) (r : List Byte) :
    (s.readBack c q q' q'' st r).env = { s.env with writes := q, delays := q', reads := q'' } := rfl

/-- A class R command whose write is answered `OK`, and whose delay and read are answered, reports of its read (R194). -/
theorem readCommand_answered_eq {c : RCmd} {s : State} {q : List (Completion BusStatus)} {q' : List (Completion Unit)}
    {q'' : List (Completion (BusStatus × List Byte))} {st : BusStatus} {r : List Byte} (hi : s.init = true) (ha : s.addr ≠ 0)
    (hw : s.writeTurn s.addr (readFrame s.cfg c) = (some .ok, q)) (hd : takeAnswer () s.env.delays = (some (), q'))
    (hr : readTurnAfter s [.write s.addr (readFrame s.cfg c) .ok, .delay (s.cfg.delayMs.get c)] s.addr (s.cfg.rlen c) =
      (some (st, r), q''))
    (hl : r.length ≤ s.cfg.rlen c) : readCommand c s = { s with
      txbuf := readFrame s.cfg c
      rxbuf := r
      seq := .idle
      job := .none
      env := { s.env with writes := q, delays := q', reads := q'' }
      trace := s.trace ++
        [.write s.addr (readFrame s.cfg c) .ok, .delay (s.cfg.delayMs.get c), .read s.addr (s.cfg.rlen c) st r]
      resp := some (
        if st = .ok ∧ r.length = s.cfg.rlen c ∧ s.cfg.respCheck.accepts c r = true then
          { status := .ok, val := BitVec.ofNat 64 (readVal c r), snap := [] }
        else plainResponse .fail) } := by
  rw [readCommand_answered hi ha hw hd ((s.delayed_readTurn c q q' _ _).trans hr), List.take_of_length_le hl, readReport_eq]
  simp [frame_read]

/-- Settles O29: the operation latches its target and runs its command, by the outcome of the tests and by the answer to its
write. -/
theorem readCommandsAnswerTheirPayload : Obligations.ReadCommandsAnswerTheirPayload := by
  intro i s c a h
  rw [exec_of_hostRead h]
  refine ⟨fun hi => ?_, fun hi ha => ?_, fun q hi ha hw => ?_, fun st r q q' q'' hi ha hw hd hr hl => ?_⟩
  · rw [readCommand_notReady (s := s.target a) hi, State.completePlain_eq]
    rfl
  · rw [readCommand_badArg (s := s.target a) hi ha, State.completePlain_eq]
    rfl
  · rw [readCommand_writeFails_eq (s := s.target a) hi ha hw]
    rfl
  · rw [readCommand_answered_eq (s := s.target a) hi ha hw hd hr hl]
    rfl

/-- Settles O31: the frame runs its command, by the answer to its write. -/
theorem readFramesAnswerTheirPayload : Obligations.ReadFramesAnswerTheirPayload := by
  intro i s c h hi ha
  rw [eq_frameOf_of_busCommand h, exec_frameOf]
  refine ⟨fun q hw => ?_, fun st r q q' q'' hw hd hr hl => ?_⟩
  · rw [readCommand_writeFails_eq hi ha hw]
  · rw [readCommand_answered_eq hi ha hw hd hr hl]

/-- Settles O32: the command of either class ends with its failed write, which has changed nothing else that the host can see. -/
theorem failedWriteFailsEveryCommand : Obligations.FailedWriteFailsEveryCommand := by
  rintro i s a bytes q (⟨hf, hn⟩ | ⟨ha, c, hr, rfl⟩) hi hw
  · obtain ⟨-, -, sends⟩ := writeCommandsSendOneFrame i s a bytes hf
    exact ⟨_, sends .err q hi hn hw, ⟨rfl, rfl, rfl, rfl, rfl, rfl⟩, rfl, rfl, rfl⟩
  · obtain ⟨-, -, fails, -⟩ := readCommandsAnswerTheirPayload i s c a hr
    exact ⟨_, fails q hi ha hw, ⟨rfl, rfl, rfl, rfl, rfl, rfl⟩, rfl, rfl, rfl⟩

/-! What no command writes. -/

/-- A catalog command, as a host operation or as a frame outside an `ALLOCATE`, runs one of the two builders (R192, R194). -/
theorem exec_of_isCommand {s : State} {i : Instr} (h : isCommand s i) :
    ∃ o, (∃ c, exec i s = .next (readCommand c (s.aimed o))) ∨
      ∃ c ps legal, exec i s = .next (writeCommand c ps legal (s.aimed o)) := by
  obtain ⟨a, b, hf⟩ | ⟨c, a, hr⟩ | ⟨c, hc⟩ | ⟨⟨b, hb⟩, ho⟩ := h
  · obtain ⟨c, ps, legal, -, -, runs⟩ := exec_of_hostFrame hf
    exact ⟨some a, .inr ⟨c, ps, legal, runs s⟩⟩
  · exact ⟨some a, .inl ⟨c, exec_of_hostRead hr s⟩⟩
  · rw [eq_frameOf_of_busCommand hc]
    exact ⟨none, .inl ⟨c, exec_frameOf c s⟩⟩
  · obtain ⟨c, ps, legal, -, -, runs⟩ := exec_of_busFrame hb
    exact ⟨none, .inr ⟨c, ps, legal, runs s ho⟩⟩

theorem extends_aimed (s : State) (o : Option Addr) : s.Extends (s.aimed o) := by
  cases o
  · exact .refl s
  · exact extends_target s _

/-- What extends a state and leaves its directory leaves the architectural state (R30). -/
theorem State.Extends.sameArchitecture {s t : State} (h : s.Extends t) (hd : t.dir = s.dir) : SameArchitecture s t :=
  ⟨h.cfg, h.host, h.init, hd, h.exc, h.past⟩

/-- The bus events of `t` are those of `s` and some more, with no `Reset`, at most one write, and at most one read (R196). -/
def State.TriesOnce (s t : State) : Prop :=
  ∃ evs, added s t evs ∧ .reset ∉ evs ∧
    (evs.filter fun e => (writeLength e).isSome).length ≤ 1 ∧ (evs.filter isRead).length ≤ 1

theorem State.TriesOnce.silent {s t : State} (h : added s t []) : s.TriesOnce t :=
  ⟨[], h, by simp, Nat.zero_le _, Nat.zero_le _⟩

theorem State.TriesOnce.write {s t : State} {a : Addr} {b : List Byte} {st : BusStatus} (h : added s t [.write a b st]) :
    s.TriesOnce t :=
  ⟨_, h, by simp, le_rfl, Nat.zero_le _⟩

theorem State.TriesOnce.writeDelay {s t : State} {a : Addr} {b : List Byte} {st : BusStatus} {d : Word}
    (h : added s t [.write a b st, .delay d]) : s.TriesOnce t :=
  ⟨_, h, by simp, le_rfl, Nat.zero_le _⟩

theorem State.TriesOnce.writeDelayRead {s t : State} {a a' : Addr} {b r : List Byte} {st st' : BusStatus} {d : Word} {n : Nat}
    (h : added s t [.write a b st, .delay d, .read a' n st' r]) : s.TriesOnce t :=
  ⟨_, h, by simp, le_rfl, le_rfl⟩

/-- Latching a target first adds no event. -/
theorem State.TriesOnce.ofAimed {s t : State} {o : Option Addr} (h : (s.aimed o).TriesOnce t) : s.TriesOnce t := by
  obtain ⟨evs, he, hr⟩ := h
  exact ⟨evs, he.trans (by rw [State.aimed_trace]), hr⟩

theorem writeCommand_triesOnce (c : WCmd) (ps : List Byte) (legal : Bool) (s : State) :
    s.TriesOnce (writeCommand c ps legal s) := by
  obtain h | ⟨st, h⟩ := writeCommand_trace c ps legal s
  · exact .silent h
  · exact .write h

theorem readCommand_triesOnce (c : RCmd) (s : State) : s.TriesOnce (readCommand c s) := by
  obtain ⟨done, waits⟩ := readCommand_trace c s
  by_cases hq : (readCommand c s).seq = .idle
  · obtain h | h | ⟨st, r, -, h⟩ := done hq
    · exact .silent h
    · exact .write h
    · exact .writeDelayRead h
  · obtain h | h | h := waits hq
    · exact .silent h
    · exact .write h
    · exact .writeDelay h

/-- Settles O33: a command extends the state, latches its target at most, leaves the directory, and its events are those of one
transaction, as far as it comes. -/
theorem commandsWriteNoArchitecturalState : Obligations.CommandsWriteNoArchitecturalState := by
  intro i s t hc h
  obtain ⟨o, ⟨c, e⟩ | ⟨c, ps, legal, e⟩⟩ := exec_of_isCommand hc <;> cases e.symm.trans h
  · have hx := (extends_aimed s o).trans (ends_readCommand c (s.aimed o)).extends
    exact ⟨hx.sameArchitecture ((readCommand_dir c _).trans (s.aimed_dir o)), (readCommand_triesOnce c _).ofAimed⟩
  · have hx := (extends_aimed s o).trans (ends_writeCommand c ps legal (s.aimed o)).scanExtends
    exact ⟨hx.sameArchitecture ((writeCommand_dir c ps legal _).trans (s.aimed_dir o)),
      (writeCommand_triesOnce c ps legal _).ofAimed⟩

/-! Responses that are not `OK`. -/

/-- Every operation waits with the response it began with, or ends with a response given in such a state (R13, R20). -/
theorem exec_ends {i : Instr} {s t : State} (h : exec i s = .next t) :
    State.Ends (fun u => u.resp = s.resp) (fun _ => True) t := by
  have plain (st : Status) : State.Ends (fun u => u.resp = s.resp) (fun _ => True) (s.completePlain st) :=
    .inr ⟨s, st, 0, [], rfl, trivial, rfl⟩
  cases opKind i with
  | init caps =>
    cases h
    exact .inr ⟨{ s with init := initAfter s.init caps }, .ok, 0, [], rfl, trivial, rfl⟩
  | setExclusions n l =>
    obtain ⟨rfl, -⟩ | ⟨rfl, -⟩ | ⟨rfl, -⟩ := exec_setExclusions_cases h
    · exact plain .notReady
    · exact plain .badArg
    · exact .inr ⟨{ s with exc := l.take n.toNat }, .ok, 0, [], rfl, trivial, rfl⟩
  | getDirectory => exact (ends_getDirectory h).mono (fun _ k => k.resp) fun _ _ => trivial
  | getExclusions => exact (ends_getExclusions h).mono (fun _ k => k.resp) fun _ _ => trivial
  | scan => exact (ends_execScan h).mono (fun _ k => k.resp) fun _ _ => trivial
  | allocate d => exact (ends_execAllocate h).mono (fun _ k => k.elim (·.resp) (·.resp)) fun _ _ => trivial
  | probe => exact (ends_execProbe h).mono (fun _ k => k.resp) fun _ _ => trivial
  | reassignment a => exact (ends_execFrameSetSlaveAddress h).mono (fun _ k => k.resp) fun _ _ => trivial
  | read c o runs =>
    cases (runs s).symm.trans h
    exact (ends_readCommand c _).mono (fun _ k => k.resp.trans (s.aimed_resp o)) fun _ _ => trivial
  | write word o runs =>
    cases (runs s).symm.trans h
    exact (ends_writeCommand _ _ _ _).mono (fun _ k => k.resp.trans (s.aimed_resp o)) fun _ _ => trivial

/-- The end of an operation gives no output value and no list with a status other than `OK` (R83, R195). -/
theorem State.complete_empty {s : State} {st : Status} {v : Val} {l : List Addr} {r : Response}
    (hr : (s.complete st v l).resp = some r) (hs : r.status ≠ .ok) : r.val = 0 ∧ r.snap = [] := by
  rw [State.complete_resp, Option.some_inj] at hr
  subst hr
  by_cases hst : st = .ok
  · rw [if_pos hst] at hs
    exact absurd hst hs
  · rw [if_neg hst]
    exact ⟨rfl, rfl⟩

/-- Settles O36: an operation that waits has no response, and one that is done has its end's. -/
theorem unsuccessfulResponsesAreEmpty : Obligations.UnsuccessfulResponsesAreEmpty := by
  intro i s t r hn h hr hs
  obtain hw | ⟨u, st, v, l, -, -, rfl⟩ := exec_ends h
  · exact absurd (hr.symm.trans (hw.trans hn)) nofun
  · exact State.complete_empty hr hs

end

end Sys2Proof.Machine

/-! SUPPORT. The statements of 60_exceptions.md: which operation answers which status, and the refusal without `INIT` (R244, R251). -/

namespace Sys2Proof.Machine

section

open Sys2Proof.Claims

/-- Settles O25: the refusal is a plain response at once, at most the target having been latched before. -/
theorem uninitialisedOperationsAnswerNotReady : Obligations.UninitialisedOperationsAnswerNotReady := by
  intro i s hn hi
  obtain ⟨o, h⟩ := exec_notReady hn hi
  exact refused_of_completePlain h

/-! The statuses of the parts: those of R244, and `NOT_READY` exactly without `INIT`. -/

theorem scanStatuses.reports {s : State} {st : Status} (h : scanStatuses s st) :
    (st = .ok ∨ st = .notReady) ∧ (st = .notReady ↔ s.init = false) := by
  obtain ⟨hi, rfl⟩ | ⟨hi, rfl⟩ := h <;> simp [hi]

theorem writeStatuses.reports {s : State} {legal : Bool} {st : Status} (h : writeStatuses s legal st) :
    (st = .ok ∨ st = .fail ∨ st = .notReady ∨ (st = .badArg ∧ legal = false)) ∧ (st = .notReady ↔ s.init = false) := by
  obtain ⟨hi, rfl⟩ | ⟨hi, hl, rfl⟩ | ⟨hi, rfl | rfl⟩ := h <;> simp [*]

theorem readStatuses.reports {s : State} {st : Status} (h : readStatuses s st) :
    (st = .ok ∨ st = .fail ∨ st = .notReady ∨ (st = .badArg ∧ s.addr = 0)) ∧ (st = .notReady ↔ s.init = false) := by
  obtain ⟨hi, rfl⟩ | ⟨hi, ha, rfl⟩ | ⟨hi, rfl | rfl⟩ := h <;> simp [*]

/-! The statuses R244 gives the catalog commands. -/

theorem allowedStatus_hostRead {i : Instr} {c : RCmd} {a : Addr} (h : hostRead i = some (c, a)) (j : Job) (st : Status) :
    allowedStatus j i st ↔ st = .ok ∨ st = .fail ∨ st = .notReady ∨ (st = .badArg ∧ a = 0) := by
  cases i <;> cases h <;> rfl

theorem allowedStatus_busCommand {i : Instr} {c : RCmd} (h : busCommand i = some c) (j : Job) (st : Status) :
    allowedStatus j i st := by
  cases i <;> cases h <;> trivial

theorem allowedStatus_hostFrame {g : Cfg} {i : Instr} {a : Addr} {bytes : List Byte} (h : hostFrame g i = some (a, bytes))
    (j : Job) (st : Status) :
    allowedStatus j i st ↔ st = .ok ∨ st = .fail ∨ st = .notReady ∨ (st = .badArg ∧ ¬ newAddressGiven i) := by
  cases i
  case setSlaveAddress => simp [allowedStatus, newAddressGiven]
  all_goals cases h <;> simp [allowedStatus, newAddressGiven]

theorem allowedStatus_busFrame {g : Cfg} {i : Instr} {bytes : List Byte} (h : busFrame g i = some bytes) {j : Job}
    (ho : outsideScans j i) (st : Status) :
    allowedStatus j i st ↔ st = .ok ∨ st = .fail ∨ st = .notReady ∨ (st = .badArg ∧ ¬ newAddressGiven i) := by
  cases i
  case frameSetSlaveAddress =>
    obtain ⟨hf, ht⟩ := ho
    simp [allowedStatus, newAddressGiven, hf, ht, or_left_comm]
  all_goals cases h <;> simp [allowedStatus, newAddressGiven]

/-! What each operation reports. -/

/-- `t` is what an operation other than `INIT` leaves that began in `s`: it waits with the old response, or it reports a status
that R244 gives it, `NOT_READY` exactly without `INIT` (R242). -/
def State.Reports (s : State) (i : Instr) (t : State) : Prop :=
  State.Ends (fun u => u.resp = s.resp) (fun st => allowedStatus s.job i st ∧ (st = .notReady ↔ s.init = false)) t

theorem reports_hostRead {i : Instr} {c : RCmd} {a : Addr} {s t : State} (hr : hostRead i = some (c, a))
    (h : exec i s = .next t) : s.Reports i t := by
  cases (exec_of_hostRead hr s).symm.trans h
  refine (ends_readCommand c (s.target a)).mono (fun _ k => k.resp) fun st k => ?_
  rw [allowedStatus_hostRead hr]
  exact k.reports

theorem reports_busCommand {i : Instr} {c : RCmd} {s t : State} (hc : busCommand i = some c) (h : exec i s = .next t) :
    s.Reports i t := by
  rw [eq_frameOf_of_busCommand hc, exec_frameOf] at h
  cases h
  exact (ends_readCommand c s).mono (fun _ k => k.resp) fun st k => ⟨allowedStatus_busCommand hc s.job st, k.reports.2⟩

/-- A class W command refuses an illegal argument only, which R96 (b) says is a new address of 0. -/
theorem reports_writeCommand {i : Instr} {c : WCmd} {ps : List Byte} {legal : Bool} {s u : State} (hi : u.init = s.init)
    (hr : u.resp = s.resp) (hl : legal = true ↔ newAddressGiven i)
    (ha : ∀ st, allowedStatus s.job i st ↔ st = .ok ∨ st = .fail ∨ st = .notReady ∨ (st = .badArg ∧ ¬ newAddressGiven i)) :
    s.Reports i (writeCommand c ps legal u) := by
  refine (ends_writeCommand c ps legal u).mono (fun _ k => k.resp.trans hr) fun st k => ?_
  rw [ha, ← hl, Bool.not_eq_true, ← hi]
  exact k.reports

theorem reports_hostFrame {g : Cfg} {i : Instr} {a : Addr} {bytes : List Byte} {s t : State}
    (hf : hostFrame g i = some (a, bytes)) (h : exec i s = .next t) : s.Reports i t := by
  obtain ⟨c, ps, legal, -, hl, runs⟩ := exec_of_hostFrame hf
  cases (runs s).symm.trans h
  exact reports_writeCommand rfl rfl hl (allowedStatus_hostFrame hf s.job)

theorem reports_busFrame {g : Cfg} {i : Instr} {bytes : List Byte} {s t : State} (hb : busFrame g i = some bytes)
    (ho : outsideScans s.job i) (h : exec i s = .next t) : s.Reports i t := by
  obtain ⟨c, ps, legal, -, hl, runs⟩ := exec_of_busFrame hb
  cases (runs s ho).symm.trans h
  exact reports_writeCommand rfl rfl hl (allowedStatus_busFrame hb ho)

theorem reports_setExclusions {n : Byte} {l : List Addr} {s t : State} (h : exec (.setExclusions n l) s = .next t) :
    s.Reports (.setExclusions n l) t := by
  obtain ⟨rfl, hi⟩ | ⟨rfl, hi, hn⟩ | ⟨rfl, hi, -⟩ := exec_setExclusions_cases h
  · exact .inr ⟨s, .notReady, 0, [], rfl, ⟨.inr (.inl rfl), by simp [hi]⟩, rfl⟩
  · exact .inr ⟨s, .badArg, 0, [], rfl, ⟨.inr (.inr ⟨rfl, hn⟩), by simp [hi]⟩, rfl⟩
  · exact .inr ⟨{ s with exc := l.take n.toNat }, .ok, 0, [], rfl, ⟨.inl rfl, by simp [hi]⟩, rfl⟩

/-- Inside an `ALLOCATE` the frame reports what that does, and outside what its command does. -/
theorem reports_frameSetSlaveAddress {new : Addr} {s t : State} (h : exec (.frameSetSlaveAddress new) s = .next t) :
    s.Reports (.frameSetSlaveAddress new) t := by
  by_cases ho : outsideScans s.job (.frameSetSlaveAddress new)
  · exact reports_busFrame (g := s.cfg) rfl ho h
  · refine (ends_execFrameSetSlaveAddress h).mono (fun _ k => k.resp) ?_
    rintro st (k | ⟨hj, -⟩)
    · exact ⟨k.reports.1.imp_right .inl, k.reports.2⟩
    · exact absurd ⟨hj false, hj true⟩ ho

theorem exec_reports {i : Instr} {s t : State} (hn : ∀ caps, i ≠ .init caps) (h : exec i s = .next t) : s.Reports i t := by
  cases i
  case init caps => exact absurd rfl (hn caps)
  case setExclusions => exact reports_setExclusions h
  case getDirectory => exact (ends_getDirectory h).mono (fun _ k => k.resp) fun _ k => k.reports
  case getExclusions => exact (ends_getExclusions h).mono (fun _ k => k.resp) fun _ k => k.reports
  case scan => exact (ends_execScan h).mono (fun _ k => k.resp) fun _ k => k.reports
  case allocate => exact (ends_execAllocate h).mono (fun _ k => k.elim (·.resp) (·.resp)) fun _ k => k.reports
  case probe => exact (ends_execProbe h).mono (fun _ k => k.resp) fun _ k => k.reports
  case frameSetSlaveAddress => exact reports_frameSetSlaveAddress h
  case readMeasurement | readVersion | getSampleRate | getStatus | getSlaveAddress | getAmpThreshold | getDistanceLimits =>
    exact reports_hostRead rfl h
  case frameReadMeasurement | frameReadVersion | frameGetSampleRate | frameGetStatus | frameGetSlaveAddress
      | frameGetAmpThreshold | frameGetDistanceLimits =>
    exact reports_busCommand rfl h
  case softReset | setSampleRate | trigger | setEnable | setSlaveAddress | restoreDefaults | saveSettings | setAmpThreshold
      | setDistanceLimits | timestampSync =>
    exact reports_hostFrame (g := s.cfg) rfl h
  case frameSoftReset | frameSetSampleRate | frameTrigger | frameSetEnable | frameRestoreDefaults | frameSaveSettings
      | frameSetAmpThreshold | frameSetDistanceLimits | frameTimestampSync =>
    exact reports_busFrame (g := s.cfg) rfl trivial h

theorem State.complete_status {s : State} {st : Status} {v : Val} {l : List Addr} {r : Response}
    (hr : (s.complete st v l).resp = some r) : r.status = st := by
  rw [State.complete_resp, Option.some_inj] at hr
  subst hr
  split <;> rfl

/-- Settles O37: `INIT` answers `OK`, and what every other operation reports is its status where it does not wait. -/
theorem statusesAreThoseOfTheOperation : Obligations.StatusesAreThoseOfTheOperation := by
  intro i s t r hn h hr
  by_cases hc : ∃ caps, i = .init caps
  · obtain ⟨caps, rfl⟩ := hc
    cases h
    obtain rfl := Option.some_inj.1 hr
    exact ⟨rfl, nofun, fun k => absurd rfl (k.2 caps)⟩
  · have hc : ∀ caps, i ≠ .init caps := fun caps k => hc ⟨caps, k⟩
    obtain hw | ⟨u, st, v, l, -, ⟨ha, hx⟩, rfl⟩ := exec_reports hc h
    · exact absurd (hr.symm.trans (hw.trans hn)) nofun
    · rw [State.complete_status hr]
      exact ⟨ha, hx.trans (and_iff_left hc).symm⟩

end

end Sys2Proof.Machine

/-! Reset and waiting (spec 70_reset_and_hazards.md section 1). -/

namespace Sys2Proof.Machine

/-- In `IDLE` the next step looks at the host port, and with no request there it changes nothing (R273). -/
theorem step_of_no_request {s : State} (hs : s.seq = .idle) (hh : s.host = []) : step s = .next s := by
  simp only [step, hs, idleStep, hh]

/-- Settles O9: reset leaves `SEQ` in `IDLE` with no request presented, so it is one of the states that wait. -/
theorem idleMachineWaitsForARequest : Obligations.IdleMachineWaitsForARequest :=
  ⟨fun _ => step_of_no_request, step_of_no_request rfl rfl⟩

/-- Settles O10: each clause is the value the reset state gives that field, and both counts are those of empty lists. -/
theorem resetLeavesTheMachineUninitialised : Obligations.ResetLeavesTheMachineUninitialised :=
  ⟨rfl, rfl, rfl, rfl, rfl, rfl, rfl, rfl, rfl⟩

end Sys2Proof.Machine
